-- ==== Sys2Proof/Word.lean ====
section
/-! DEFINITION. The plainest data of the hardware: a byte, a level, and the last elements of a list of levels
(spec 00_scope.md R10, R11). -/

namespace Sys2Proof

/-- One byte of a frame or of a buffer (R60). -/
abbrev Byte := BitVec 8

/-- One binary channel state (R10): `true` is HIGH = 1, `false` is LOW = 0. -/
abbrev Level := Bool

end Sys2Proof
end

