-- ==== Sys2Proof/Config.lean ====
section
/-! DEFINITION. What is fixed for one instance of the hardware (spec 00_scope.md R8): the OPEN parameters as one
record, the constants of the source, and the values the spec leaves free (93_implementation_defined.md U2, U3, U5,
U7), which have no body so that no proof can rest on one. -/

namespace Sys2Proof

/-- The parameters of R8, under the spec's names (`W_S` is `wS`, `TO_PRE` is `toPre`, ...).  The spec makes each of
them an argument of the model: the record is carried by the state, no operation writes it, and every statement holds
for every value of it that `Params.wf` (R8, R9) admits.  See log entries 1 and 2. -/
structure Params where
  /-- `W_S`: width of an intensity sample. -/
  wS : Nat
  /-- `W_T`: width of `now` and of every timestamp. -/
  wT : Nat
  /-- `T_BIT`: ticks in one bit period. -/
  tBit : Nat
  /-- `T_PRE`: ticks between two samples in SeekingPreamble. -/
  tPre : Nat
  /-- `N_CAL`: number of calibration samples. -/
  nCal : Nat
  /-- `T_CAL`: ticks between two calibration samples. -/
  tCal : Nat
  /-- `TO_PRE`: preamble timeout. -/
  toPre : Nat
  /-- `TO_SOF`: start-frame timeout. -/
  toSof : Nat
  /-- `TO_GLOBAL`: global data timeout. -/
  toGlobal : Nat
  /-- `TO_INACT`: inactivity timeout. -/
  toInact : Nat
  /-- `TO_EOF`: end-frame timeout. -/
  toEof : Nat
  /-- `RX_DEPTH`: bytes in the receive buffer. -/
  rxDepth : Nat
  /-- `TX_DEPTH`: bytes in the transmit payload buffer. -/
  txDepth : Nat
  /-- `N_EMIT`: emissions of one frame per start command. -/
  nEmit : Nat
  /-- `T_IDLE`: ticks of LOW between two emissions. -/
  tIdle : Nat
  /-- `INVALID_LIMIT`: invalid symbols in a row that end the data phase (source default 3). -/
  invalidLimit : Nat
  /-- `EFD_SEED`: whether the end-frame window starts with the run of invalid levels (default 1). -/
  efdSeed : Bool
deriving DecidableEq, Repr

/-- `T_HALF = T_BIT / 2` (R8). -/
def Params.tHalf (p : Params) : Nat := p.tBit / 2

/-- The "vector value" column of R8: the instance the test vectors of 95_test_vectors.md use, and the one
`State.reset` carries.  DESIGN CHOICE, log entry 2 (the spec gives these numbers no other standing). -/
def Params.vector : Params where
  wS := 10
  wT := 32
  tBit := 8
  tPre := 2
  nCal := 4
  tCal := 1
  toPre := 1000
  toSof := 1000
  toGlobal := 4000
  toInact := 400
  toEof := 200
  rxDepth := 64
  txDepth := 64
  nEmit := 1
  tIdle := 16
  invalidLimit := 3
  efdSeed := true

namespace Config

/-- `PAT_SOF` as 8 bits, first bit in time in bit 7 (R8, R84). -/
def patSof : Byte := 0xF0

/-- `PAT_EOF` as 8 bits, first bit in time in bit 7 (R8, R84). -/
def patEof : Byte := 0x0F

/-- The preamble's 16 raw bits, first in time in bit 15 (R83). -/
def preambleBits : BitVec 16 := 0xAAAA

/-- `PAT_LEN` (R8). -/
def patLen : Nat := 8

/-- `WIN_MAX` (R8). -/
def winMax : Nat := 16

/-- `PRE_LEVELS` (R8). -/
def preLevels : Nat := 16

/-- `PRE_TRANS` (R8). -/
def preTrans : Nat := 8

/-- `HEADER_LEN` (R8). -/
def headerLen : Nat := 9

/-- `CRC_POLY` (R8). -/
def crcPoly : BitVec 16 := 0xA001

/-- `CRC_INIT` (R8). -/
def crcInit : BitVec 16 := 0xFFFF

/-- Free value: what a read of `RXBUF` answers at an offset that holds no byte (R62, R63; U3).  The first argument
numbers the tick of the read, the second is the offset. Log entry 5. -/
opaque freeRxByte : Nat → Nat → Byte

/-- Free value: what the encoder would read from `TXBUF` at an offset that holds no byte (R62; U2).  No run from
reset reads one. Log entry 5. -/
opaque freeTxByte : Nat → Nat → Byte

/-- Free value: what `txIdx` holds during a gap (R139 names the target GAP without an index). Log entry 6. -/
opaque freeGapIdx : Nat → Nat

/-- Free value: `rst` at a tick for which the stimulus names no inputs (R52). Log entry 4. -/
opaque freeRst : Nat → Bool

/-- Free value: `adc_in` at a tick for which the stimulus names no inputs (R52). Log entry 4. -/
opaque freeAdc : Nat → Nat

/-- Free value: `tx_cmd` at a tick for which the stimulus names no inputs (R52). Log entry 4. -/
opaque freeCmd : Nat → BitVec 26

/-- Free value: `rx_raddr` at a tick for which the stimulus names no inputs (R52). Log entry 4. -/
opaque freeRaddr : Nat → Nat

end Config

end Sys2Proof
end

