-- ==== Sys2Proof/Syntax.lean ====
section
/-! DEFINITION. The operations and codes of spec/opcode_table.json, one constructor a row (30_encoding.md R101), the
finite codes of R98 to R100, and the lines of a stimulus (R102). -/

namespace Sys2Proof

/-- The formats of R80 that a row of the opcode table uses (the table's column `format`). -/
inductive Format where
  | symbol | delim | preamble | frame | txcmd | crccmd | rxstate | txphase | rst
deriving DecidableEq, Repr

/-- The number of bits a code of a format has (R80; the table's column `width`). -/
def Format.width : Format → Nat
  | .symbol => 2
  | .delim => 8
  | .preamble => 16
  | .frame => 72
  | .txcmd => 26
  | .crccmd => 10
  | .rxstate => 3
  | .txphase => 3
  | .rst => 1

/-- A code word: its format and its bits as a number, bit 0 the least significant (the table's numbering). -/
structure CodeWord where
  fmt : Format
  bits : Nat
deriving DecidableEq, Repr

/-- The operations, one constructor per row of spec/opcode_table.json.  Ignored bits of a command word are kept as
operands (U5), so that no bit of a code is lost. Every operand has its exact width in its type. -/
inductive Instr where
  /-- `SYM.1`, wire code `10` (R81). -/
  | sym1
  /-- `SYM.0`, wire code `01` (R81). -/
  | sym0
  /-- `SYM.INV0`, wire code `00` (R81, R165). -/
  | symInv0
  /-- `SYM.INV1`, wire code `11` (R81, R165). -/
  | symInv1
  /-- `DELIM.SOF`, wire code `11110000` (R84). -/
  | delimSof
  /-- `DELIM.EOF`, wire code `00001111` (R84). -/
  | delimEof
  /-- `PREAMBLE`, wire code `1010101010101010` (R83). -/
  | preamble
  /-- `FRAME`, the frame header on the wire: `type`, `length`, `crc16` (R86, R101). -/
  | frame (type : BitVec 24) (length : BitVec 32) (crc : BitVec 16)
  /-- `TX.NOP` (R130); `arg` is ignored. -/
  | txNop (arg : BitVec 24)
  /-- `TX.CLEAR` (R131); `arg` is ignored. -/
  | txClear (arg : BitVec 24)
  /-- `TX.PUSH byte` (R132); `hi` is `arg[23:8]`, ignored. -/
  | txPush (hi : BitVec 16) (byte : Byte)
  /-- `TX.START type` (R133). -/
  | txStart (type : BitVec 24)
  /-- `CRC.INIT` (R110); `en` and `din` are ignored. -/
  | crcInit (en : BitVec 1) (din : Byte)
  /-- `CRC.BYTE din` (R111). -/
  | crcByte (din : Byte)
  /-- `CRC.HOLD` (R112); `din` is ignored. -/
  | crcHold (din : Byte)
  /-- `CAL.STEP` (R121). -/
  | calStep
  /-- `PRE.STEP` (R150). -/
  | preStep
  /-- `SOF.STEP` (R154). -/
  | sofStep
  /-- `DEC.STEP` (R160). -/
  | decStep
  /-- `EOF.STEP` (R180). -/
  | eofStep
  /-- `VAL.STEP` (R190). -/
  | valStep
  /-- `TX.IDLE` (R135). -/
  | txIdle
  /-- `TX.PREAMBLE` (R140). -/
  | txPreamble
  /-- `TX.SOF` (R140). -/
  | txSof
  /-- `TX.DATA` (R140). -/
  | txData
  /-- `TX.EOF` (R140). -/
  | txEof
  /-- `TX.GAP` (R140). -/
  | txGap
  /-- `RX.TICK` (R201). -/
  | rxTick
  /-- `RESET` (R250). -/
  | reset
deriving DecidableEq, Repr

/-- Why a code word is no operation. -/
inductive DecodeError where
  /-- The word has a bit above its format's width. Raised by the decoder. Safe. -/
  | tooWide
  /-- The codes `110` and `111` of `rxState` and `txPhase`, which no rule writes (R98, R99; U6 "refuse").
  Raised by the decoder. Safe. -/
  | unreachableCode
  /-- An 8-bit raw-bit window that is neither delimiter (R84). Raised by the decoder. Safe. -/
  | notDelimiter
  /-- A 16-bit raw-bit window that is not the preamble (R83). Raised by the decoder. Safe. -/
  | notPreamble
deriving DecidableEq, Repr

/-- The six values of `rxState` (R24). -/
inductive RxState where
  | cal | pre | sof | data | eofs | proc
deriving DecidableEq, Repr

/-- The six values of `txPhase` (R45). -/
inductive TxPhase where
  | idle | preamble | sof | data | eof | gap
deriving DecidableEq, Repr

/-- The sixteen codes of the event port (R100, R223). -/
inductive Event where
  | none | calDone | calDegenerate | preTimeout | preLock | sofTimeout | sofMatch | dataInactivity
  | dataGlobal | invalidLimit | eofTimeout | eofMatch | frameOk | underrun | integrity | rxOverflow
deriving DecidableEq, Repr

/-- The input ports' values in one tick (R21, R52). `adcIn` and `rxRaddr` are cut to their port's width where they
are read. -/
structure Pins where
  rst : Bool
  adcIn : Nat
  txCmd : BitVec 26
  rxRaddr : Nat
deriving DecidableEq, Repr

/-- A line of the stimulus (R102), waiting in the state until a step reads it.  DESIGN CHOICE, log entry 3. -/
inductive Line where
  /-- One tick of the whole hardware with these inputs (`ADC`, `TX.…`, `RESET` and `IDLE` lines). -/
  | tick (pins : Pins)
  /-- One tick of `LOOPBACK`: `adc_in` is LIGHT or DARK as `tx_out` says; `tx_cmd` as given. -/
  | loopback (cmd : BitVec 26)
  /-- `LEVELS bits xD`. -/
  | levels (bits : List Level) (ticks : Nat)
  /-- `CHAN light=… dark=…`; takes no tick. -/
  | chan (light dark : Nat)
  /-- `INVOKE s=… now=…`: one handler run at the handler level (R7, R207). -/
  | invoke (sample now : Nat)
  /-- One operation of the opcode table taken alone, given by its code (`CRC.…` lines; a wire code on the channel). -/
  | code (word : CodeWord)
deriving DecidableEq, Repr

end Sys2Proof
end

