-- ==== Sys2Proof/WellFormed.lean ====
section
/-! DEFINITION. The checks: the constraints on a configuration (00_scope.md R8, R9; U4), on a code word, and on the
values of the input ports (10_state.md R21).  An `Instr` needs no check of its own: its operands have their widths in
their types. -/

namespace Sys2Proof

/-- The longest sample period, in ticks (R206). -/
def Params.longestPeriod (p : Params) : Nat := max (max p.tCal p.tPre) p.tBit

/-- A timeout plus the longest sample period is below `2^W_T` (R8, row `W_T`; R206). -/
def Params.fits (p : Params) (timeout : Nat) : Bool := decide (timeout + p.longestPeriod < 2 ^ p.wT)

/-- The constraints of R8 and R9, one by one. -/
def Params.checks (p : Params) : List Bool :=
  [decide (1 ≤ p.wS), decide (2 ≤ p.tBit), decide (p.tBit % 2 = 0), decide (1 ≤ p.tPre), decide (1 ≤ p.nCal),
   decide (1 ≤ p.tCal), decide (1 ≤ p.nEmit), decide (1 ≤ p.tIdle), decide (1 ≤ p.invalidLimit),
   decide (9 ≤ p.rxDepth), decide (p.txDepth ≤ 2 ^ 32 - 1), decide (p.toInact < p.toGlobal),
   p.fits p.toPre, p.fits p.toSof, p.fits p.toGlobal, p.fits p.toInact, p.fits p.toEof]

/-- The constraints of R8 and R9, all of them (U4 lists the instances they shut out). -/
def Params.wf (p : Params) : Bool := p.checks.all fun ok => ok

/-- A code word has no bit above its format's width. -/
def CodeWord.wf (w : CodeWord) : Bool := decide (w.bits < 2 ^ w.fmt.width)

/-- The bits that hold a count `0 .. depth` ("width of `rxCount`", R21, R37). -/
def countWidth (depth : Nat) : Nat := Nat.log2 depth + 1

/-- The numbers on the input ports fit the ports (R21). -/
def Pins.wf (p : Params) (pins : Pins) : Bool :=
  decide (pins.adcIn < 2 ^ p.wS) && decide (pins.rxRaddr < 2 ^ countWidth p.rxDepth)

/-- A stimulus line names port values and code words that exist. -/
def Line.wf (p : Params) : Line → Bool
  | .tick pins => pins.wf p
  | .loopback _ => true
  | .levels _ ticks => decide (1 ≤ ticks)
  | .chan light dark => decide (light < 2 ^ p.wS) && decide (dark < 2 ^ p.wS)
  | .invoke sample now => decide (sample < 2 ^ p.wS) && decide (now < 2 ^ p.wT)
  | .code word => word.wf

end Sys2Proof
end

