-- ==== Sys2Proof/Decode.lean ====
section
/-! DEFINITION. From code words to operations and back (30_encoding.md R80 to R101, opcode_table.json), the codes of
the six-valued and sixteen-valued types (R98 to R100), and the table's numbering. -/

namespace Sys2Proof

/-- `v[hi:lo]` as a number (R10), `hi = lo + n - 1`. -/
def bitField (v lo n : Nat) : Nat := v / 2 ^ lo % 2 ^ n

/-! ## Codes of the state types -/

/-- `RXSTATE` (R98). -/
def RxState.code : RxState → BitVec 3
  | .cal => 0
  | .pre => 1
  | .sof => 2
  | .data => 3
  | .eofs => 4
  | .proc => 5

/-- `TXPHASE` (R99). -/
def TxPhase.code : TxPhase → BitVec 3
  | .idle => 0
  | .preamble => 1
  | .sof => 2
  | .data => 3
  | .eof => 4
  | .gap => 5

/-- `EVENT` (R100). -/
def Event.code : Event → BitVec 4
  | .none => 0x0
  | .calDone => 0x1
  | .calDegenerate => 0x2
  | .preTimeout => 0x3
  | .preLock => 0x4
  | .sofTimeout => 0x5
  | .sofMatch => 0x6
  | .dataInactivity => 0x7
  | .dataGlobal => 0x8
  | .invalidLimit => 0x9
  | .eofTimeout => 0xA
  | .eofMatch => 0xB
  | .frameOk => 0xC
  | .underrun => 0xD
  | .integrity => 0xE
  | .rxOverflow => 0xF

/-- The state an `RXSTATE` code names; `110` and `111` name none (R98, U6). -/
def RxState.ofCode : Nat → Option RxState
  | 0 => some .cal
  | 1 => some .pre
  | 2 => some .sof
  | 3 => some .data
  | 4 => some .eofs
  | 5 => some .proc
  | _ => none

/-- The phase a `TXPHASE` code names; `110` and `111` name none (R99, U6). -/
def TxPhase.ofCode : Nat → Option TxPhase
  | 0 => some .idle
  | 1 => some .preamble
  | 2 => some .sof
  | 3 => some .data
  | 4 => some .eof
  | 5 => some .gap
  | _ => none

/-- The handler that `rxState` selects (R24, R98). -/
def RxState.handler : RxState → Instr
  | .cal => .calStep
  | .pre => .preStep
  | .sof => .sofStep
  | .data => .decStep
  | .eofs => .eofStep
  | .proc => .valStep

/-- The arm of `TX.TICK` that `txPhase` selects (R99, R101). -/
def TxPhase.arm : TxPhase → Instr
  | .idle => .txIdle
  | .preamble => .txPreamble
  | .sof => .txSof
  | .data => .txData
  | .eof => .txEof
  | .gap => .txGap

/-! ## Decoding -/

/-- `SYMBOL` (R81): first level in time in bit 1. -/
def decodeSymbol (v : Nat) : Instr :=
  if v = 2 then .sym1 else if v = 1 then .sym0 else if v = 0 then .symInv0 else .symInv1

/-- `TXCMD` (R96): `op` in bits 25:24, `arg` in bits 23:0. All words are defined. -/
def decodeTxCmd (v : Nat) : Instr :=
  match bitField v 24 2 with
  | 0 => .txNop (BitVec.ofNat 24 (bitField v 0 24))
  | 1 => .txClear (BitVec.ofNat 24 (bitField v 0 24))
  | 2 => .txPush (BitVec.ofNat 16 (bitField v 8 16)) (BitVec.ofNat 8 (bitField v 0 8))
  | _ => .txStart (BitVec.ofNat 24 (bitField v 0 24))

/-- `CRCCMD` (R97): bit 9 `init`, bit 8 `en`, bits 7:0 `din`; `init` wins over `en`. -/
def decodeCrcCmd (v : Nat) : Instr :=
  if bitField v 9 1 = 1 then .crcInit (BitVec.ofNat 1 (bitField v 8 1)) (BitVec.ofNat 8 (bitField v 0 8))
  else if bitField v 8 1 = 1 then .crcByte (BitVec.ofNat 8 (bitField v 0 8))
  else .crcHold (BitVec.ofNat 8 (bitField v 0 8))

/-- `FRAME` (R86): `type` in bits 71:48, `length` in bits 47:16, `crc16` in bits 15:0. -/
def decodeFrame (v : Nat) : Instr :=
  .frame (BitVec.ofNat 24 (bitField v 48 24)) (BitVec.ofNat 32 (bitField v 16 32)) (BitVec.ofNat 16 (bitField v 0 16))

/-- The decoder: total on every format and every number, refusing by name. -/
def decode (w : CodeWord) : Except DecodeError Instr :=
  if w.wf then
    match w.fmt with
    | .symbol => .ok (decodeSymbol w.bits)
    | .delim =>
      if w.bits = Config.patSof.toNat then .ok .delimSof
      else if w.bits = Config.patEof.toNat then .ok .delimEof
      else .error .notDelimiter
    | .preamble => if w.bits = Config.preambleBits.toNat then .ok .preamble else .error .notPreamble
    | .frame => .ok (decodeFrame w.bits)
    | .txcmd => .ok (decodeTxCmd w.bits)
    | .crccmd => .ok (decodeCrcCmd w.bits)
    | .rxstate =>
      match RxState.ofCode w.bits with
      | some st => .ok st.handler
      | none => .error .unreachableCode
    | .txphase =>
      match TxPhase.ofCode w.bits with
      | some ph => .ok ph.arm
      | none => .error .unreachableCode
    | .rst => .ok (if w.bits = 0 then .rxTick else .reset)
  else .error .tooWide

/-! ## Encoding -/

/-- The code word of an operation (R81 to R86, R96 to R99, and the table's `RST` rows). -/
def encode : Instr → CodeWord
  | .sym1 => ⟨.symbol, 2⟩
  | .sym0 => ⟨.symbol, 1⟩
  | .symInv0 => ⟨.symbol, 0⟩
  | .symInv1 => ⟨.symbol, 3⟩
  | .delimSof => ⟨.delim, 0xF0⟩
  | .delimEof => ⟨.delim, 0x0F⟩
  | .preamble => ⟨.preamble, 0xAAAA⟩
  | .frame type length crc => ⟨.frame, type.toNat * 2 ^ 48 + length.toNat * 2 ^ 16 + crc.toNat⟩
  | .txNop arg => ⟨.txcmd, arg.toNat⟩
  | .txClear arg => ⟨.txcmd, 1 * 2 ^ 24 + arg.toNat⟩
  | .txPush hi byte => ⟨.txcmd, 2 * 2 ^ 24 + hi.toNat * 2 ^ 8 + byte.toNat⟩
  | .txStart type => ⟨.txcmd, 3 * 2 ^ 24 + type.toNat⟩
  | .crcInit en din => ⟨.crccmd, 2 ^ 9 + en.toNat * 2 ^ 8 + din.toNat⟩
  | .crcByte din => ⟨.crccmd, 2 ^ 8 + din.toNat⟩
  | .crcHold din => ⟨.crccmd, din.toNat⟩
  | .calStep => ⟨.rxstate, 0⟩
  | .preStep => ⟨.rxstate, 1⟩
  | .sofStep => ⟨.rxstate, 2⟩
  | .decStep => ⟨.rxstate, 3⟩
  | .eofStep => ⟨.rxstate, 4⟩
  | .valStep => ⟨.rxstate, 5⟩
  | .txIdle => ⟨.txphase, 0⟩
  | .txPreamble => ⟨.txphase, 1⟩
  | .txSof => ⟨.txphase, 2⟩
  | .txData => ⟨.txphase, 3⟩
  | .txEof => ⟨.txphase, 4⟩
  | .txGap => ⟨.txphase, 5⟩
  | .rxTick => ⟨.rst, 0⟩
  | .reset => ⟨.rst, 1⟩

/-! ## The table's words, without a format -/

/-- The format under which a table word of `nbits` bits is read.  The rows' codes overlap once a code of 1, 2 or 3
bits is widened to a byte (a byte 0 is a code of four formats): an 8-bit word below 8 is read as `RXSTATE`.  An exact
width of 1, 2 or 3 bits is read as `RST`, `SYMBOL`, `RXSTATE`.  DESIGN CHOICE, log entry 8. -/
def tableFormat (nbits w : Nat) : Option Format :=
  match nbits with
  | 1 => some .rst
  | 2 => some .symbol
  | 3 => some .rxstate
  | 8 => if w < 8 then some .rxstate else some .delim
  | 10 => some .crccmd
  | 16 => if w < 2 ^ 10 then some .crccmd else some .preamble
  | 26 => some .txcmd
  | 32 => some .txcmd
  | 72 => some .frame
  | _ => none

/-- The code word a table word stands for; a width no format has gives a word the decoder refuses as too wide. -/
def tableCode (nbits w : Nat) : CodeWord :=
  match tableFormat nbits w with
  | some f => ⟨f, w⟩
  | none => ⟨.rst, 2⟩

/-- The operation the decoder reads from a table word. -/
def decodeTableWord (nbits w : Nat) : Option Instr :=
  match decode (tableCode nbits w) with
  | .ok i => some i
  | .error _ => none

end Sys2Proof
end

