-- ==== Sys2Proof/Machine/State.lean ====
section
/-! DEFINITION. The state of the hardware, all of it (10_state.md R20 to R57), as plain data; the reasons a step can
stop; the state after reset (R57); and the named updates of the record. -/

namespace Sys2Proof.Machine

/-- The bytes of a buffer that hold a value, as (offset, byte) pairs with offsets strictly rising; an offset that is
not listed holds no value (R62). -/
abbrev Memory := List Host.Cell

/-- The ReceiverSession (R30 to R39). -/
structure Session where
  /-- R30. -/
  transCount : Nat
  /-- R31. -/
  lastLevel : Level
  /-- R31. -/
  lastLevelValid : Bool
  /-- R32; no rule reads it (N9). -/
  lastTransTime : Nat
  /-- R33, oldest level first. -/
  win : List Level
  /-- R34. -/
  phaseStart : Nat
  /-- R35. -/
  pairHalf : Bool
  /-- R35. -/
  firstLv : Level
  /-- R36. -/
  bitAcc : Byte
  /-- R36. -/
  bitCnt : Nat
  /-- R37. -/
  rxCount : Nat
  /-- R37. -/
  rxOvf : Bool
  /-- R38. -/
  invCount : Nat
  /-- R38, oldest level first. -/
  invRun : List Level
  /-- R39. -/
  lastValidTime : Nat
  /-- R39. -/
  lastByteTime : Nat
deriving DecidableEq, Repr

/-- Calibration working registers (R25) and the CalibrationResult (R26). -/
structure Calibration where
  calCount : Nat
  calMin : Nat
  calMax : Nat
  darkValue : Nat
  lightValue : Nat
  threshold : Nat
  calDone : Bool
deriving DecidableEq, Repr

/-- The result registers (R41). -/
structure Results where
  resPass : Bool
  resTooShort : Bool
  resCrcOk : Bool
  resLenOk : Bool
  resOvf : Bool
  resType : BitVec 24
  resLen : BitVec 32
  resCrcRx : BitVec 16
  resCrcCalc : BitVec 16
  resCount : Nat
deriving DecidableEq, Repr

/-- The receiver's group of R20. -/
structure Receiver where
  /-- R24. -/
  rxState : RxState
  cal : Calibration
  ses : Session
  res : Results
  /-- R42. -/
  evCode : Event
  /-- `RXBUF` (R51). -/
  buf : Memory
deriving DecidableEq, Repr

/-- The sender's group of R20. -/
structure Sender where
  /-- R45. -/
  txPhase : TxPhase
  /-- R46. -/
  txIdx : Nat
  /-- R46. -/
  txBit : Nat
  /-- R46. -/
  txHalf : Bool
  /-- R47. -/
  txTimer : Nat
  /-- R49. -/
  txEmitLeft : Nat
  /-- R48. -/
  txLen : BitVec 32
  /-- R48; the register `crc` of the CORE's CRC unit (40_crc16.md section 1). -/
  txCrc : BitVec 16
  /-- R48. -/
  txType : BitVec 24
  /-- R48. -/
  txOvf : Bool
  /-- R50. -/
  txOut : Level
  /-- R50. -/
  txDone : Bool
  /-- `TXBUF` (R51). -/
  buf : Memory
deriving DecidableEq, Repr

/-- The state: the four groups of R20, the instance's parameters (R8), and the model's own fields for what stands
outside the hardware (R52): the input ports' present values, the stimulus still to come, the channel's two
intensities, and the number of the tick (from which free values are drawn). -/
structure State where
  /-- The instance (R8). No operation writes it. -/
  params : Params
  /-- R22. -/
  now : Nat
  /-- R23. -/
  wait : Nat
  rx : Receiver
  tx : Sender
  /-- The model's own: the input ports in the present tick (R21). -/
  pins : Pins
  /-- The model's own: the stimulus lines not yet read (R102). -/
  script : List Line
  /-- The model's own: LIGHT, the intensity of a HIGH channel (`CHAN`, R102). -/
  chanLight : Nat
  /-- The model's own: DARK, the intensity of a LOW channel (`CHAN`, R102). -/
  chanDark : Nat
  /-- The model's own: numbers the ticks, so that each draws free values of its own. -/
  freeCtr : Nat
deriving DecidableEq, Repr

/-- Faults: none.  The hardware "has no trap" (60_exceptions.md, introduction; R225) and "No condition is treated as
unrecoverable" (R211). -/
inductive Fault where
deriving DecidableEq, Repr

/-- Why a step has no meaning. -/
inductive Refusal where
  /-- An operation that has no meaning yet. Raised by `exec`, for no operation of this model. Safe. -/
  | notModelled (mnemonic : String)
  /-- The instance breaks a constraint of R8 or R9 (U4 "refuse"). Raised by `step`. Safe. -/
  | invalidParameters
  /-- The stimulus holds a code word that is no operation's code. Raised by `step`. Safe. -/
  | undecodable (reason : DecodeError)
deriving DecidableEq, Repr

/-- Every session register at its reset value: "all zero, all lists empty, all timestamps `0`" (R57). -/
def Session.initial : Session where
  transCount := 0
  lastLevel := false
  lastLevelValid := false
  lastTransTime := 0
  win := []
  phaseStart := 0
  pairHalf := false
  firstLv := false
  bitAcc := 0
  bitCnt := 0
  rxCount := 0
  rxOvf := false
  invCount := 0
  invRun := []
  lastValidTime := 0
  lastByteTime := 0

/-- R25 and R26, column `reset`. -/
def Calibration.initial (p : Params) : Calibration where
  calCount := 0
  calMin := 2 ^ p.wS - 1
  calMax := 0
  darkValue := 0
  lightValue := 0
  threshold := 0
  calDone := false

/-- R41, column `reset`. -/
def Results.initial : Results where
  resPass := false
  resTooShort := false
  resCrcOk := false
  resLenOk := false
  resOvf := false
  resType := 0
  resLen := 0
  resCrcRx := 0
  resCrcCalc := 0
  resCount := 0

/-- The receiver after reset (R57), over a buffer the reset does not touch. -/
def Receiver.initial (p : Params) (buf : Memory) : Receiver where
  rxState := .cal
  cal := Calibration.initial p
  ses := Session.initial
  res := Results.initial
  evCode := .none
  buf := buf

/-- The sender after reset (R57), over a buffer the reset does not touch. -/
def Sender.initial (buf : Memory) : Sender where
  txPhase := .idle
  txIdx := 0
  txBit := 7
  txHalf := false
  txTimer := 0
  txEmitLeft := 0
  txLen := 0
  txCrc := 0xFFFF
  txType := 0
  txOvf := false
  txOut := false
  txDone := false
  buf := buf

/-- An instance right after the reset that follows power-up: every register at its value of R57, no byte of a buffer
written yet (R62), no stimulus waiting.  The values of `pins`, `chanLight`, `chanDark` and `freeCtr` are DESIGN
CHOICES, log entry 13. -/
def State.initial (p : Params) : State where
  params := p
  now := 0
  wait := 0
  rx := Receiver.initial p []
  tx := Sender.initial []
  pins := { rst := false, adcIn := 0, txCmd := 0, rxRaddr := 0 }
  script := []
  chanLight := 2 ^ p.wS - 1
  chanDark := 0
  freeCtr := 0

/-- The machine right after reset, for the instance with the vector values of R8 (log entry 2). -/
def State.reset : State := State.initial Params.vector

/-! ## Named updates -/

/-- Write the receiver's group. -/
def State.setRx (s : State) (r : Receiver) : State := { s with rx := r }

/-- Write the sender's group. -/
def State.setTx (s : State) (t : Sender) : State := { s with tx := t }

/-- Write `now`. -/
def State.setNow (s : State) (n : Nat) : State := { s with now := n }

/-- Write `wait`. -/
def State.setWait (s : State) (n : Nat) : State := { s with wait := n }

/-- Present these values on the input ports. -/
def State.setPins (s : State) (p : Pins) : State := { s with pins := p }

/-- Leave these stimulus lines to be read. -/
def State.setScript (s : State) (l : List Line) : State := { s with script := l }

/-- Set LIGHT and DARK. -/
def State.setChan (s : State) (light dark : Nat) : State := { s with chanLight := light, chanDark := dark }

/-- A later tick draws other free values. -/
def State.bumpFree (s : State) : State := { s with freeCtr := s.freeCtr + 1 }

end Sys2Proof.Machine
end

