-- ==== Sys2Proof/Machine/Ops.lean ====
section
/-! DEFINITION. The shared operations: the two buffers (20_memory.md R60 to R66), time (47_scheduler.md R203, R206),
the pattern window (R155), `fresh` (10_state.md R40), raising an event (60_exceptions.md R220) and the reset of the
registers (70_reset_and_hazards.md R250). -/

namespace Sys2Proof.Machine

/-! ## Buffers -/

/-- The byte listed at an offset. An offset that is not listed holds no value (R62). -/
def memLookup : Memory → Nat → Option Byte
  | [], _ => none
  | (k, v) :: rest, a => if k = a then some v else memLookup rest a

/-- List a byte at an offset, keeping the offsets rising. -/
def memInsert : Memory → Nat → Byte → Memory
  | [], a, b => [(a, b)]
  | (k, v) :: rest, a, b =>
    if a < k then (a, b) :: (k, v) :: rest
    else if a = k then (a, b) :: rest
    else (k, v) :: memInsert rest a b

/-- `MemRead(SPACE, a, 1)` for a buffer of `depth` bytes (R63): no value at an offset nothing has written, nor at an
offset outside `0 .. depth-1`. -/
def memRead (depth : Nat) (m : Memory) (a : Nat) : Option Byte := if a < depth then memLookup m a else none

/-- `MemWrite(SPACE, a, 1, v)` for a buffer of `depth` bytes (R63).  No operation issues one with `a` outside
`0 .. depth-1` (R64, R65); such a write would store nothing. -/
def memWrite (depth : Nat) (m : Memory) (a : Nat) (b : Byte) : Memory := if a < depth then memInsert m a b else m

/-- The offsets of a list rise strictly from above `lo`, and stay below `depth`. -/
def memSorted (depth : Nat) : Option Nat → Memory → Bool
  | _, [] => true
  | lo, (k, _) :: rest =>
    (match lo with
      | none => true
      | some l => decide (l < k))
      && decide (k < depth) && memSorted depth (some k) rest

/-- The canonical form of a buffer of `depth` bytes. -/
def Memory.wf (depth : Nat) (m : Memory) : Bool := memSorted depth none m

/-- The bytes `0 .. n-1` of a buffer all hold values (R62). -/
def memFilled (depth : Nat) (m : Memory) (n : Nat) : Bool := (List.range n).all fun a => (memRead depth m a).isSome

/-! ## Lists of levels -/

/-- `lastN(xs, n)` (R11). -/
def lastN (xs : List Level) (n : Nat) : List Level := xs.drop (xs.length - n)

/-- The `n` low bits of a number as levels, the most significant first: a bit string in time order (R10). -/
def bitsMsbFirst : Nat → Nat → List Level
  | 0, _ => []
  | n + 1, v => v.testBit n :: bitsMsbFirst n v

/-- What a pattern search makes of one more level (R155). -/
inductive Search where
  | isMatch
  | window (win : List Level)
deriving DecidableEq, Repr

/-- `search(win, lv, PAT)` (R155). -/
def search (win : List Level) (lv : Level) (pat : Byte) : Search :=
  let w := win ++ [lv]
  if Config.patLen ≤ w.length ∧ lastN w Config.patLen = bitsMsbFirst Config.patLen pat.toNat then .isMatch
  else .window (lastN w Config.winMax)

/-! ## Time -/

/-- `elapsed(t0) = (now - t0) mod 2^W_T` (R206). -/
def elapsed (p : Params) (now t0 : Nat) : Nat := (now + (2 ^ p.wT - t0 % 2 ^ p.wT)) % 2 ^ p.wT

/-- A timer has expired: `elapsed(t0) > TO`, strictly (R206, R228 item 5). -/
def expired (p : Params) (now t0 timeout : Nat) : Bool := decide (timeout < elapsed p now t0)

/-- The period `P(S)` (R203). -/
def period (p : Params) : RxState → Nat
  | .cal => p.tCal
  | .pre => p.tPre
  | .sof => p.tBit
  | .data => p.tHalf
  | .eofs => p.tBit
  | .proc => 1

/-- `now <- (now + 1) mod 2^W_T` (R200). -/
def nextNow (p : Params) (now : Nat) : Nat := (now + 1) % 2 ^ p.wT

/-! ## Session, events, reset -/

/-- `fresh(now)`: the ReceiverSession created at time `now` (R40). -/
def fresh (now : Nat) : Session where
  transCount := 0
  lastLevel := false
  lastLevelValid := false
  lastTransTime := 0
  win := []
  phaseStart := now
  pairHalf := false
  firstLv := false
  bitAcc := 0
  bitCnt := 0
  rxCount := 0
  rxOvf := false
  invCount := 0
  invRun := []
  lastValidTime := now
  lastByteTime := now

/-- Go to PRE with a fresh session: the entry to the initial synchronization state (R40, R210). -/
def restart (now : Nat) (r : Receiver) : Receiver := { r with rxState := .pre, ses := fresh now }

/-- The one effect of a handler run beside its register writes: `evCode` is written with the event it raised, or with
`EV_NONE` (R220, R42).  The hardware's whole exception entry: nothing is vectored, saved or returned from (R229,
R230). -/
def raiseEvent (out : Receiver × Event) : Receiver := { out.1 with evCode := out.2 }

/-- Every register at its reset value, the buffers' bytes unchanged (R250). -/
def resetRegisters (s : State) : State :=
  { s with
    now := 0
    wait := 0
    rx := Receiver.initial s.params s.rx.buf
    tx := Sender.initial s.tx.buf }

end Sys2Proof.Machine
end

