-- ==== Sys2Proof/Machine/Operands.lean ====
section
/-! DEFINITION. What the operations read: the sample on `adc_in` (47_scheduler.md R202) and its level (41_calibrator.md
R124), the fields of `tx_cmd` (30_encoding.md R96), the frame's bytes at the sender (42_encoder.md R136) and at the
receiver (30_encoding.md R88), and the levels of a byte on the wire (R87). -/

namespace Sys2Proof.Machine

/-- The `W_S` bits on `adc_in` (R21). -/
def portSample (p : Params) (adcIn : Nat) : Nat := adcIn % 2 ^ p.wS

/-- The sample a handler reads in the present tick (R202). -/
def State.sample (s : State) : Nat := portSample s.params s.pins.adcIn

/-- `slice(s)`: HIGH if `s > threshold` (R124). -/
def slice (threshold smp : Nat) : Level := decide (threshold < smp)

/-- The level of a sample at a receiver. -/
def Receiver.level (r : Receiver) (smp : Nat) : Level := slice r.cal.threshold smp

/-! ## Command word -/

/-- `op = tx_cmd[25:24]` (R96). -/
def cmdOp (w : BitVec 26) : BitVec 2 := w.extractLsb' 24 2

/-- `tx_cmd[7:0]`, the byte of `TX.PUSH` (R96). -/
def cmdByte (w : BitVec 26) : Byte := w.extractLsb' 0 8

/-- `tx_cmd[23:0]`, the type of `TX.START` (R96). -/
def cmdType (w : BitVec 26) : BitVec 24 := w.extractLsb' 0 24

/-! ## The frame at the sender -/

/-- What the encoder reads at an offset of `TXBUF`; the free value where the offset holds none (R62, log entry 5). -/
def txByte (p : Params) (ctr : Nat) (t : Sender) (a : Nat) : Byte :=
  (memRead p.txDepth t.buf a).getD (Config.freeTxByte ctr a)

/-- `F(k)`, the frame byte of index `k` as the sender reads it (R136). -/
def frameByte (p : Params) (ctr : Nat) (t : Sender) (k : Nat) : Byte :=
  match k with
  | 0 => t.txType.extractLsb' 16 8
  | 1 => t.txType.extractLsb' 8 8
  | 2 => t.txType.extractLsb' 0 8
  | 3 => t.txLen.extractLsb' 24 8
  | 4 => t.txLen.extractLsb' 16 8
  | 5 => t.txLen.extractLsb' 8 8
  | 6 => t.txLen.extractLsb' 0 8
  | 7 => t.txCrc.extractLsb' 8 8
  | 8 => t.txCrc.extractLsb' 0 8
  | i + 9 => txByte p ctr t i

/-- The nine header bytes (R86). -/
def headerBytes (type : BitVec 24) (length : BitVec 32) (crc : BitVec 16) : List Byte :=
  [type.extractLsb' 16 8, type.extractLsb' 8 8, type.extractLsb' 0 8,
   length.extractLsb' 24 8, length.extractLsb' 16 8, length.extractLsb' 8 8, length.extractLsb' 0 8,
   crc.extractLsb' 8 8, crc.extractLsb' 0 8]

/-! ## The frame at the receiver -/

/-- `B[k]` as the validator reads it; the free value where the offset holds none (R62, log entry 5). -/
def rxByte (p : Params) (ctr : Nat) (buf : Memory) (k : Nat) : Byte :=
  (memRead p.rxDepth buf k).getD (Config.freeRxByte ctr k)

/-- `type = {B[0], B[1], B[2]}` (R88). -/
def rxType (p : Params) (ctr : Nat) (buf : Memory) : BitVec 24 :=
  rxByte p ctr buf 0 ++ rxByte p ctr buf 1 ++ rxByte p ctr buf 2

/-- `length = {B[3], B[4], B[5], B[6]}` (R88). -/
def rxLength (p : Params) (ctr : Nat) (buf : Memory) : BitVec 32 :=
  rxByte p ctr buf 3 ++ rxByte p ctr buf 4 ++ rxByte p ctr buf 5 ++ rxByte p ctr buf 6

/-- `crc16 = {B[7], B[8]}` (R88). -/
def rxCrc (p : Params) (ctr : Nat) (buf : Memory) : BitVec 16 := rxByte p ctr buf 7 ++ rxByte p ctr buf 8

/-- `payload = B[9 .. n-1]` (R88). -/
def rxPayload (p : Params) (ctr : Nat) (buf : Memory) (n : Nat) : List Byte :=
  (List.range (n - Config.headerLen)).map fun i => rxByte p ctr buf (i + Config.headerLen)

/-! ## Levels of the wire code -/

/-- The two levels of a symbol for a bit (R81): the bit, then its complement. -/
def symbolLevels (b : Level) : List Level := [b, !b]

/-- The sixteen half-bit levels of a byte, most significant bit first (R87). -/
def byteLevels (b : Byte) : List Level := (bitsMsbFirst 8 b.toNat).flatMap symbolLevels

/-- The levels of a sequence of frame bytes (R87). -/
def bytesLevels (bs : List Byte) : List Level := bs.flatMap byteLevels

/-- Each level of a list with a duration in ticks (R89). -/
def withDuration (d : Nat) (ls : List Level) : List (Level × Nat) := ls.map fun l => (l, d)

end Sys2Proof.Machine
end

