-- ==== Sys2Proof/Machine/Flags.lean ====
section
/-! DEFINITION. The checksum and the flags: CRC16 (40_crc16.md R111, R113), the validator's pass flags (46_validator.md
R190 to R194), the calibration's degenerate flag (41_calibrator.md R123), and every output port as a function of the
state (10_state.md R21, R54). -/

namespace Sys2Proof.Machine

/-! ## CRC16 -/

/-- One shift of the CRC register (R111): to the right, with the polynomial where the bit shifted out was 1. -/
def crcShift (c : BitVec 16) : BitVec 16 :=
  if c.getLsbD 0 then (c >>> 1) ^^^ Config.crcPoly else c >>> 1

/-- `n` shifts. -/
def crcShifts : Nat → BitVec 16 → BitVec 16
  | 0, c => c
  | n + 1, c => crcShifts n (crcShift c)

/-- `crc16_update(c, b)` (R111). -/
def crcUpdate (c : BitVec 16) (b : Byte) : BitVec 16 := crcShifts 8 (c ^^^ b.setWidth 16)

/-- `CRC16(b0, ..., bn-1)` (R113). -/
def crc16 (bs : List Byte) : BitVec 16 := bs.foldl crcUpdate Config.crcInit

/-! ## The validator's flags -/

/-- The result registers that `VAL.STEP` writes (R190), from the session's count and overflow flag and the buffer. -/
def validation (p : Params) (ctr : Nat) (ses : Session) (buf : Memory) : Results :=
  let n := ses.rxCount
  if n < Config.headerLen then
    { resPass := false
      resTooShort := true
      resCrcOk := false
      resLenOk := false
      resOvf := ses.rxOvf
      resType := 0
      resLen := 0
      resCrcRx := 0
      resCrcCalc := 0
      resCount := n }
  else
    let crcCalc := crc16 (rxPayload p ctr buf n)
    let crcOk := decide (crcCalc = rxCrc p ctr buf)
    let lenOk := decide (n - Config.headerLen = (rxLength p ctr buf).toNat)
    { resPass := crcOk && lenOk && !ses.rxOvf
      resTooShort := false
      resCrcOk := crcOk
      resLenOk := lenOk
      resOvf := ses.rxOvf
      resType := rxType p ctr buf
      resLen := rxLength p ctr buf
      resCrcRx := rxCrc p ctr buf
      resCrcCalc := crcCalc
      resCount := n }

/-- The event that reports a validation (R190, R191, R194). -/
def validationEvent (r : Results) : Event :=
  if r.resTooShort then .underrun else if r.resPass then .frameOk else .integrity

/-! ## Output ports -/

/-- The output ports of R21. -/
structure Outputs where
  txOut : Level
  txBusy : Bool
  txDone : Bool
  txOvf : Bool
  rxState : BitVec 3
  evCode : BitVec 4
  calDone : Bool
  darkValue : Nat
  lightValue : Nat
  threshold : Nat
  res : Results
  rxRdata : Byte
deriving DecidableEq, Repr

/-- `tx_busy` is 1 iff `txPhase != IDLE` (R21, R54). -/
def Sender.busy (t : Sender) : Bool := decide (t.txPhase ≠ .idle)

/-- The bits of `rx_raddr` that the port has (R21). -/
def portRaddr (p : Params) (a : Nat) : Nat := a % 2 ^ countWidth p.rxDepth

/-- `rx_rdata`, combinational (R66): the byte of `RXBUF` at `rx_raddr` as it stands at the start of the tick; where
the offset holds no byte or is outside the buffer, a free value, possibly another at each tick (U3). -/
def rxRdata (s : State) (rxRaddr : Nat) : Byte :=
  rxByte s.params s.freeCtr s.rx.buf (portRaddr s.params rxRaddr)

/-- What the output ports show in a tick whose inputs are `pins`, from the state before that tick (R200). -/
def outputs (s : State) (pins : Pins) : Outputs where
  txOut := s.tx.txOut
  txBusy := s.tx.busy
  txDone := s.tx.txDone
  txOvf := s.tx.txOvf
  rxState := s.rx.rxState.code
  evCode := s.rx.evCode.code
  calDone := s.rx.cal.calDone
  darkValue := s.rx.cal.darkValue
  lightValue := s.rx.cal.lightValue
  threshold := s.rx.cal.threshold
  res := s.rx.res
  rxRdata := rxRdata s pins.rxRaddr

end Sys2Proof.Machine
end

