-- ==== Sys2Proof/Machine/Crc.lean ====
section
/-! DEFINITION. Unit CRC: the operations `CRC.INIT`, `CRC.BYTE`, `CRC.HOLD` (40_crc16.md R110 to R112), each on the
register `crc` of the CORE's one unit, which is `txCrc`. -/

namespace Sys2Proof.Machine

/-- Write the unit's register `crc`. -/
def State.setCrc (s : State) (c : BitVec 16) : State := s.setTx { s.tx with txCrc := c }

/-- `CRC.INIT` (R110): `crc <- 0xFFFF`, whatever `en` and `din`. -/
def execCrcInit (_en : BitVec 1) (_din : Byte) (s : State) : Host.Outcome State Fault Refusal :=
  .next (s.setCrc Config.crcInit)

/-- `CRC.BYTE din` (R111). -/
def execCrcByte (din : Byte) (s : State) : Host.Outcome State Fault Refusal :=
  .next (s.setCrc (crcUpdate s.tx.txCrc din))

/-- `CRC.HOLD` (R112): `crc` keeps its value. -/
def execCrcHold (_din : Byte) (s : State) : Host.Outcome State Fault Refusal :=
  .next (s.setCrc s.tx.txCrc)

end Sys2Proof.Machine
end

