-- ==== Sys2Proof/Machine/Calibrator.lean ====
section
/-! DEFINITION. Unit CAL: `CAL.STEP` (41_calibrator.md R120 to R126). -/

namespace Sys2Proof.Machine

/-- The threshold: `(min + max) div 2` (R122). -/
def midpoint (lo hi : Nat) : Nat := (lo + hi) / 2

/-- `CAL.STEP` as a function of the receiver, one sample and the time (R121). -/
def calHandler (p : Params) (now smp : Nat) (r : Receiver) : Receiver × Event :=
  let newMin := min r.cal.calMin smp
  let newMax := max r.cal.calMax smp
  let cal := { r.cal with calMin := newMin, calMax := newMax, calCount := r.cal.calCount + 1 }
  if r.cal.calCount + 1 = p.nCal then
    (restart now
      { r with
        cal :=
          { cal with
            darkValue := newMin
            lightValue := newMax
            threshold := midpoint newMin newMax
            calDone := true } },
     if newMin = newMax then .calDegenerate else .calDone)
  else ({ r with cal := cal }, .none)

/-- `CAL.STEP` (R121), with the event it raises on the event port. -/
def execCalStep (s : State) : Host.Outcome State Fault Refusal :=
  .next (s.setRx (raiseEvent (calHandler s.params s.now s.sample s.rx)))

end Sys2Proof.Machine
end

