-- ==== Sys2Proof/Machine/Decoder.lean ====
section
/-! DEFINITION. Unit DEC: `DEC.STEP` and its branches (44_manchester_decoder.md R160 to R169). -/

namespace Sys2Proof.Machine

/-- `enterEOFS(now)` with the run of invalid levels `run` (R167).  The window keeps at most 16 of them, as the register
does (R33; DEDUCED, log entry 12). -/
def enterEofs (p : Params) (now : Nat) (run : List Level) (r : Receiver) : Receiver :=
  { r with
    rxState := .eofs
    ses :=
      { r.ses with
        win := if p.efdSeed then lastN run Config.winMax else []
        invCount := 0
        invRun := []
        phaseStart := now } }

/-- `acc = ((bitAcc << 1) | b) mod 256` (R164). -/
def shiftIn (acc : Byte) (b : Level) : Byte := (acc <<< 1) ||| (BitVec.ofBool b).setWidth 8

/-- Completion of the byte `b` (R166). -/
def completeByte (p : Params) (now : Nat) (b : Byte) (r : Receiver) : Receiver × Event :=
  let ses := { r.ses with bitAcc := 0, bitCnt := 0, lastByteTime := now }
  if r.ses.rxCount < p.rxDepth then
    ({ r with buf := memWrite p.rxDepth r.buf r.ses.rxCount b, ses := { ses with rxCount := r.ses.rxCount + 1 } }, .none)
  else ({ r with ses := { ses with rxOvf := true } }, .rxOverflow)

/-- A valid symbol, whose bit is its first level `b` (R164). -/
def validSymbol (p : Params) (now : Nat) (b : Level) (r : Receiver) : Receiver × Event :=
  let ses := { r.ses with pairHalf := false, invCount := 0, invRun := [], lastValidTime := now }
  let acc := shiftIn r.ses.bitAcc b
  if r.ses.bitCnt + 1 = 8 then completeByte p now acc { r with ses := ses }
  else ({ r with ses := { ses with bitAcc := acc, bitCnt := r.ses.bitCnt + 1 } }, .none)

/-- An invalid symbol, both of whose levels are `lv` (R165). -/
def invalidSymbol (p : Params) (now : Nat) (lv : Level) (r : Receiver) : Receiver × Event :=
  let run := r.ses.invRun ++ [lv]
  let ses := { r.ses with pairHalf := false }
  if p.invalidLimit ≤ r.ses.invCount + 1 then (enterEofs p now run { r with ses := ses }, .invalidLimit)
  else ({ r with ses := { ses with invCount := r.ses.invCount + 1, invRun := run } }, .none)

/-- `DEC.STEP` as a function of the receiver, one sample and the time: its four branches in order (R160 to R165). -/
def decHandler (p : Params) (now smp : Nat) (r : Receiver) : Receiver × Event :=
  if expired p now r.ses.lastByteTime p.toGlobal then (restart now r, .dataGlobal)
  else if expired p now r.ses.lastValidTime p.toInact then (enterEofs p now r.ses.invRun r, .dataInactivity)
  else
    let lv := r.level smp
    if r.ses.pairHalf = false then ({ r with ses := { r.ses with firstLv := lv, pairHalf := true } }, .none)
    else if r.ses.firstLv ≠ lv then validSymbol p now r.ses.firstLv r
    else invalidSymbol p now lv r

/-- `DEC.STEP` (R160), with the event it raises on the event port. -/
def execDecStep (s : State) : Host.Outcome State Fault Refusal :=
  .next (s.setRx (raiseEvent (decHandler s.params s.now s.sample s.rx)))

end Sys2Proof.Machine
end

