-- ==== Sys2Proof/Machine/EndFrame.lean ====
section
/-! DEFINITION. Unit EFD: `EOF.STEP` (45_end_frame_detector.md R180 to R184). -/

namespace Sys2Proof.Machine

/-- The fallback to data reception: the hardware's nearest thing to a return (R183, R230). -/
def fallBack (now : Nat) (r : Receiver) : Receiver :=
  { r with
    rxState := .data
    ses :=
      { r.ses with
        win := []
        pairHalf := false
        firstLv := false
        invCount := 0
        invRun := []
        lastValidTime := now } }

/-- `EOF.STEP` as a function of the receiver, one sample and the time (R180, R182). -/
def eofHandler (p : Params) (now smp : Nat) (r : Receiver) : Receiver × Event :=
  if expired p now r.ses.phaseStart p.toEof then (fallBack now r, .eofTimeout)
  else
    match search r.ses.win (r.level smp) Config.patEof with
    | .isMatch => ({ r with rxState := .proc, ses := { r.ses with win := [] } }, .eofMatch)
    | .window w => ({ r with ses := { r.ses with win := w } }, .none)

/-- `EOF.STEP` (R180), with the event it raises on the event port. -/
def execEofStep (s : State) : Host.Outcome State Fault Refusal :=
  .next (s.setRx (raiseEvent (eofHandler s.params s.now s.sample s.rx)))

end Sys2Proof.Machine
end

