-- ==== Sys2Proof/Machine/Sender.lean ====
section
/-! DEFINITION. Unit ENC: the host commands (42_encoder.md R130 to R134), positions, levels and durations (R137 to
R139), and the six arms of `TX.TICK` (R135, R140). -/

namespace Sys2Proof.Machine

/-! ## Host commands -/

/-- A command acts only while the sender is idle (R134). -/
def ifIdle (t cmd : Sender) : Sender := if t.txPhase = .idle then cmd else t

/-- The effect of `TX.CLEAR` on an idle sender (R131): the CRC unit sees `CRC.INIT` (R97). -/
def clearFrame (t : Sender) : Sender := { t with txLen := 0, txCrc := Config.crcInit, txOvf := false }

/-- The effect of `TX.PUSH b` on an idle sender (R132): where there is room, the CRC unit sees `CRC.BYTE b` (R97). -/
def pushByte (p : Params) (b : Byte) (t : Sender) : Sender :=
  if t.txLen.toNat < p.txDepth then
    { t with
      buf := memWrite p.txDepth t.buf t.txLen.toNat b
      txLen := t.txLen + 1
      txCrc := crcUpdate t.txCrc b }
  else { t with txOvf := true }

/-- The effect of `TX.START ty` on an idle sender (R133). -/
def startEmission (p : Params) (ty : BitVec 24) (t : Sender) : Sender :=
  { t with
    txType := ty
    txEmitLeft := p.nEmit - 1
    txPhase := .preamble
    txIdx := 0
    txBit := 7
    txHalf := false
    txOut := true
    txTimer := p.tBit - 1 }

/-- The command word's effect (R96, R130 to R134). -/
def hostCommand (p : Params) (w : BitVec 26) (t : Sender) : Sender :=
  ifIdle t
    (if cmdOp w = 0 then t
     else if cmdOp w = 1 then clearFrame t
     else if cmdOp w = 2 then pushByte p (cmdByte w) t
     else startEmission p (cmdType w) t)

/-! ## Positions -/

/-- A position of the sender (R138). -/
structure TxPos where
  phase : TxPhase
  idx : Nat
  bit : Nat
  half : Bool
deriving DecidableEq, Repr

/-- A position outside DATA: `txBit` is 7 and `txHalf` is 0 (R139). -/
def rawPos (ph : TxPhase) (i : Nat) : TxPos := { phase := ph, idx := i, bit := 7, half := false }

/-- The level of a position (R138). -/
def posLevel (p : Params) (ctr : Nat) (t : Sender) (pos : TxPos) : Level :=
  match pos.phase with
  | .idle => false
  | .preamble => Config.preambleBits.getLsbD (15 - pos.idx)
  | .sof => Config.patSof.getLsbD (7 - pos.idx)
  | .data => xor ((frameByte p ctr t pos.idx).getLsbD pos.bit) pos.half
  | .eof => Config.patEof.getLsbD (7 - pos.idx)
  | .gap => false

/-- The duration of a position in ticks (R137, R138). -/
def posDuration (p : Params) (pos : TxPos) : Nat :=
  match pos.phase with
  | .idle => 1
  | .preamble => p.tBit
  | .sof => p.tBit
  | .data => p.tHalf
  | .eof => p.tBit
  | .gap => p.tIdle

/-- What `txIdx` holds during a gap: a free value within its range (R46; log entry 6). -/
def gapIdx (p : Params) (ctr : Nat) : Nat := Config.freeGapIdx ctr % (Config.headerLen + p.txDepth)

/-- `next(pos)` (R139). -/
def nextPos (p : Params) (ctr : Nat) (t : Sender) (pos : TxPos) : TxPos :=
  match pos.phase with
  | .idle => rawPos .idle 0
  | .preamble => if pos.idx < 15 then rawPos .preamble (pos.idx + 1) else rawPos .sof 0
  | .sof => if pos.idx < 7 then rawPos .sof (pos.idx + 1) else rawPos .data 0
  | .data =>
    if pos.half = false then { pos with half := true }
    else if 0 < pos.bit then { pos with bit := pos.bit - 1, half := false }
    else if pos.idx < 8 + t.txLen.toNat then rawPos .data (pos.idx + 1)
    else rawPos .eof 0
  | .eof =>
    if pos.idx < 7 then rawPos .eof (pos.idx + 1)
    else if 0 < t.txEmitLeft then rawPos .gap (gapIdx p ctr)
    else rawPos .idle 0
  | .gap => rawPos .preamble 0

/-- Move to a position: its level is driven, and held for its duration; IDLE ends the last emission (R140). -/
def moveTo (p : Params) (ctr : Nat) (t : Sender) (pos : TxPos) : Sender :=
  if pos.phase = .idle then
    { t with txPhase := .idle, txIdx := 0, txBit := 7, txHalf := false, txOut := false, txDone := true }
  else
    { t with
      txPhase := pos.phase
      txIdx := pos.idx
      txBit := pos.bit
      txHalf := pos.half
      txOut := posLevel p ctr t pos
      txTimer := posDuration p pos - 1
      txDone := false }

/-- The common form of the five arms (R140): hold the present level, or move on from phase `ph`. -/
def emitTick (p : Params) (ctr : Nat) (ph : TxPhase) (t : Sender) : Sender :=
  if 0 < t.txTimer then { t with txDone := false, txTimer := t.txTimer - 1 }
  else moveTo p ctr t (nextPos p ctr t { phase := ph, idx := t.txIdx, bit := t.txBit, half := t.txHalf })

/-- `TX.IDLE` (R135). -/
def idleTick (p : Params) (cmd : BitVec 26) (t : Sender) : Sender :=
  hostCommand p cmd { t with txOut := false, txDone := false }

/-- `TX.GAP` (R139, R140): leaving the gap uses up one of the emissions left. -/
def gapTick (p : Params) (ctr : Nat) (t : Sender) : Sender :=
  if 0 < t.txTimer then emitTick p ctr .gap t
  else emitTick p ctr .gap { t with txEmitLeft := t.txEmitLeft - 1 }

/-- `TX.TICK` (R140, R135): the arm that `txPhase` selects. -/
def txTick (p : Params) (ctr : Nat) (cmd : BitVec 26) (t : Sender) : Sender :=
  match t.txPhase with
  | .idle => idleTick p cmd t
  | .preamble => emitTick p ctr .preamble t
  | .sof => emitTick p ctr .sof t
  | .data => emitTick p ctr .data t
  | .eof => emitTick p ctr .eof t
  | .gap => gapTick p ctr t

/-! ## Meanings -/

/-- `TX.NOP` (R130): nothing. -/
def execTxNop (_arg : BitVec 24) (s : State) : Host.Outcome State Fault Refusal :=
  .next (s.setTx (ifIdle s.tx s.tx))

/-- `TX.CLEAR` (R131, R134). -/
def execTxClear (_arg : BitVec 24) (s : State) : Host.Outcome State Fault Refusal :=
  .next (s.setTx (ifIdle s.tx (clearFrame s.tx)))

/-- `TX.PUSH` (R132, R134). -/
def execTxPush (_hi : BitVec 16) (byte : Byte) (s : State) : Host.Outcome State Fault Refusal :=
  .next (s.setTx (ifIdle s.tx (pushByte s.params byte s.tx)))

/-- `TX.START` (R133, R134). -/
def execTxStart (type : BitVec 24) (s : State) : Host.Outcome State Fault Refusal :=
  .next (s.setTx (ifIdle s.tx (startEmission s.params type s.tx)))

/-- `TX.IDLE` (R135), with the command word of the present tick. -/
def execTxIdle (s : State) : Host.Outcome State Fault Refusal :=
  .next (s.setTx (idleTick s.params s.pins.txCmd s.tx))

/-- `TX.PREAMBLE` (R140). -/
def execTxPreamble (s : State) : Host.Outcome State Fault Refusal :=
  .next (s.setTx (emitTick s.params s.freeCtr .preamble s.tx))

/-- `TX.SOF` (R140). -/
def execTxSof (s : State) : Host.Outcome State Fault Refusal :=
  .next (s.setTx (emitTick s.params s.freeCtr .sof s.tx))

/-- `TX.DATA` (R140). -/
def execTxData (s : State) : Host.Outcome State Fault Refusal :=
  .next (s.setTx (emitTick s.params s.freeCtr .data s.tx))

/-- `TX.EOF` (R140). -/
def execTxEof (s : State) : Host.Outcome State Fault Refusal :=
  .next (s.setTx (emitTick s.params s.freeCtr .eof s.tx))

/-- `TX.GAP` (R140). -/
def execTxGap (s : State) : Host.Outcome State Fault Refusal :=
  .next (s.setTx (gapTick s.params s.freeCtr s.tx))

end Sys2Proof.Machine
end

