-- ==== Sys2Proof/Machine/Sync.lean ====
section
/-! DEFINITION. Unit SYNC: `PRE.STEP` and `SOF.STEP` (43_sync_detector.md R150 to R156). -/

namespace Sys2Proof.Machine

/-- `PRE.STEP` as a function of the receiver, one sample and the time (R150). -/
def preHandler (p : Params) (now smp : Nat) (r : Receiver) : Receiver × Event :=
  if expired p now r.ses.phaseStart p.toPre then
    ({ r with ses := { r.ses with transCount := 0, phaseStart := now } }, .preTimeout)
  else
    let lv := r.level smp
    if r.ses.lastLevelValid = false then
      ({ r with ses := { r.ses with lastLevel := lv, lastLevelValid := true } }, .none)
    else if lv ≠ r.ses.lastLevel then
      if Config.preTrans ≤ r.ses.transCount + 1 then
        ({ r with
            rxState := .sof
            ses :=
              { r.ses with
                lastLevel := lv
                lastTransTime := now
                transCount := 0
                win := []
                phaseStart := now } }, .preLock)
      else
        ({ r with
            ses :=
              { r.ses with
                lastLevel := lv
                lastTransTime := now
                transCount := r.ses.transCount + 1 } }, .none)
    else (r, .none)

/-- "clears all buffers and transitions to data reception": the start-frame match (R154). -/
def startFrame (now : Nat) (r : Receiver) : Receiver :=
  { r with
    rxState := .data
    ses :=
      { r.ses with
        win := []
        bitAcc := 0
        bitCnt := 0
        rxCount := 0
        rxOvf := false
        pairHalf := false
        firstLv := false
        invCount := 0
        invRun := []
        lastValidTime := now
        lastByteTime := now } }

/-- `SOF.STEP` as a function of the receiver, one sample and the time (R154). -/
def sofHandler (p : Params) (now smp : Nat) (r : Receiver) : Receiver × Event :=
  if expired p now r.ses.phaseStart p.toSof then
    ({ r with ses := { r.ses with win := [], phaseStart := now } }, .sofTimeout)
  else
    match search r.ses.win (r.level smp) Config.patSof with
    | .isMatch => (startFrame now r, .sofMatch)
    | .window w => ({ r with ses := { r.ses with win := w } }, .none)

/-- `PRE.STEP` (R150), with the event it raises on the event port. -/
def execPreStep (s : State) : Host.Outcome State Fault Refusal :=
  .next (s.setRx (raiseEvent (preHandler s.params s.now s.sample s.rx)))

/-- `SOF.STEP` (R154), with the event it raises on the event port. -/
def execSofStep (s : State) : Host.Outcome State Fault Refusal :=
  .next (s.setRx (raiseEvent (sofHandler s.params s.now s.sample s.rx)))

end Sys2Proof.Machine
end

