-- ==== Sys2Proof/Machine/Validator.lean ====
section
/-! DEFINITION. Unit VAL: `VAL.STEP` (46_validator.md R190 to R196). -/

namespace Sys2Proof.Machine

/-- `VAL.STEP` as a function of the receiver and the time (R190): it reads no sample. -/
def valHandler (p : Params) (ctr now : Nat) (r : Receiver) : Receiver × Event :=
  let res := validation p ctr r.ses r.buf
  (restart now { r with res := res }, validationEvent res)

/-- `VAL.STEP` (R190), with the event it raises on the event port. -/
def execValStep (s : State) : Host.Outcome State Fault Refusal :=
  .next (s.setRx (raiseEvent (valHandler s.params s.freeCtr s.now s.rx)))

end Sys2Proof.Machine
end

