-- ==== Sys2Proof/Machine/Scheduler.lean ====
section
/-! DEFINITION. The tick (47_scheduler.md R200 to R207): `RX.TICK`, `RESET` (70_reset_and_hazards.md R250), and the
whole hardware's next state at one tick and over a run of ticks. -/

namespace Sys2Proof.Machine

/-- The handler of the present state (R24, R201). -/
def handle (p : Params) (ctr now smp : Nat) (r : Receiver) : Receiver × Event :=
  match r.rxState with
  | .cal => calHandler p now smp r
  | .pre => preHandler p now smp r
  | .sof => sofHandler p now smp r
  | .data => decHandler p now smp r
  | .eofs => eofHandler p now smp r
  | .proc => valHandler p ctr now r

/-- One invocation of the receiver (R201, R207). -/
def State.invoke (s : State) : State :=
  s.setRx (raiseEvent (handle s.params s.freeCtr s.now s.sample s.rx))

/-- `RX.TICK` on the state (R201): an invocation and the old state's period, or one tick less to wait. -/
def rxTick (s : State) : State :=
  if s.wait = 0 then s.invoke.setWait (period s.params s.rx.rxState - 1)
  else (s.setRx { s.rx with evCode := .none }).setWait (s.wait - 1)

/-- The next state at a tick whose inputs are on the ports (R200): `RESET`, or the three independent parts. -/
def tick (s : State) : State :=
  if s.pins.rst then (resetRegisters s).bumpFree
  else
    (((rxTick s).setTx (txTick s.params s.freeCtr s.pins.txCmd s.tx)).setNow (nextNow s.params s.now)).bumpFree

/-- One tick with these inputs. -/
def tickWith (pins : Pins) (s : State) : State := tick (s.setPins pins)

/-- The intensity of a level on the channel (`CHAN`, R102). -/
def State.intensity (s : State) (lv : Level) : Nat := if lv then s.chanLight else s.chanDark

/-- The inputs of a tick in which the channel has this level; `rst` is 0, `tx_cmd` is `TX.NOP`, `rx_raddr` keeps its
value (R102). -/
def channelPins (lv : Level) (s : State) : Pins :=
  { rst := false, adcIn := s.intensity lv, txCmd := 0, rxRaddr := s.pins.rxRaddr }

/-- The channel holds one level for `d` ticks (R102, `LEVELS`). -/
def holdLevel (lv : Level) : Nat → State → State
  | 0, s => s
  | d + 1, s => holdLevel lv d (tickWith (channelPins lv s) s)

/-- The channel carries these levels in turn, `d` ticks each (R102, `LEVELS`). -/
def driveLevels (d : Nat) : List Level → State → State
  | [], s => s
  | lv :: ls, s => driveLevels d ls (holdLevel lv d s)

/-- `RX.TICK` (R201). -/
def execRxTick (s : State) : Host.Outcome State Fault Refusal := .next (rxTick s)

/-- `RESET` (R250). -/
def execReset (s : State) : Host.Outcome State Fault Refusal := .next (resetRegisters s)

end Sys2Proof.Machine
end

