-- ==== Sys2Proof/Machine/Wire.lean ====
section
/-! DEFINITION. The wire codes (30_encoding.md R81 to R86) as operations: the code passes on the channel, level by level,
each for its duration (R80, R82, R85), while the whole hardware runs, as the `LEVELS` and `WAVE` lines of R102 and R103
spell it.  Log entry 9. -/

namespace Sys2Proof.Machine

/-- `SYM.1`: HIGH then LOW, `T_HALF` ticks each (R81). -/
def execSym1 (s : State) : Host.Outcome State Fault Refusal :=
  .next (driveLevels s.params.tHalf (symbolLevels true) s)

/-- `SYM.0`: LOW then HIGH, `T_HALF` ticks each (R81). -/
def execSym0 (s : State) : Host.Outcome State Fault Refusal :=
  .next (driveLevels s.params.tHalf (symbolLevels false) s)

/-- `SYM.INV0`: LOW twice, `T_HALF` ticks each; never sent, but the channel can show it (R81, R165). -/
def execSymInv0 (s : State) : Host.Outcome State Fault Refusal :=
  .next (driveLevels s.params.tHalf [false, false] s)

/-- `SYM.INV1`: HIGH twice, `T_HALF` ticks each; never sent, but the channel can show it (R81, R165). -/
def execSymInv1 (s : State) : Host.Outcome State Fault Refusal :=
  .next (driveLevels s.params.tHalf [true, true] s)

/-- `DELIM.SOF`: the eight raw bits of `PAT_SOF`, `T_BIT` ticks each (R82, R84). -/
def execDelimSof (s : State) : Host.Outcome State Fault Refusal :=
  .next (driveLevels s.params.tBit (bitsMsbFirst Config.patLen Config.patSof.toNat) s)

/-- `DELIM.EOF`: the eight raw bits of `PAT_EOF`, `T_BIT` ticks each (R82, R84). -/
def execDelimEof (s : State) : Host.Outcome State Fault Refusal :=
  .next (driveLevels s.params.tBit (bitsMsbFirst Config.patLen Config.patEof.toNat) s)

/-- `PREAMBLE`: sixteen alternating raw bits, HIGH first, `T_BIT` ticks each (R82, R83). -/
def execPreamble (s : State) : Host.Outcome State Fault Refusal :=
  .next (driveLevels s.params.tBit (bitsMsbFirst Config.preLevels Config.preambleBits.toNat) s)

/-- `FRAME`: the nine header bytes, every bit a symbol, most significant bit first (R86, R87). -/
def execFrame (type : BitVec 24) (length : BitVec 32) (crc : BitVec 16) (s : State) :
    Host.Outcome State Fault Refusal :=
  .next (driveLevels s.params.tHalf (bytesLevels (headerBytes type length crc)) s)

/-! ## A whole emission -/

/-- `frameBytes(type, P)` (R136). -/
def frameBytes (type : BitVec 24) (payload : List Byte) : List Byte :=
  headerBytes type (BitVec.ofNat 32 payload.length) (crc16 payload) ++ payload

/-- `frameLevels(type, P)` as (level, ticks) pairs (R89). -/
def frameLevels (p : Params) (type : BitVec 24) (payload : List Byte) : List (Level × Nat) :=
  withDuration p.tBit (bitsMsbFirst Config.preLevels Config.preambleBits.toNat)
    ++ withDuration p.tBit (bitsMsbFirst Config.patLen Config.patSof.toNat)
    ++ withDuration p.tHalf (bytesLevels (frameBytes type payload))
    ++ withDuration p.tBit (bitsMsbFirst Config.patLen Config.patEof.toNat)

/-- Each level spread over its ticks (R141). -/
def spread (ls : List (Level × Nat)) : List Level := ls.flatMap fun x => List.replicate x.2 x.1

end Sys2Proof.Machine
end

