-- ==== Sys2Proof/Machine/Dispatch.lean ====
section
/-! DEFINITION. One arm per operation. -/

namespace Sys2Proof.Machine

def exec (i : Instr) (s : State) : Host.Outcome State Fault Refusal :=
  match i with
  | .sym1 => Sys2Proof.Machine.execSym1 s
  | .sym0 => Sys2Proof.Machine.execSym0 s
  | .symInv0 => Sys2Proof.Machine.execSymInv0 s
  | .symInv1 => Sys2Proof.Machine.execSymInv1 s
  | .delimSof => Sys2Proof.Machine.execDelimSof s
  | .delimEof => Sys2Proof.Machine.execDelimEof s
  | .preamble => Sys2Proof.Machine.execPreamble s
  | .frame type length crc => Sys2Proof.Machine.execFrame type length crc s
  | .txNop arg => Sys2Proof.Machine.execTxNop arg s
  | .txClear arg => Sys2Proof.Machine.execTxClear arg s
  | .txPush hi byte => Sys2Proof.Machine.execTxPush hi byte s
  | .txStart type => Sys2Proof.Machine.execTxStart type s
  | .crcInit en din => Sys2Proof.Machine.execCrcInit en din s
  | .crcByte din => Sys2Proof.Machine.execCrcByte din s
  | .crcHold din => Sys2Proof.Machine.execCrcHold din s
  | .calStep => Sys2Proof.Machine.execCalStep s
  | .preStep => Sys2Proof.Machine.execPreStep s
  | .sofStep => Sys2Proof.Machine.execSofStep s
  | .decStep => Sys2Proof.Machine.execDecStep s
  | .eofStep => Sys2Proof.Machine.execEofStep s
  | .valStep => Sys2Proof.Machine.execValStep s
  | .txIdle => Sys2Proof.Machine.execTxIdle s
  | .txPreamble => Sys2Proof.Machine.execTxPreamble s
  | .txSof => Sys2Proof.Machine.execTxSof s
  | .txData => Sys2Proof.Machine.execTxData s
  | .txEof => Sys2Proof.Machine.execTxEof s
  | .txGap => Sys2Proof.Machine.execTxGap s
  | .rxTick => Sys2Proof.Machine.execRxTick s
  | .reset => Sys2Proof.Machine.execReset s

end Sys2Proof.Machine
end

