-- ==== Sys2Proof/Machine/Script.lean ====
section
/-! DEFINITION. How a stimulus line (30_encoding.md R102) is run: where a step finds the operations it runs. -/

namespace Sys2Proof.Machine

/-- The inputs of a tick that the stimulus does not name: unconstrained (R52, U5, U7; log entry 4). -/
def freePins (ctr : Nat) : Pins where
  rst := Config.freeRst ctr
  adcIn := Config.freeAdc ctr
  txCmd := Config.freeCmd ctr
  rxRaddr := Config.freeRaddr ctr

/-- The inputs of a `LOOPBACK` tick: `adc_in` follows `tx_out` as it stands at the start of the tick (R102). -/
def loopbackPins (cmd : BitVec 26) (s : State) : Pins :=
  { channelPins s.tx.txOut s with txCmd := cmd }

/-- One operation taken alone: the operation its code word names. -/
def runCode (w : CodeWord) (s : State) : Host.Outcome State Fault Refusal :=
  match decode w with
  | .ok i => exec i s
  | .error e => .refused (.undecodable e)

/-- One handler run at the handler level, with this sample and time (R7, R207). -/
def invokeAt (smp now : Nat) (s : State) : State :=
  (((s.setPins { s.pins with adcIn := smp }).setNow (now % 2 ^ s.params.wT)).invoke).bumpFree

/-- Run one stimulus line (R102), already taken off the script. -/
def runLine (line : Line) (s : State) : Host.Outcome State Fault Refusal :=
  match line with
  | .tick pins => .next (tickWith pins s)
  | .loopback cmd => .next (tickWith (loopbackPins cmd s) s)
  | .levels bits d => .next (driveLevels d bits s)
  | .chan light dark => .next (s.setChan light dark)
  | .invoke smp now => .next (invokeAt smp now s)
  | .code w => runCode w s

/-- One step of an instance that meets its constraints: the next stimulus line, or a tick with unconstrained inputs
when none is left. -/
def runScript (s : State) : Host.Outcome State Fault Refusal :=
  match s.script with
  | [] => .next (tickWith (freePins s.freeCtr) s)
  | line :: rest => runLine line (s.setScript rest)

/-- Inputs of a tick that does nothing but run the operations the state selects. -/
def quietPins (s : State) : Pins := { s.pins with rst := false, txCmd := 0 }

/-- Select a code word's operation for the very next step: a command word and `rst` on their ports, `rxState` with an
invocation due, `txPhase`; a CRC command or a wire code as a stimulus line of its own (R101, R102). -/
def selectCode (w : CodeWord) (s : State) : State :=
  let line (pins : Pins) := Line.tick pins :: s.script
  match w.fmt with
  | .txcmd =>
    if w.wf then s.setScript (line { quietPins s with txCmd := BitVec.ofNat 26 w.bits })
    else s.setScript (.code w :: s.script)
  | .rst =>
    if w.wf then s.setScript (line { quietPins s with rst := decide (w.bits = 1) })
    else s.setScript (.code w :: s.script)
  | .rxstate =>
    match RxState.ofCode w.bits with
    | some st => ((s.setRx { s.rx with rxState := st }).setWait 0).setScript (line (quietPins s))
    | none => s.setScript (.code w :: s.script)
  | .txphase =>
    match TxPhase.ofCode w.bits with
    | some ph => (s.setTx { s.tx with txPhase := ph }).setScript (line (quietPins s))
    | none => s.setScript (.code w :: s.script)
  | _ => s.setScript (.code w :: s.script)

end Sys2Proof.Machine
end

