-- ==== Sys2Proof/Machine/Step.lean ====
section
/-! DEFINITION. One step of the machine, and where it finds its next operation. -/

namespace Sys2Proof.Machine

/-- One step: the next stimulus line, for an instance that meets the constraints of R8 and R9 (U4). -/
def step (s : State) : Host.Outcome State Fault Refusal :=
  if s.params.wf then runScript s else .refused .invalidParameters

/-- The state whose very next step runs the operation of a table word. -/
def State.withFetchWord (s : State) (nbits w : Nat) : State := selectCode (tableCode nbits w) s

end Sys2Proof.Machine
end

