-- ==== Sys2Proof/Safety.lean ====
section
/-! DEFINITION. The terms the statements use: what holds of the registers in every state that ticks can reach (10_state.md
R22 to R50, 20_memory.md R62), the stimuli that drive the whole hardware, and runs at the handler level (47_scheduler.md
R207) and at the tick level. -/

namespace Sys2Proof

/-! ## Stimuli -/

/-- The formats whose codes pass on the channel (R80). -/
def Format.onChannel : Format → Bool
  | .symbol => true
  | .delim => true
  | .preamble => true
  | .frame => true
  | .txcmd => false
  | .crccmd => false
  | .rxstate => false
  | .txphase => false
  | .rst => false

/-- The stimulus lines that run the whole hardware tick by tick, rather than one operation alone. -/
def Line.whole : Line → Bool
  | .tick _ => true
  | .loopback _ => true
  | .levels _ _ => true
  | .chan _ _ => true
  | .invoke _ _ => false
  | .code w => w.fmt.onChannel

/-- A code word is some operation's. -/
def CodeWord.decodes (w : CodeWord) : Bool :=
  match decode w with
  | .ok _ => true
  | .error _ => false

/-- A stimulus line is not a code word that is no operation's. -/
def Line.decodes : Line → Bool
  | .tick _ => true
  | .loopback _ => true
  | .levels _ _ => true
  | .chan _ _ => true
  | .invoke _ _ => true
  | .code w => w.decodes

end Sys2Proof

namespace Sys2Proof.Machine

/-! ## What holds of the registers -/

/-- The ranges of the session's registers (R30 to R39) and the relations the spec states between them (R36, R38,
D16). -/
structure Session.Ok (p : Params) (ses : Session) : Prop where
  transCount_lt : ses.transCount < Config.preTrans
  lastTransTime_lt : ses.lastTransTime < 2 ^ p.wT
  win_length : ses.win.length ≤ Config.winMax
  phaseStart_lt : ses.phaseStart < 2 ^ p.wT
  bitCnt_lt : ses.bitCnt < 8
  bitAcc_lt : ses.bitAcc.toNat < 2 ^ ses.bitCnt
  rxCount_le : ses.rxCount ≤ p.rxDepth
  rxOvf_full : ses.rxOvf = true → ses.rxCount = p.rxDepth
  invRun_length : ses.invRun.length = ses.invCount
  invCount_lt : ses.invCount < p.invalidLimit
  lastValidTime_lt : ses.lastValidTime < 2 ^ p.wT
  lastByteTime_lt : ses.lastByteTime < 2 ^ p.wT

/-- The ranges of the calibration registers (R25, R26), and what a finished calibration holds (R121, R122, R126). -/
structure Calibration.Ok (p : Params) (st : RxState) (c : Calibration) : Prop where
  calMin_lt : c.calMin < 2 ^ p.wS
  calMax_lt : c.calMax < 2 ^ p.wS
  running : st = .cal → c.calDone = false ∧ c.calCount < p.nCal
  finished : st ≠ .cal → c.calDone = true ∧ c.calCount = p.nCal
  result : c.calDone = true →
    c.darkValue = c.calMin ∧ c.lightValue = c.calMax ∧ c.darkValue ≤ c.lightValue
      ∧ c.threshold = (c.darkValue + c.lightValue) / 2
  noResult : c.calDone = false → c.darkValue = 0 ∧ c.lightValue = 0 ∧ c.threshold = 0

/-- The relations between the result registers (R41, R190, R194). -/
structure Results.Ok (p : Params) (r : Results) : Prop where
  resCount_le : r.resCount ≤ p.rxDepth
  pass_iff : r.resPass = (r.resCrcOk && r.resLenOk && !r.resOvf)
  tooShort : r.resTooShort = true → r.resCount < Config.headerLen ∧ r.resPass = false

/-- The receiver's group. Every byte `RXBUF[0 .. rxCount-1]` holds a value (R62). -/
structure Receiver.Ok (p : Params) (r : Receiver) : Prop where
  ses : Session.Ok p r.ses
  cal : Calibration.Ok p r.rxState r.cal
  res : Results.Ok p r.res
  buf_wf : Memory.wf p.rxDepth r.buf = true
  buf_filled : memFilled p.rxDepth r.buf r.ses.rxCount = true

/-- `TXBUF[0 .. txLen-1]`, the payload pushed so far. -/
def Sender.payload (p : Params) (t : Sender) : List Byte :=
  (List.range t.txLen.toNat).map fun a => (memRead p.txDepth t.buf a).getD 0

/-- The sender's present position (R138). -/
def Sender.pos (t : Sender) : TxPos := { phase := t.txPhase, idx := t.txIdx, bit := t.txBit, half := t.txHalf }

/-- The positions that exist (R46, R139) for a payload of `n` bytes. -/
def TxPos.Ok (p : Params) (n : Nat) (pos : TxPos) : Prop :=
  match pos.phase with
  | .idle => pos = rawPos .idle 0
  | .preamble => pos.idx ≤ 15 ∧ pos = rawPos .preamble pos.idx
  | .sof => pos.idx ≤ 7 ∧ pos = rawPos .sof pos.idx
  | .data => pos.idx ≤ 8 + n ∧ pos.bit ≤ 7
  | .eof => pos.idx ≤ 7 ∧ pos = rawPos .eof pos.idx
  | .gap => pos.idx < Config.headerLen + p.txDepth ∧ pos = rawPos .gap pos.idx

/-- The ranges of the sender's registers (R46 to R49), the level of the present position (R50), and the running CRC
(R48, R132). -/
structure Sender.Ok (p : Params) (t : Sender) : Prop where
  txLen_le : t.txLen.toNat ≤ p.txDepth
  buf_wf : Memory.wf p.txDepth t.buf = true
  buf_filled : memFilled p.txDepth t.buf t.txLen.toNat = true
  crc : t.txCrc = crc16 (t.payload p)
  timer_lt : t.txTimer < max p.tBit p.tIdle
  emitLeft_lt : t.txEmitLeft < p.nEmit
  gap_emitLeft : t.txPhase = .gap → 0 < t.txEmitLeft
  pos : t.pos.Ok p t.txLen.toNat
  level : ∀ ctr, t.txOut = posLevel p ctr t t.pos
  done : t.txDone = true → t.txPhase = .idle

/-- What holds in every state that ticks can reach from a reset. -/
structure State.Ok (s : State) : Prop where
  params : s.params.wf = true
  now_lt : s.now < 2 ^ s.params.wT
  wait_lt : s.wait < s.params.longestPeriod
  rx : s.rx.Ok s.params
  tx : s.tx.Ok s.params

/-! ## Runs -/

/-- The receiver over a list of invocations `(s_i, now_i)` (R207). -/
def rxRun (p : Params) (ctr : Nat) : List (Nat × Nat) → Receiver → Receiver
  | [], r => r
  | (smp, now) :: xs, r => rxRun p ctr xs (raiseEvent (handle p ctr now smp r))

/-- Samples with their times: the first at `t0`, then every `d` ticks. -/
def timed (p : Params) (d t0 : Nat) : List Nat → List (Nat × Nat)
  | [] => []
  | x :: xs => (x, t0 % 2 ^ p.wT) :: timed p d (t0 + d) xs

/-- The state after a list of ticks. -/
def runTicks : List Pins → State → State
  | [], s => s
  | pins :: rest, s => runTicks rest (tickWith pins s)

/-- What `tx_out` shows at each of a list of ticks (R200: the state before the tick). -/
def txTrace : List Pins → State → List Level
  | [], _ => []
  | pins :: rest, s => s.tx.txOut :: txTrace rest (tickWith pins s)

/-- What `tx_busy` shows at each of a list of ticks. -/
def busyTrace : List Pins → State → List Bool
  | [], _ => []
  | pins :: rest, s => s.tx.busy :: busyTrace rest (tickWith pins s)

/-- `n` emissions of one waveform with gaps of `g` ticks of LOW between them (R142). -/
def emissions (wave : List Level) (g : Nat) : Nat → List Level
  | 0 => []
  | 1 => wave
  | n + 2 => wave ++ List.replicate g false ++ emissions wave g (n + 1)

/-- How many times a list of levels flips, from a level that came before it (R150). -/
def flips : Level → List Level → Nat
  | _, [] => 0
  | l, x :: xs => (if x = l then 0 else 1) + flips x xs

/-- The 16-bit register `winBits` of a window: the newest level in bit 0 (R33, R155). -/
def winBits (w : List Level) : Nat := w.foldl (fun a b => 2 * a + b.toNat) 0

/-- The channel's two intensities read as their levels: a noiseless channel (R235, R262 premise 1). -/
def State.Noiseless (s : State) : Prop :=
  s.rx.level (portSample s.params s.chanLight) = true ∧ s.rx.level (portSample s.params s.chanDark) = false

end Sys2Proof.Machine
end

