-- ==== Sys2Proof/Certificates/Slice0/Obligations.lean ====
section
/-! DEFINITION. The statements for the provers, about every instance that meets the constraints of R8 and R9 (or every
instance at all), rule by rule of the spec. -/

open Sys2Proof Sys2Proof.Machine

/-! ## Codes -/

/-- Decode and encode agree on every operation, with every operand at every value (30_encoding.md R81 to R99). -/
def Obligations.DecodeEncodeIsIdentity : Prop := ∀ i : Instr, decode (encode i) = .ok i

/-- Each code word has one meaning: the operation it decodes to encodes to it, ignored bits included (R90, R96 to R99). -/
def Obligations.EncodeDecodeIsIdentity : Prop := ∀ (w : CodeWord) (i : Instr), decode w = .ok i → encode i = w

/-- Words written out from the spec's encodings, one and more of each format (R81 to R86, R96 to R99, V30a, V30d,
V18b). -/
def Obligations.SpecWordsDecode : Prop :=
  decode ⟨.symbol, 0b10⟩ = .ok .sym1 ∧ decode ⟨.symbol, 0b01⟩ = .ok .sym0
    ∧ decode ⟨.delim, 0b11110000⟩ = .ok .delimSof ∧ decode ⟨.delim, 0b00001111⟩ = .ok .delimEof
    ∧ decode ⟨.preamble, 0b1010101010101010⟩ = .ok .preamble
    ∧ decode ⟨.frame, 0x5458540000000246F6⟩ = .ok (.frame 0x545854 2 0x46F6)
    ∧ decode ⟨.txcmd, 0x2000048⟩ = .ok (.txPush 0 0x48) ∧ decode ⟨.txcmd, 0x3545854⟩ = .ok (.txStart 0x545854)
    ∧ decode ⟨.crccmd, 0x348⟩ = .ok (.crcInit 1 0x48) ∧ decode ⟨.crccmd, 0x148⟩ = .ok (.crcByte 0x48)
    ∧ decode ⟨.rxstate, 0b011⟩ = .ok .decStep ∧ decode ⟨.txphase, 0b101⟩ = .ok .txGap
    ∧ decode ⟨.rst, 1⟩ = .ok .reset

/-- `RXSTATE` and `TXPHASE` (R98, R99): the six codes of each select the handler or arm, `110` and `111` select none;
`EVENT` (R100): the sixteen codes in the table's order, none reserved.  The ports `rx_state` and `ev_code` show the
codes of `rxState` and of `evCode`. -/
def Obligations.StateCodesSelectOperations : Prop :=
  ([RxState.cal, .pre, .sof, .data, .eofs, .proc].map fun st => (st.code.toNat, decode ⟨.rxstate, st.code.toNat⟩))
      = [(0, .ok .calStep), (1, .ok .preStep), (2, .ok .sofStep), (3, .ok .decStep), (4, .ok .eofStep),
         (5, .ok .valStep)]
    ∧ ([TxPhase.idle, .preamble, .sof, .data, .eof, .gap].map fun ph => (ph.code.toNat, decode ⟨.txphase, ph.code.toNat⟩))
      = [(0, .ok .txIdle), (1, .ok .txPreamble), (2, .ok .txSof), (3, .ok .txData), (4, .ok .txEof), (5, .ok .txGap)]
    ∧ (∀ f : Format, f = .rxstate ∨ f = .txphase → ∀ v : Nat, v = 6 ∨ v = 7 →
        decode ⟨f, v⟩ = .error .unreachableCode)
    ∧ ([Event.none, .calDone, .calDegenerate, .preTimeout, .preLock, .sofTimeout, .sofMatch, .dataInactivity,
          .dataGlobal, .invalidLimit, .eofTimeout, .eofMatch, .frameOk, .underrun, .integrity, .rxOverflow].map fun e => e.code)
      = [0x0#4, 0x1#4, 0x2#4, 0x3#4, 0x4#4, 0x5#4, 0x6#4, 0x7#4, 0x8#4, 0x9#4, 0xA#4, 0xB#4, 0xC#4, 0xD#4, 0xE#4, 0xF#4]
    ∧ ∀ (s : State) (pins : Pins),
        (outputs s pins).rxState = s.rx.rxState.code ∧ (outputs s pins).evCode = s.rx.evCode.code

/-- `TXCMD` (R96): bits 25:24 choose the command, bits 23:0 are its argument; every 26-bit word is a command. -/
def Obligations.CommandWordFields : Prop :=
  ∀ (op : BitVec 2) (arg : BitVec 24),
    (op = 0 → decode ⟨.txcmd, (op ++ arg).toNat⟩ = .ok (.txNop arg))
      ∧ (op = 1 → decode ⟨.txcmd, (op ++ arg).toNat⟩ = .ok (.txClear arg))
      ∧ (op = 2 → decode ⟨.txcmd, (op ++ arg).toNat⟩ = .ok (.txPush (arg.extractLsb' 8 16) (arg.extractLsb' 0 8)))
      ∧ (op = 3 → decode ⟨.txcmd, (op ++ arg).toNat⟩ = .ok (.txStart arg))

/-! ## Steps -/

/-- A step on a tick with `rst = 0` runs `RX.TICK` and the arm that `txPhase` selects, and increments `now` (R200). -/
def Obligations.StepRunsTheTick : Prop :=
  ∀ (s : State) (pins : Pins) (rest : List Line), s.params.wf = true → s.script = .tick pins :: rest →
    pins.rst = false →
    ∃ a b, exec .rxTick ((s.setScript rest).setPins pins) = .next a ∧ exec s.tx.txPhase.arm a = .next b
      ∧ step s = .next ((b.setNow ((s.now + 1) % 2 ^ s.params.wT)).bumpFree)

/-- A step on a tick with `rst = 1` runs `RESET` and nothing else, whatever the command word and the state (R228 item
1, R250). -/
def Obligations.StepRunsReset : Prop :=
  ∀ (s : State) (pins : Pins) (rest : List Line), s.params.wf = true → s.script = .tick pins :: rest →
    pins.rst = true →
    ∃ a, exec .reset ((s.setScript rest).setPins pins) = .next a ∧ step s = .next a.bumpFree

/-- A step on a code word runs the operation it decodes to (R101, R102).  That an operation can be run alone by such a
line is the model's choice, log entries 3 and 11. -/
def Obligations.StepRunsTheCodeWord : Prop :=
  ∀ (s : State) (w : CodeWord) (i : Instr) (rest : List Line), s.params.wf = true → s.script = .code w :: rest →
    decode w = .ok i → step s = exec i (s.setScript rest)

/-- `RX.TICK` (R201): an invocation of the handler that `rxState` selects and then the OLD state's period (R203), or
one tick less to wait and no event. -/
def Obligations.RxTickInvokesOrWaits : Prop :=
  ∀ s : State,
    (s.wait = 0 →
      ∃ a, exec s.rx.rxState.handler s = .next a
        ∧ exec .rxTick s = .next (a.setWait
            ((match s.rx.rxState with
              | .cal => s.params.tCal
              | .pre => s.params.tPre
              | .sof => s.params.tBit
              | .data => s.params.tBit / 2
              | .eofs => s.params.tBit
              | .proc => 1) - 1)))
      ∧ (s.wait ≠ 0 → exec .rxTick s = .next { s with wait := s.wait - 1, rx := { s.rx with evCode := .none } })

/-- `TX.IDLE` (R135): `tx_out` and `tx_done` are cleared, then the command of the tick is executed, on its decoded
form. -/
def Obligations.IdleArmRunsTheCommand : Prop :=
  ∀ (s : State) (i : Instr), s.tx.txPhase = .idle → decode ⟨.txcmd, s.pins.txCmd.toNat⟩ = .ok i →
    ∃ t, exec i (s.setTx { s.tx with txOut := false, txDone := false }) = .next t ∧ exec .txIdle s = .next t

/-- The hardware never halts (R211 item 1): an instance that meets its constraints takes a next state at every step,
whatever its registers, unless the stimulus holds a word that is no code. -/
def Obligations.StepAlwaysContinues : Prop :=
  ∀ s : State, s.params.wf = true → (∀ line ∈ s.script, line.decodes = true) → ∃ t, step s = .next t

/-! ## CRC16 -/

/-- `CRC.INIT` (R110): selected by `init = 1` whatever `en` and `din`; `crc <- 0xFFFF`; nothing else changes. -/
def Obligations.CrcInitLoadsInitialValue : Prop :=
  ∀ (en : BitVec 1) (din : Byte) (s : State),
    decode ⟨.crccmd, (1#1 ++ en ++ din).toNat⟩ = .ok (.crcInit en din)
      ∧ exec (.crcInit en din) s = .next { s with tx := { s.tx with txCrc := 0xFFFF } }

/-- `CRC.HOLD` (R112): selected by `init = 0`, `en = 0`; nothing changes. -/
def Obligations.CrcHoldKeepsValue : Prop :=
  ∀ (din : Byte) (s : State),
    decode ⟨.crccmd, (0#1 ++ 0#1 ++ din).toNat⟩ = .ok (.crcHold din) ∧ exec (.crcHold din) s = .next s

/-- The bit-serial form of `crc16_update` in R111: bit 0 of the byte is consumed first. -/
def Sys2Proof.Spec.crcBitSerial (b : Byte) : List Nat → BitVec 16 → BitVec 16
  | [], c => c
  | i :: rest, c =>
    Sys2Proof.Spec.crcBitSerial b rest
      ((c >>> 1) ^^^ (if xor (c.getLsbD 0) (b.getLsbD i) then 0xA001 else 0))

/-- `CRC.BYTE` (R111): selected by `init = 0`, `en = 1`; the register takes the byte bit by bit, least significant bit
first; nothing else changes. -/
def Obligations.CrcByteIsBitSerial : Prop :=
  ∀ (din : Byte) (s : State),
    decode ⟨.crccmd, (0#1 ++ 1#1 ++ din).toNat⟩ = .ok (.crcByte din)
      ∧ exec (.crcByte din) s =
        .next { s with tx := { s.tx with
          txCrc := Sys2Proof.Spec.crcBitSerial din [0, 1, 2, 3, 4, 5, 6, 7] s.tx.txCrc } }

/-- The residue law of R114: a payload followed by its CRC, low byte first, has CRC 0. -/
def Obligations.CrcResidueIsZero : Prop :=
  ∀ bs : List Byte, crc16 (bs ++ [(crc16 bs).extractLsb' 0 8, (crc16 bs).extractLsb' 8 8]) = 0

/-- "`crc16_update` is a bijection on `c` for each fixed `b`" (R111). -/
def Obligations.CrcUpdateIsBijective : Prop := ∀ b : Byte, Function.Bijective fun c => crcUpdate c b

/-! ## Host commands -/

/-- `TX.NOP` (R130): selected by `tx_cmd[25:24] = 00`, whatever `arg`; nothing changes. -/
def Obligations.NopDoesNothing : Prop :=
  ∀ (arg : BitVec 24) (s : State),
    decode ⟨.txcmd, (0#2 ++ arg).toNat⟩ = .ok (.txNop arg) ∧ exec (.txNop arg) s = .next s

/-- `TX.CLEAR` (R131): selected by `tx_cmd[25:24] = 01`, whatever `arg`; the bytes of `TXBUF` and `txType` are unchanged;
a busy sender ignores it. -/
def Obligations.ClearEmptiesTheFrame : Prop :=
  ∀ (arg : BitVec 24) (s : State),
    decode ⟨.txcmd, (1#2 ++ arg).toNat⟩ = .ok (.txClear arg)
      ∧ (s.tx.txPhase = .idle →
      exec (.txClear arg) s = .next { s with tx := { s.tx with txLen := 0, txCrc := 0xFFFF, txOvf := false } })
      ∧ (s.tx.txPhase ≠ .idle → exec (.txClear arg) s = .next s)

/-- `TX.PUSH` (R132): where there is room the byte is stored at offset `txLen` and counted and checksummed, every other
byte of `TXBUF` reads as before; where there is none only `txOvf` is set; a busy sender ignores it (R134). -/
def Obligations.PushAppendsAByte : Prop :=
  ∀ (hi : BitVec 16) (b : Byte) (s : State), s.params.wf = true →
    (s.tx.txPhase = .idle → s.tx.txLen.toNat < s.params.txDepth →
      ∃ buf, exec (.txPush hi b) s =
          .next { s with tx := { s.tx with buf := buf, txLen := s.tx.txLen + 1, txCrc := crcUpdate s.tx.txCrc b } }
        ∧ (s.tx.txLen + 1).toNat = s.tx.txLen.toNat + 1
        ∧ memRead s.params.txDepth buf s.tx.txLen.toNat = some b
        ∧ ∀ a, a ≠ s.tx.txLen.toNat → memRead s.params.txDepth buf a = memRead s.params.txDepth s.tx.buf a)
      ∧ (s.tx.txPhase = .idle → s.params.txDepth ≤ s.tx.txLen.toNat →
        exec (.txPush hi b) s = .next { s with tx := { s.tx with txOvf := true } })
      ∧ (s.tx.txPhase ≠ .idle → exec (.txPush hi b) s = .next s)

/-- `TX.START` (R133), and that a busy sender ignores it (R134). -/
def Obligations.StartBeginsAnEmission : Prop :=
  ∀ (ty : BitVec 24) (s : State),
    (s.tx.txPhase = .idle →
      exec (.txStart ty) s =
        .next { s with tx := { s.tx with
          txType := ty, txEmitLeft := s.params.nEmit - 1, txPhase := .preamble, txIdx := 0, txBit := 7,
          txHalf := false, txOut := true, txTimer := s.params.tBit - 1 } })
      ∧ (s.tx.txPhase ≠ .idle → exec (.txStart ty) s = .next s)

/-- While the sender is busy the command word of a tick has no effect on anything (R134, R213). -/
def Obligations.BusySenderIgnoresTheHost : Prop :=
  ∀ (s : State) (pins : Pins) (cmd : BitVec 26), s.tx.txPhase ≠ .idle →
    (tickWith { pins with txCmd := cmd } s).setPins pins = tickWith pins s

/-- Run these bytes' `TX.PUSH` operations in turn, each by `exec`. -/
def Sys2Proof.Spec.pushAll : List Byte → State → Host.Outcome State Fault Refusal
  | [], s => .next s
  | b :: bs, s =>
    match exec (.txPush 0 b) s with
    | .next t => Sys2Proof.Spec.pushAll bs t
    | .fault e => .fault e
    | .refused e => .refused e

/-- After a clear, pushes build the payload in order, with `txLen` its length and `txCrc` its CRC16 (R132). -/
def Obligations.PushesBuildThePayload : Prop :=
  ∀ (bs : List Byte) (arg : BitVec 24) (s : State), s.params.wf = true → s.tx.txPhase = .idle →
    bs.length ≤ s.params.txDepth →
    ∃ t u, exec (.txClear arg) s = .next t ∧ Sys2Proof.Spec.pushAll bs t = .next u
      ∧ u.tx.txLen.toNat = bs.length ∧ u.tx.txCrc = crc16 bs ∧ u.tx.txOvf = false
      ∧ (∀ k, k < bs.length → memRead s.params.txDepth u.tx.buf k = bs[k]?)
      ∧ u.rx = s.rx ∧ u.tx.txType = s.tx.txType

/-! ## The sender's arms -/

/-- `TX.PREAMBLE` (R138 to R140). -/
def Obligations.PreambleArm : Prop :=
  ∀ s : State, s.tx.txPhase = .preamble →
    (0 < s.tx.txTimer →
      exec .txPreamble s = .next { s with tx := { s.tx with txDone := false, txTimer := s.tx.txTimer - 1 } })
      ∧ (s.tx.txTimer = 0 → s.tx.txIdx < 15 →
        exec .txPreamble s = .next { s with tx := { s.tx with
          txIdx := s.tx.txIdx + 1, txBit := 7, txHalf := false, txOut := decide (s.tx.txIdx % 2 = 1),
          txTimer := s.params.tBit - 1, txDone := false } })
      ∧ (s.tx.txTimer = 0 → s.tx.txIdx = 15 →
        exec .txPreamble s = .next { s with tx := { s.tx with
          txPhase := .sof, txIdx := 0, txBit := 7, txHalf := false, txOut := true,
          txTimer := s.params.tBit - 1, txDone := false } })

/-- `TX.SOF` (R138 to R140). -/
def Obligations.StartDelimiterArm : Prop :=
  ∀ s : State, s.tx.txPhase = .sof →
    (0 < s.tx.txTimer →
      exec .txSof s = .next { s with tx := { s.tx with txDone := false, txTimer := s.tx.txTimer - 1 } })
      ∧ (s.tx.txTimer = 0 → s.tx.txIdx < 7 →
        exec .txSof s = .next { s with tx := { s.tx with
          txIdx := s.tx.txIdx + 1, txBit := 7, txHalf := false, txOut := decide (s.tx.txIdx + 1 < 4),
          txTimer := s.params.tBit - 1, txDone := false } })
      ∧ (s.tx.txTimer = 0 → s.tx.txIdx = 7 →
        exec .txSof s = .next { s with tx := { s.tx with
          txPhase := .data, txIdx := 0, txBit := 7, txHalf := false,
          txOut := s.tx.txType.getLsbD 23, txTimer := s.params.tBit / 2 - 1, txDone := false } })

/-- `TX.DATA` (R136, R138 to R140). -/
def Obligations.DataArm : Prop :=
  ∀ s : State, s.tx.txPhase = .data →
    (0 < s.tx.txTimer →
      exec .txData s = .next { s with tx := { s.tx with txDone := false, txTimer := s.tx.txTimer - 1 } })
      ∧ (s.tx.txTimer = 0 → s.tx.txHalf = false →
        exec .txData s = .next { s with tx := { s.tx with
          txHalf := true, txOut := !(frameByte s.params s.freeCtr s.tx s.tx.txIdx).getLsbD s.tx.txBit,
          txTimer := s.params.tBit / 2 - 1, txDone := false } })
      ∧ (s.tx.txTimer = 0 → s.tx.txHalf = true → 0 < s.tx.txBit →
        exec .txData s = .next { s with tx := { s.tx with
          txHalf := false, txBit := s.tx.txBit - 1,
          txOut := (frameByte s.params s.freeCtr s.tx s.tx.txIdx).getLsbD (s.tx.txBit - 1),
          txTimer := s.params.tBit / 2 - 1, txDone := false } })
      ∧ (s.tx.txTimer = 0 → s.tx.txHalf = true → s.tx.txBit = 0 → s.tx.txIdx < 8 + s.tx.txLen.toNat →
        exec .txData s = .next { s with tx := { s.tx with
          txHalf := false, txBit := 7, txIdx := s.tx.txIdx + 1,
          txOut := (frameByte s.params s.freeCtr s.tx (s.tx.txIdx + 1)).getLsbD 7,
          txTimer := s.params.tBit / 2 - 1, txDone := false } })
      ∧ (s.tx.txTimer = 0 → s.tx.txHalf = true → s.tx.txBit = 0 → s.tx.txIdx = 8 + s.tx.txLen.toNat →
        exec .txData s = .next { s with tx := { s.tx with
          txPhase := .eof, txHalf := false, txBit := 7, txIdx := 0, txOut := false,
          txTimer := s.params.tBit - 1, txDone := false } })

/-- `TX.EOF` (R138 to R140).  On entry to a gap `txIdx` holds a value within its range that the spec does not state
(log entry 6). -/
def Obligations.EndDelimiterArm : Prop :=
  ∀ s : State, s.tx.txPhase = .eof →
    (0 < s.tx.txTimer →
      exec .txEof s = .next { s with tx := { s.tx with txDone := false, txTimer := s.tx.txTimer - 1 } })
      ∧ (s.tx.txTimer = 0 → s.tx.txIdx < 7 →
        exec .txEof s = .next { s with tx := { s.tx with
          txIdx := s.tx.txIdx + 1, txBit := 7, txHalf := false, txOut := decide (4 ≤ s.tx.txIdx + 1),
          txTimer := s.params.tBit - 1, txDone := false } })
      ∧ (s.tx.txTimer = 0 → s.tx.txIdx = 7 → 0 < s.tx.txEmitLeft →
        ∃ i, i < 9 + s.params.txDepth
          ∧ exec .txEof s = .next { s with tx := { s.tx with
            txPhase := .gap, txIdx := i, txBit := 7, txHalf := false, txOut := false,
            txTimer := s.params.tIdle - 1, txDone := false } })
      ∧ (s.tx.txTimer = 0 → s.tx.txIdx = 7 → s.tx.txEmitLeft = 0 →
        exec .txEof s = .next { s with tx := { s.tx with
          txPhase := .idle, txIdx := 0, txBit := 7, txHalf := false, txOut := false, txDone := true } })

/-- `TX.GAP` (R138 to R140). -/
def Obligations.GapArm : Prop :=
  ∀ s : State, s.tx.txPhase = .gap →
    (0 < s.tx.txTimer →
      exec .txGap s = .next { s with tx := { s.tx with txDone := false, txTimer := s.tx.txTimer - 1 } })
      ∧ (s.tx.txTimer = 0 →
        exec .txGap s = .next { s with tx := { s.tx with
          txPhase := .preamble, txIdx := 0, txBit := 7, txHalf := false, txOut := true,
          txTimer := s.params.tBit - 1, txEmitLeft := s.tx.txEmitLeft - 1, txDone := false } })

/-- The waveform (R141, R142): after an accepted `TX.START`, whatever the inputs with `rst = 0`, `tx_out` shows
`N_EMIT` times the levels of `frameLevels(type, payload)`, each for its duration, with `T_IDLE` ticks of LOW between
them; `tx_busy` is 1 throughout; then the sender is idle with `tx_out = 0` and `tx_done = 1`. -/
def Obligations.EmissionWaveform : Prop :=
  ∀ (s t : State) (ty : BitVec 24) (inputs : List Pins),
    s.Ok → s.tx.txPhase = .idle → exec (.txStart ty) s = .next t → (∀ x ∈ inputs, x.rst = false) →
    inputs.length = s.params.nEmit * ((104 + 8 * s.tx.txLen.toNat) * s.params.tBit)
      + (s.params.nEmit - 1) * s.params.tIdle →
    txTrace inputs t
        = emissions (spread (frameLevels s.params ty (s.tx.payload s.params))) s.params.tIdle s.params.nEmit
      ∧ busyTrace inputs t = List.replicate inputs.length true
      ∧ (runTicks inputs t).tx.txPhase = .idle ∧ (runTicks inputs t).tx.txOut = false
      ∧ (runTicks inputs t).tx.txDone = true

/-! ## Calibration and preamble -/

/-- The session that R40 creates at a time, its sixteen registers written out. -/
def Sys2Proof.Spec.sessionAt (now : Nat) : Session :=
  { transCount := 0, lastLevel := false, lastLevelValid := false, lastTransTime := 0, win := [], phaseStart := now,
    pairHalf := false, firstLv := false, bitAcc := 0, bitCnt := 0, rxCount := 0, rxOvf := false, invCount := 0,
    invRun := [], lastValidTime := now, lastByteTime := now }

/-- `CAL.STEP` (R121, R122, R123). -/
def Obligations.CalStepTracksExtremes : Prop :=
  ∀ s : State,
    let c := s.rx.cal
    let lo := min c.calMin s.sample
    let hi := max c.calMax s.sample
    (c.calCount + 1 ≠ s.params.nCal →
      exec .calStep s = .next { s with rx := { s.rx with
        cal := { c with calMin := lo, calMax := hi, calCount := c.calCount + 1 }, evCode := .none } })
      ∧ (c.calCount + 1 = s.params.nCal →
        exec .calStep s = .next { s with rx := { s.rx with
          cal :=
            { calMin := lo, calMax := hi, calCount := c.calCount + 1, darkValue := lo, lightValue := hi,
              threshold := (lo + hi) / 2, calDone := true }
          ses := Sys2Proof.Spec.sessionAt s.now, rxState := .pre,
          evCode := if lo = hi then .calDegenerate else .calDone } })

/-- A calibration from reset (R121 to R123, R252): after `N_CAL` invocations the receiver is in PRE with the extremes of
the samples and their midpoint, in a fresh session. -/
def Obligations.CalibrationFindsTheMidpoint : Prop :=
  ∀ (p : Params) (ctr smp t : Nat) (xs : List (Nat × Nat)) (buf : Memory), p.wf = true →
    xs.length + 1 = p.nCal → (∀ x ∈ (smp, t) :: xs, x.1 < 2 ^ p.wS) →
    let r := rxRun p ctr (xs ++ [(smp, t)]) (Receiver.initial p buf)
    r.rxState = .pre ∧ r.cal.calDone = true ∧ r.ses = Sys2Proof.Spec.sessionAt t ∧ r.buf = buf
      ∧ (∃ x ∈ (smp, t) :: xs, x.1 = r.cal.darkValue) ∧ (∃ x ∈ (smp, t) :: xs, x.1 = r.cal.lightValue)
      ∧ (∀ x ∈ (smp, t) :: xs, r.cal.darkValue ≤ x.1 ∧ x.1 ≤ r.cal.lightValue)
      ∧ r.cal.threshold = (r.cal.darkValue + r.cal.lightValue) / 2
      ∧ r.evCode = (if r.cal.darkValue = r.cal.lightValue then .calDegenerate else .calDone)

/-- `PRE.STEP` (R150): its five branches. -/
def Obligations.PreStepCountsFlips : Prop :=
  ∀ s : State,
    let ses := s.rx.ses
    let lv : Level := decide (s.rx.cal.threshold < s.sample)
    let e := elapsed s.params s.now ses.phaseStart
    (s.params.toPre < e →
      exec .preStep s = .next { s with rx := { s.rx with
        ses := { ses with transCount := 0, phaseStart := s.now }, evCode := .preTimeout } })
      ∧ (e ≤ s.params.toPre → ses.lastLevelValid = false →
        exec .preStep s = .next { s with rx := { s.rx with
          ses := { ses with lastLevel := lv, lastLevelValid := true }, evCode := .none } })
      ∧ (e ≤ s.params.toPre → ses.lastLevelValid = true → lv = ses.lastLevel →
        exec .preStep s = .next { s with rx := { s.rx with evCode := .none } })
      ∧ (e ≤ s.params.toPre → ses.lastLevelValid = true → lv ≠ ses.lastLevel → ses.transCount + 1 < 8 →
        exec .preStep s = .next { s with rx := { s.rx with
          ses := { ses with lastLevel := lv, lastTransTime := s.now, transCount := ses.transCount + 1 },
          evCode := .none } })
      ∧ (e ≤ s.params.toPre → ses.lastLevelValid = true → lv ≠ ses.lastLevel → 8 ≤ ses.transCount + 1 →
        exec .preStep s = .next { s with rx := { s.rx with
          rxState := .sof,
          ses :=
            { ses with lastLevel := lv, lastTransTime := s.now, transCount := 0, win := [], phaseStart := s.now },
          evCode := .preLock } })

/-- "Preamble detection requires ≥8 level transitions; fewer transitions within the timeout window must not advance the
phase" (R151 item 1): over invocations of a receiver in PRE none of which times out, from any count on, a total below 8
leaves it in PRE with that count, and the invocation that brings the 8th flip locks.  The flips of the samples are
counted from the last level, or, in a session that has observed none yet (R31), from the first sample. -/
def Obligations.PreambleNeedsEightFlips : Prop :=
  ∀ (p : Params) (ctr : Nat) (r : Receiver) (xs : List (Nat × Nat)) (smp now : Nat),
    r.rxState = .pre → (∀ x ∈ xs ++ [(smp, now)], elapsed p x.2 r.ses.phaseStart ≤ p.toPre) →
    let levels := xs.map fun x => slice r.cal.threshold x.1
    let next := slice r.cal.threshold smp
    let first := if r.ses.lastLevelValid then r.ses.lastLevel else levels.headD next
    r.ses.transCount + flips first levels < 8 →
    (rxRun p ctr xs r).rxState = .pre
      ∧ (rxRun p ctr xs r).ses.transCount = r.ses.transCount + flips first levels
      ∧ ((rxRun p ctr (xs ++ [(smp, now)]) r).rxState = .sof ↔
        r.ses.transCount + flips first (levels ++ [next]) = 8)

/-! ## Start-frame search -/

/-- `SOF.STEP` (R154): timeout, match, and no match. -/
def Obligations.SofStepSearchesTheDelimiter : Prop :=
  ∀ s : State,
    let ses := s.rx.ses
    let w := ses.win ++ [decide (s.rx.cal.threshold < s.sample)]
    let e := elapsed s.params s.now ses.phaseStart
    let found := 8 ≤ w.length ∧ lastN w 8 = [true, true, true, true, false, false, false, false]
    (s.params.toSof < e →
      exec .sofStep s = .next { s with rx := { s.rx with
        ses := { ses with win := [], phaseStart := s.now }, evCode := .sofTimeout } })
      ∧ (e ≤ s.params.toSof → found →
        exec .sofStep s = .next { s with rx := { s.rx with
          rxState := .data,
          ses :=
            { ses with
              win := [], bitAcc := 0, bitCnt := 0, rxCount := 0, rxOvf := false, pairHalf := false, firstLv := false,
              invCount := 0, invRun := [], lastValidTime := s.now, lastByteTime := s.now },
          evCode := .sofMatch } })
      ∧ (e ≤ s.params.toSof → ¬ found →
        exec .sofStep s = .next { s with rx := { s.rx with
          ses := { ses with win := lastN w 16 }, evCode := .none } })

/-- Sliding-window correctness (R155, R156): the window of at most 16 levels answers as the whole history would; what
came before the last 8 levels is irrelevant. -/
def Obligations.SearchSeesOnlyTheSuffix : Prop :=
  ∀ (history : List Level) (lv : Level) (pat : Byte),
    search (lastN history 16) lv pat =
      (if 8 ≤ (history ++ [lv]).length ∧ lastN (history ++ [lv]) 8 = bitsMsbFirst 8 pat.toNat then .isMatch
       else .window (lastN (history ++ [lv]) 16))

/-- The hardware form of the search (R155): a 16-bit shift register and a length that stops at 16, whose low byte is
compared with the pattern, do what the list does. -/
def Obligations.ShiftRegisterRefinesTheWindow : Prop :=
  ∀ (win : List Level) (lv : Level) (pat : Byte), win.length ≤ 16 →
    (search win lv pat = .isMatch ↔
        8 ≤ min (win.length + 1) 16 ∧ (2 * winBits win + lv.toNat) % 2 ^ 16 % 256 = pat.toNat)
      ∧ (∀ w, search win lv pat = .window w →
        winBits w = (2 * winBits win + lv.toNat) % 2 ^ 16 ∧ w.length = min (win.length + 1) 16)

/-! ## Data reception -/

/-- `DEC.STEP`, the two timeouts (R161, R162, R167): the global one first, a fresh session; then the inactivity one, the
end-frame search with the run of invalid levels so far as its window, of which a window keeps at most the last 16
levels (R33; log entry 12). -/
def Obligations.DecStepTimesOut : Prop :=
  ∀ s : State,
    let ses := s.rx.ses
    let eB := elapsed s.params s.now ses.lastByteTime
    let eV := elapsed s.params s.now ses.lastValidTime
    (s.params.toGlobal < eB →
      exec .decStep s = .next { s with rx := { s.rx with
        rxState := .pre, ses := Sys2Proof.Spec.sessionAt s.now, evCode := .dataGlobal } })
      ∧ (eB ≤ s.params.toGlobal → s.params.toInact < eV →
        exec .decStep s = .next { s with rx := { s.rx with
          rxState := .eofs,
          ses :=
            { ses with
              win := if s.params.efdSeed then lastN ses.invRun 16 else [], invCount := 0, invRun := [],
              phaseStart := s.now },
          evCode := .dataInactivity } })

/-- `DEC.STEP`, first half of a symbol (R163). -/
def Obligations.DecStepTakesTheFirstHalf : Prop :=
  ∀ s : State, elapsed s.params s.now s.rx.ses.lastByteTime ≤ s.params.toGlobal →
    elapsed s.params s.now s.rx.ses.lastValidTime ≤ s.params.toInact → s.rx.ses.pairHalf = false →
    exec .decStep s = .next { s with rx := { s.rx with
      ses := { s.rx.ses with firstLv := decide (s.rx.cal.threshold < s.sample), pairHalf := true },
      evCode := .none } }

/-- `DEC.STEP`, valid symbol (R164, R166): the bit is the first level; the eighth bit completes a byte, which is stored
at offset `rxCount` (every other byte of `RXBUF` reads as before) or dropped when the buffer is full. -/
def Obligations.DecStepTakesAValidSymbol : Prop :=
  ∀ s : State, elapsed s.params s.now s.rx.ses.lastByteTime ≤ s.params.toGlobal →
    elapsed s.params s.now s.rx.ses.lastValidTime ≤ s.params.toInact → s.rx.ses.pairHalf = true →
    s.rx.ses.firstLv ≠ decide (s.rx.cal.threshold < s.sample) →
    let ses := { s.rx.ses with pairHalf := false, invCount := 0, invRun := [], lastValidTime := s.now }
    let acc := BitVec.ofNat 8 (2 * ses.bitAcc.toNat + ses.firstLv.toNat)
    (ses.bitCnt + 1 ≠ 8 →
      exec .decStep s = .next { s with rx := { s.rx with
        ses := { ses with bitAcc := acc, bitCnt := ses.bitCnt + 1 }, evCode := .none } })
      ∧ (ses.bitCnt + 1 = 8 → ses.rxCount < s.params.rxDepth →
        ∃ buf, exec .decStep s = .next { s with rx := { s.rx with
            ses := { ses with bitAcc := 0, bitCnt := 0, lastByteTime := s.now, rxCount := ses.rxCount + 1 },
            buf := buf, evCode := .none } }
          ∧ memRead s.params.rxDepth buf ses.rxCount = some acc
          ∧ ∀ a, a ≠ ses.rxCount → memRead s.params.rxDepth buf a = memRead s.params.rxDepth s.rx.buf a)
      ∧ (ses.bitCnt + 1 = 8 → s.params.rxDepth ≤ ses.rxCount →
        exec .decStep s = .next { s with rx := { s.rx with
          ses := { ses with bitAcc := 0, bitCnt := 0, lastByteTime := s.now, rxOvf := true },
          evCode := .rxOverflow } })

/-- `DEC.STEP`, invalid symbol (R165, R167): counted below the limit; at the limit the end-frame search begins, its
window the run of invalid levels, of which a window keeps at most the last 16 (R33; log entry 12). -/
def Obligations.DecStepTakesAnInvalidSymbol : Prop :=
  ∀ s : State, elapsed s.params s.now s.rx.ses.lastByteTime ≤ s.params.toGlobal →
    elapsed s.params s.now s.rx.ses.lastValidTime ≤ s.params.toInact → s.rx.ses.pairHalf = true →
    s.rx.ses.firstLv = decide (s.rx.cal.threshold < s.sample) →
    let run := s.rx.ses.invRun ++ [s.rx.ses.firstLv]
    (s.rx.ses.invCount + 1 < s.params.invalidLimit →
      exec .decStep s = .next { s with rx := { s.rx with
        ses := { s.rx.ses with pairHalf := false, invCount := s.rx.ses.invCount + 1, invRun := run },
        evCode := .none } })
      ∧ (s.params.invalidLimit ≤ s.rx.ses.invCount + 1 →
        exec .decStep s = .next { s with rx := { s.rx with
          rxState := .eofs,
          ses :=
            { s.rx.ses with
              pairHalf := false, win := if s.params.efdSeed then lastN run 16 else [], invCount := 0, invRun := [],
              phaseStart := s.now },
          evCode := .invalidLimit } })

/-- The data symbols of a frame, then three symbols `00`, at the handler level (R169): fed at the decoder's cadence from
a start-frame match at `tm`, the bytes come out in order and the end-frame search begins with the window `[0,0,0]`. -/
def Obligations.DataSymbolsDecode : Prop :=
  ∀ (p : Params) (ctr tm : Nat) (r0 : Receiver) (bs : List Byte) (samples : List Nat), p.wf = true →
    p.invalidLimit = 3 → p.efdSeed = true → bs ≠ [] → bs.length ≤ p.rxDepth → tm < 2 ^ p.wT →
    3 * p.tBit ≤ p.toInact → 8 * p.tBit + p.tHalf ≤ p.toGlobal →
    (samples.map fun x => slice r0.cal.threshold x) = bytesLevels bs ++ List.replicate 6 false →
    let r := rxRun p ctr (timed p p.tHalf (tm + p.tBit) samples) (startFrame tm r0)
    r.rxState = .eofs ∧ r.ses.win = [false, false, false] ∧ r.ses.rxCount = bs.length ∧ r.ses.bitCnt = 0
      ∧ r.ses.rxOvf = false ∧ r.evCode = .invalidLimit
      ∧ ∀ k, k < bs.length → memRead p.rxDepth r.buf k = bs[k]?

/-! ## End of frame and validation -/

/-- `EOF.STEP` (R180, R182, R183): fallback, match, and no match. -/
def Obligations.EofStepSearchesTheDelimiter : Prop :=
  ∀ s : State,
    let ses := s.rx.ses
    let w := ses.win ++ [decide (s.rx.cal.threshold < s.sample)]
    let e := elapsed s.params s.now ses.phaseStart
    let found := 8 ≤ w.length ∧ lastN w 8 = [false, false, false, false, true, true, true, true]
    (s.params.toEof < e →
      exec .eofStep s = .next { s with rx := { s.rx with
        rxState := .data,
        ses :=
          { ses with
            win := [], pairHalf := false, firstLv := false, invCount := 0, invRun := [], lastValidTime := s.now },
        evCode := .eofTimeout } })
      ∧ (e ≤ s.params.toEof → found →
        exec .eofStep s = .next { s with rx := { s.rx with
          rxState := .proc, ses := { ses with win := [] }, evCode := .eofMatch } })
      ∧ (e ≤ s.params.toEof → ¬ found →
        exec .eofStep s = .next { s with rx := { s.rx with
          ses := { ses with win := lastN w 16 }, evCode := .none } })

/-- `VAL.STEP` (R190 to R194): too short, or the parse of the received bytes `B` and the three pass conditions; in both
cases a fresh session in PRE, and the bytes stay in `RXBUF`. -/
def Obligations.ValStepReportsTheFrame : Prop :=
  ∀ (s : State) (B : Nat → Byte),
    let n := s.rx.ses.rxCount
    (∀ k, k < n → memRead s.params.rxDepth s.rx.buf k = some (B k)) →
    (n < 9 →
      exec .valStep s = .next { s with rx := { s.rx with
        rxState := .pre, ses := Sys2Proof.Spec.sessionAt s.now, evCode := .underrun,
        res :=
          { resPass := false, resTooShort := true, resCrcOk := false, resLenOk := false, resOvf := s.rx.ses.rxOvf,
            resType := 0, resLen := 0, resCrcRx := 0, resCrcCalc := 0, resCount := n } } })
      ∧ (9 ≤ n →
        let len := B 3 ++ B 4 ++ B 5 ++ B 6
        let crcRx := B 7 ++ B 8
        let crcCalc := crc16 ((List.range (n - 9)).map fun i => B (i + 9))
        let pass := decide (crcCalc = crcRx ∧ n - 9 = len.toNat ∧ s.rx.ses.rxOvf = false)
        exec .valStep s = .next { s with rx := { s.rx with
          rxState := .pre, ses := Sys2Proof.Spec.sessionAt s.now, evCode := if pass then .frameOk else .integrity,
          res :=
            { resPass := pass, resTooShort := false, resCrcOk := decide (crcCalc = crcRx),
              resLenOk := decide (n - 9 = len.toNat), resOvf := s.rx.ses.rxOvf, resType := B 0 ++ B 1 ++ B 2,
              resLen := len, resCrcRx := crcRx, resCrcCalc := crcCalc, resCount := n } } })

/-- The validator accepts every well-formed frame (R196).  The header's `length` has 32 bits, hence the bound. -/
def Obligations.ValidatorAcceptsAFrame : Prop :=
  ∀ (s : State) (ty : BitVec 24) (payload : List Byte), payload.length < 2 ^ 32 →
    s.rx.ses.rxCount = 9 + payload.length → s.rx.ses.rxOvf = false →
    (∀ k, k < 9 + payload.length → memRead s.params.rxDepth s.rx.buf k = (frameBytes ty payload)[k]?) →
    ∃ t, exec .valStep s = .next t ∧ t.rx.res.resPass = true ∧ t.rx.res.resType = ty
      ∧ t.rx.res.resLen.toNat = payload.length ∧ t.rx.res.resCrcRx = crc16 payload
      ∧ t.rx.res.resCrcCalc = crc16 payload ∧ t.rx.evCode = .frameOk ∧ t.rx.rxState = .pre ∧ t.rx.buf = s.rx.buf

/-- `elapsed` is the number of ticks since the tick whose `now` was `t0`, while fewer than `2^W_T` have passed, wrap
included (R206, R16 item 4). -/
def Obligations.ElapsedCountsTicks : Prop :=
  ∀ (s : State) (inputs : List Pins), s.now < 2 ^ s.params.wT → (∀ x ∈ inputs, x.rst = false) →
    inputs.length < 2 ^ s.params.wT →
    elapsed s.params (runTicks inputs s).now s.now = inputs.length

/-! ## Wire codes on the channel -/

/-- Each wire code lasts as long as R85 says, while the whole hardware runs; the host commands nothing meanwhile, so an
idle sender stays as it is.  That a wire code as an operation is its levels on the channel is the model's reading, log
entry 9. -/
def Obligations.WireCodesTakeTheirTime : Prop :=
  ∀ (s : State) (ty : BitVec 24) (len : BitVec 32) (c : BitVec 16), s.params.wf = true →
    s.now < 2 ^ s.params.wT →
    ∀ x ∈ [(Instr.sym1, 1), (.sym0, 1), (.symInv0, 1), (.symInv1, 1), (.delimSof, 8), (.delimEof, 8),
        (.preamble, 16), (.frame ty len c, 72)],
      ∃ t, exec x.1 s = .next t ∧ t.now = (s.now + x.2 * s.params.tBit) % 2 ^ s.params.wT
        ∧ t.freeCtr = s.freeCtr + x.2 * s.params.tBit ∧ t.params = s.params ∧ t.script = s.script
        ∧ t.chanLight = s.chanLight ∧ t.chanDark = s.chanDark
        ∧ (s.tx.txPhase = .idle → t.tx = { s.tx with txOut := false, txDone := false })

/-- Symbols on a noiseless channel, heard by a decoder that is in step with them (R81, R164 to R167, R91).  `SYM.1` and
`SYM.0` append their bit, and the eighth bit completes a byte, which is stored at offset `rxCount` (every other byte of
`RXBUF` reads as before) or dropped when the buffer is full.  `SYM.INV0` and `SYM.INV1` append no bit and count, and the
one that reaches INVALID_LIMIT begins the end-frame search (its window cut to 16: log entry 12).  An event is on the
port for one tick, so it still stands after the symbol only where half a symbol is one tick.  Wire codes as operations:
log entry 9. -/
def Obligations.SymbolsReachTheDecoder : Prop :=
  ∀ (s : State) (b : Level), s.params.wf = true → s.now < 2 ^ s.params.wT → s.rx.rxState = .data → s.wait = 0 →
    s.rx.ses.pairHalf = false → s.Noiseless →
    elapsed s.params s.now s.rx.ses.lastByteTime + s.params.tHalf ≤ s.params.toGlobal →
    elapsed s.params s.now s.rx.ses.lastValidTime + s.params.tHalf ≤ s.params.toInact →
    let later := (s.now + s.params.tHalf) % 2 ^ s.params.wT
    let shown (e : Event) : Event := if s.params.tHalf = 1 then e else .none
    let acc := BitVec.ofNat 8 (2 * s.rx.ses.bitAcc.toNat + b.toNat)
    let valid := { s.rx.ses with firstLv := b, invCount := 0, invRun := [], lastValidTime := later }
    let run := s.rx.ses.invRun ++ [b]
    (s.rx.ses.bitCnt + 1 < 8 →
      ∃ t, exec (if b then .sym1 else .sym0) s = .next t ∧ t.wait = 0
        ∧ t.rx = { s.rx with ses := { valid with bitAcc := acc, bitCnt := s.rx.ses.bitCnt + 1 }, evCode := .none })
      ∧ (s.rx.ses.bitCnt + 1 = 8 → s.rx.ses.rxCount < s.params.rxDepth →
        ∃ t, exec (if b then .sym1 else .sym0) s = .next t ∧ t.wait = 0
          ∧ t.rx = { s.rx with
              ses := { valid with bitAcc := 0, bitCnt := 0, rxCount := s.rx.ses.rxCount + 1, lastByteTime := later },
              buf := t.rx.buf, evCode := .none }
          ∧ memRead s.params.rxDepth t.rx.buf s.rx.ses.rxCount = some acc
          ∧ ∀ a, a ≠ s.rx.ses.rxCount →
              memRead s.params.rxDepth t.rx.buf a = memRead s.params.rxDepth s.rx.buf a)
      ∧ (s.rx.ses.bitCnt + 1 = 8 → s.params.rxDepth ≤ s.rx.ses.rxCount →
        ∃ t, exec (if b then .sym1 else .sym0) s = .next t ∧ t.wait = 0
          ∧ t.rx = { s.rx with
              ses := { valid with bitAcc := 0, bitCnt := 0, rxOvf := true, lastByteTime := later },
              evCode := shown .rxOverflow })
      ∧ (s.rx.ses.invCount + 1 < s.params.invalidLimit →
        ∃ t, exec (if b then .symInv1 else .symInv0) s = .next t ∧ t.wait = 0
          ∧ t.rx = { s.rx with
              ses := { s.rx.ses with firstLv := b, invCount := s.rx.ses.invCount + 1, invRun := run },
              evCode := .none })
      ∧ (s.params.invalidLimit ≤ s.rx.ses.invCount + 1 →
        ∃ t, exec (if b then .symInv1 else .symInv0) s = .next t ∧ t.wait = 0
          ∧ t.rx = { s.rx with
              rxState := .eofs,
              ses :=
                { s.rx.ses with
                  firstLv := b, win := if s.params.efdSeed then lastN run 16 else [], invCount := 0, invRun := [],
                  phaseStart := later },
              evCode := shown .invalidLimit })

/-- The start delimiter on a noiseless channel, heard by a search that is in step with it, is matched at its last raw
bit, whatever the window held (R84, R154, R156).  Wire codes as operations: log entry 9. -/
def Obligations.StartDelimiterIsMatched : Prop :=
  ∀ s : State, s.params.wf = true → s.now < 2 ^ s.params.wT → s.rx.rxState = .sof → s.wait = 0 → s.Noiseless →
    elapsed s.params s.now s.rx.ses.phaseStart + 7 * s.params.tBit ≤ s.params.toSof →
    let last := (s.now + 7 * s.params.tBit) % 2 ^ s.params.wT
    ∃ t, exec .delimSof s = .next t ∧ t.wait = 0
      ∧ t.rx = { s.rx with
          rxState := .data,
          ses :=
            { s.rx.ses with
              win := [], bitAcc := 0, bitCnt := 0, rxCount := 0, rxOvf := false, pairHalf := false,
              firstLv := false, invCount := 0, invRun := [], lastValidTime := last, lastByteTime := last },
          evCode := .none }

/-- The end delimiter on a noiseless channel, heard by a decoder that is in step with it: three invalid symbols `00`,
then the search from the window `[0,0,0]`, and the match at the last raw bit (R169, R184).  Wire codes as operations:
log entry 9. -/
def Obligations.EndDelimiterEndsTheFrame : Prop :=
  ∀ s : State, s.params.wf = true → s.now < 2 ^ s.params.wT → s.rx.rxState = .data → s.wait = 0 →
    s.rx.ses.pairHalf = false → s.rx.ses.invCount = 0 → s.rx.ses.invRun = [] → s.Noiseless →
    s.params.invalidLimit = 3 → s.params.efdSeed = true →
    elapsed s.params s.now s.rx.ses.lastByteTime + 2 * s.params.tBit + s.params.tHalf ≤ s.params.toGlobal →
    elapsed s.params s.now s.rx.ses.lastValidTime + 2 * s.params.tBit + s.params.tHalf ≤ s.params.toInact →
    4 * s.params.tBit + s.params.tHalf ≤ s.params.toEof →
    ∃ t, exec .delimEof s = .next t ∧ t.wait = 0
      ∧ t.rx = { s.rx with
          rxState := .proc,
          ses :=
            { s.rx.ses with
              win := [], firstLv := false,
              phaseStart := (s.now + 2 * s.params.tBit + s.params.tHalf) % 2 ^ s.params.wT },
          evCode := .none }

/-- The preamble on a noiseless channel, heard from an idle LOW channel by a receiver in PRE, locks it: every raw bit is
sampled, and the 8th flip leads to SOF, where the rest of the preamble does no harm (R151 items 3 and 4, R156 item 3).
The receiver has recorded the LOW level and counted no flip.  Wire codes as operations: log entry 9. -/
def Obligations.PreambleLocksTheReceiver : Prop :=
  ∀ s : State, s.params.wf = true → s.now < 2 ^ s.params.wT → s.rx.rxState = .pre → s.wait < s.params.tPre →
    s.params.tPre ≤ s.params.tBit → s.rx.ses.lastLevelValid = true → s.rx.ses.lastLevel = false →
    s.rx.ses.transCount = 0 → s.Noiseless →
    elapsed s.params s.now s.rx.ses.phaseStart + 8 * s.params.tBit ≤ s.params.toPre →
    9 * s.params.tBit ≤ s.params.toSof →
    ∃ t, exec .preamble s = .next t ∧ t.rx.rxState = .sof ∧ t.rx.cal = s.rx.cal ∧ t.rx.res = s.rx.res
      ∧ t.rx.buf = s.rx.buf ∧ t.rx.ses.transCount = 0

/-- A frame header on a noiseless channel, heard by a decoder in step with it right after a match, is stored in
`RXBUF[0 .. 8]` byte by byte; every other byte reads as before (R86 to R88, R166).  Wire codes as operations: log entry
9. -/
def Obligations.HeaderReachesTheBuffer : Prop :=
  ∀ (s : State) (ty : BitVec 24) (len : BitVec 32) (c : BitVec 16), s.params.wf = true → s.now < 2 ^ s.params.wT →
    s.rx.rxState = .data → s.wait = 0 → s.rx.ses.pairHalf = false → s.rx.ses.bitCnt = 0 → s.rx.ses.rxCount = 0 →
    s.Noiseless → s.params.tBit ≤ s.params.toInact → 8 * s.params.tBit ≤ s.params.toGlobal →
    elapsed s.params s.now s.rx.ses.lastByteTime + 7 * s.params.tBit + s.params.tHalf ≤ s.params.toGlobal →
    elapsed s.params s.now s.rx.ses.lastValidTime + s.params.tHalf ≤ s.params.toInact →
    let last := (s.now + 71 * s.params.tBit + s.params.tHalf) % 2 ^ s.params.wT
    ∃ t, exec (.frame ty len c) s = .next t ∧ t.wait = 0
      ∧ t.rx = { s.rx with
          ses :=
            { s.rx.ses with
              rxCount := 9, bitAcc := 0, bitCnt := 0, firstLv := c.getLsbD 0, invCount := 0, invRun := [],
              lastValidTime := last, lastByteTime := last },
          buf := t.rx.buf, evCode := .none }
      ∧ (∀ k, k < 9 → memRead s.params.rxDepth t.rx.buf k = (headerBytes ty len c)[k]?)
      ∧ (∀ k, 9 ≤ k → memRead s.params.rxDepth t.rx.buf k = memRead s.params.rxDepth s.rx.buf k)

/-- Carry a list of (level, ticks) pairs on the channel. -/
def Sys2Proof.Spec.driveWave : List (Level × Nat) → State → State
  | [], s => s
  | (lv, d) :: rest, s => Sys2Proof.Spec.driveWave rest (holdLevel lv d s)

/-- The round trip at the tick level (R262, R169, R184, R196; "for any byte sequence `P`, `decode(encode(P))` with a
noiseless channel reproduces `P` exactly and CRC validation passes"): from the start delimiter on, the levels of any
frame that fits, heard in step, followed by one more tick of any level, end in a passed validation with the frame's
bytes in `RXBUF`. -/
def Obligations.FrameOnTheChannelIsReceived : Prop :=
  ∀ (s : State) (ty : BitVec 24) (payload : List Byte) (lv : Level), s.params.wf = true →
    s.now < 2 ^ s.params.wT → s.rx.rxState = .sof → s.wait = 0 → s.Noiseless →
    s.params.invalidLimit = 3 → s.params.efdSeed = true →
    9 + payload.length ≤ s.params.rxDepth → payload.length < 2 ^ 32 →
    elapsed s.params s.now s.rx.ses.phaseStart + 7 * s.params.tBit ≤ s.params.toSof →
    3 * s.params.tBit ≤ s.params.toInact → 8 * s.params.tBit + s.params.tHalf ≤ s.params.toGlobal →
    4 * s.params.tBit + s.params.tHalf ≤ s.params.toEof →
    let wave := (frameLevels s.params ty payload).drop 16 ++ [(lv, 1)]
    let t := Sys2Proof.Spec.driveWave wave s
    t.rx.evCode = .frameOk ∧ t.rx.rxState = .pre ∧ t.rx.res.resPass = true ∧ t.rx.res.resType = ty
      ∧ t.rx.res.resCount = 9 + payload.length
      ∧ ∀ k, k < 9 + payload.length → memRead s.params.rxDepth t.rx.buf k = (frameBytes ty payload)[k]?

/-- The noiseless round trip from the preamble on, at every sampling phase that R262 admits: a receiver in PRE that last
recorded LOW and has counted no flip, whose next invocation comes within `T_PRE` ticks, hears the levels of any frame
that fits and then `T_BIT` ticks of LOW; with the timeouts of R262 and none of the preamble phase, the frame is in
`RXBUF`, the validation has passed, and the receiver is back in PRE. -/
def Obligations.WholeFrameIsReceivedAtAnyPhase : Prop :=
  ∀ (s : State) (ty : BitVec 24) (payload : List Byte), s.params.wf = true → s.now < 2 ^ s.params.wT →
    s.rx.rxState = .pre → s.wait < s.params.tPre → s.rx.ses.lastLevelValid = true → s.rx.ses.lastLevel = false →
    s.rx.ses.transCount = 0 → s.Noiseless →
    2 * s.params.tPre ≤ s.params.tHalf → s.params.invalidLimit = 3 → s.params.efdSeed = true →
    9 + payload.length ≤ s.params.rxDepth → payload.length < 2 ^ 32 →
    elapsed s.params s.now s.rx.ses.phaseStart + 8 * s.params.tBit ≤ s.params.toPre →
    s.params.tPre + 24 * s.params.tBit ≤ s.params.toSof → 3 * s.params.tBit ≤ s.params.toInact →
    8 * s.params.tBit + s.params.tHalf ≤ s.params.toGlobal → 4 * s.params.tBit + s.params.tHalf ≤ s.params.toEof →
    let t := holdLevel false s.params.tBit (Sys2Proof.Spec.driveWave (frameLevels s.params ty payload) s)
    t.rx.rxState = .pre ∧ t.rx.res.resPass = true ∧ t.rx.res.resType = ty
      ∧ t.rx.res.resLen.toNat = payload.length ∧ t.rx.res.resCount = 9 + payload.length ∧ t.rx.cal = s.rx.cal
      ∧ ∀ k, k < 9 + payload.length → memRead s.params.rxDepth t.rx.buf k = (frameBytes ty payload)[k]?

/-! ## Reset, invariants, independence -/

/-- `RESET` (R250, R57): every register at its reset value, from any state; the buffers' bytes unchanged.  A tick with
`rst = 1` leaves exactly that, whatever else is on the input ports.  That the model's own fields are left as they are,
but for the ports' values and the number of the tick, is the model's choice, log entry 15. -/
def Obligations.ResetRestoresRegisters : Prop :=
  ∀ s : State,
    let t : State := { s with
      now := 0, wait := 0,
      rx :=
        { rxState := .cal,
          cal := { calCount := 0, calMin := 2 ^ s.params.wS - 1, calMax := 0, darkValue := 0, lightValue := 0,
                   threshold := 0, calDone := false },
          ses := { transCount := 0, lastLevel := false, lastLevelValid := false, lastTransTime := 0, win := [],
                   phaseStart := 0, pairHalf := false, firstLv := false, bitAcc := 0, bitCnt := 0, rxCount := 0,
                   rxOvf := false, invCount := 0, invRun := [], lastValidTime := 0, lastByteTime := 0 },
          res := { resPass := false, resTooShort := false, resCrcOk := false, resLenOk := false, resOvf := false,
                   resType := 0, resLen := 0, resCrcRx := 0, resCrcCalc := 0, resCount := 0 },
          evCode := .none, buf := s.rx.buf },
      tx := { txPhase := .idle, txIdx := 0, txBit := 7, txHalf := false, txTimer := 0, txEmitLeft := 0, txLen := 0,
              txCrc := 0xFFFF, txType := 0, txOvf := false, txOut := false, txDone := false, buf := s.tx.buf } }
    exec .reset s = .next t
      ∧ ∀ pins : Pins, pins.rst = true → tickWith pins s = { t with pins := pins, freeCtr := s.freeCtr + 1 }

/-- What holds of the registers holds at reset, for every instance that meets its constraints, the vector one among
them (R57). -/
def Obligations.ResetStateIsOk : Prop :=
  State.reset.Ok ∧ (∀ line ∈ State.reset.script, line.whole = true) ∧ ∀ p : Params, p.wf = true → (State.initial p).Ok

/-- Every step of the whole hardware keeps what holds of the registers: every range of 10_state.md, the canonical and
filled buffers (R62), the level of the sender's present position (R50), and `txCrc = CRC16(TXBUF[0 .. txLen-1])`
(R132).  A line that runs one operation alone is outside: it is not a tick of the hardware. -/
def Obligations.StepKeepsRegistersOk : Prop :=
  ∀ s t : State, s.Ok → (∀ line ∈ s.script, line.whole = true) → step s = .next t →
    t.Ok ∧ ∀ line ∈ t.script, line.whole = true

/-- Every step, of any line, from any state, keeps the buffers' canonical form and the instance's parameters (R8). -/
def Obligations.StepKeepsBuffersCanonical : Prop :=
  ∀ s t : State, Memory.wf s.params.rxDepth s.rx.buf = true → Memory.wf s.params.txDepth s.tx.buf = true →
    step s = .next t →
    t.params = s.params ∧ Memory.wf t.params.rxDepth t.rx.buf = true ∧ Memory.wf t.params.txDepth t.tx.buf = true

/-- The transitions of `rxState` in one tick with `rst = 0`, and no others (R210); nothing leads to CAL, and the
calibration registers are constant outside CAL (R126). -/
def Obligations.TransitionsFollowTheTable : Prop :=
  ∀ (s : State) (pins : Pins), pins.rst = false →
    let old := s.rx.rxState
    let new := (tickWith pins s).rx.rxState
    ((old, new) ∈ [(RxState.cal, RxState.cal), (.cal, .pre), (.pre, .pre), (.pre, .sof), (.sof, .sof), (.sof, .data),
        (.data, .pre), (.data, .eofs), (.data, .data), (.eofs, .data), (.eofs, .eofs), (.eofs, .proc), (.proc, .proc),
        (.proc, .pre)])
      ∧ (old = .proc → s.wait = 0 → new = .pre)
      ∧ (old ≠ .cal → (tickWith pins s).rx.cal = s.rx.cal)

/-- Receiver and sender share nothing (R15, R143, R236): the sender's next state does not depend on the receiver's
registers, `adc_in`, `now` or `wait`, nor the receiver's on the sender's registers or `tx_cmd`. -/
def Obligations.HalvesAreIndependent : Prop :=
  ∀ (s u : State) (a b : Pins), s.params = u.params → s.freeCtr = u.freeCtr → a.rst = b.rst →
    (s.tx = u.tx → a.txCmd = b.txCmd → (tickWith a s).tx = (tickWith b u).tx)
      ∧ (s.rx = u.rx → s.now = u.now → s.wait = u.wait → a.adcIn = b.adcIn →
        (tickWith a s).rx = (tickWith b u).rx ∧ (tickWith a s).now = (tickWith b u).now
          ∧ (tickWith a s).wait = (tickWith b u).wait)

/-- `adc_in` is read only at an invocation, and not by `VAL.STEP` (R202): at every other tick its value has no effect on
anything. -/
def Obligations.SampleMattersOnlyAtInvocations : Prop :=
  ∀ (s : State) (pins : Pins) (a : Nat),
    pins.rst = true ∨ s.wait ≠ 0 ∨ s.rx.rxState = .proc →
    (tickWith { pins with adcIn := a } s).setPins pins = tickWith pins s

/-- The host read port (R66): `rx_rdata` is the byte as it stands at the start of the tick, and reading has no side
effect: the address does not matter to the next state. -/
def Obligations.HostReadHasNoSideEffect : Prop :=
  ∀ (s : State) (pins : Pins) (a : Nat) (b : Byte),
    (a < s.params.rxDepth → memRead s.params.rxDepth s.rx.buf a = some b →
      (outputs s { pins with rxRaddr := a }).rxRdata = b)
      ∧ (tickWith { pins with rxRaddr := a } s).setPins pins = tickWith pins s
end

