-- ==== Sys2Proof/Laws/State.lean ====
section
/-! SUPPORT. One lemma per field per named update of the state record, and the fields of the shared records, so that no
proof unfolds an update. -/

namespace Sys2Proof.Machine

variable (s : State)

/-! ### `State.setRx` -/

@[simp] theorem State.setRx_params (r : Receiver) : (s.setRx r).params = s.params := rfl
@[simp] theorem State.setRx_now (r : Receiver) : (s.setRx r).now = s.now := rfl
@[simp] theorem State.setRx_wait (r : Receiver) : (s.setRx r).wait = s.wait := rfl
@[simp] theorem State.setRx_rx (r : Receiver) : (s.setRx r).rx = r := rfl
@[simp] theorem State.setRx_tx (r : Receiver) : (s.setRx r).tx = s.tx := rfl
@[simp] theorem State.setRx_pins (r : Receiver) : (s.setRx r).pins = s.pins := rfl
@[simp] theorem State.setRx_script (r : Receiver) : (s.setRx r).script = s.script := rfl
@[simp] theorem State.setRx_chanLight (r : Receiver) : (s.setRx r).chanLight = s.chanLight := rfl
@[simp] theorem State.setRx_chanDark (r : Receiver) : (s.setRx r).chanDark = s.chanDark := rfl
@[simp] theorem State.setRx_freeCtr (r : Receiver) : (s.setRx r).freeCtr = s.freeCtr := rfl

/-! ### `State.setTx` -/

@[simp] theorem State.setTx_params (t : Sender) : (s.setTx t).params = s.params := rfl
@[simp] theorem State.setTx_now (t : Sender) : (s.setTx t).now = s.now := rfl
@[simp] theorem State.setTx_wait (t : Sender) : (s.setTx t).wait = s.wait := rfl
@[simp] theorem State.setTx_rx (t : Sender) : (s.setTx t).rx = s.rx := rfl
@[simp] theorem State.setTx_tx (t : Sender) : (s.setTx t).tx = t := rfl
@[simp] theorem State.setTx_pins (t : Sender) : (s.setTx t).pins = s.pins := rfl
@[simp] theorem State.setTx_script (t : Sender) : (s.setTx t).script = s.script := rfl
@[simp] theorem State.setTx_chanLight (t : Sender) : (s.setTx t).chanLight = s.chanLight := rfl
@[simp] theorem State.setTx_chanDark (t : Sender) : (s.setTx t).chanDark = s.chanDark := rfl
@[simp] theorem State.setTx_freeCtr (t : Sender) : (s.setTx t).freeCtr = s.freeCtr := rfl

/-! ### `State.setNow` -/

@[simp] theorem State.setNow_params (n : Nat) : (s.setNow n).params = s.params := rfl
@[simp] theorem State.setNow_now (n : Nat) : (s.setNow n).now = n := rfl
@[simp] theorem State.setNow_wait (n : Nat) : (s.setNow n).wait = s.wait := rfl
@[simp] theorem State.setNow_rx (n : Nat) : (s.setNow n).rx = s.rx := rfl
@[simp] theorem State.setNow_tx (n : Nat) : (s.setNow n).tx = s.tx := rfl
@[simp] theorem State.setNow_pins (n : Nat) : (s.setNow n).pins = s.pins := rfl
@[simp] theorem State.setNow_script (n : Nat) : (s.setNow n).script = s.script := rfl
@[simp] theorem State.setNow_chanLight (n : Nat) : (s.setNow n).chanLight = s.chanLight := rfl
@[simp] theorem State.setNow_chanDark (n : Nat) : (s.setNow n).chanDark = s.chanDark := rfl
@[simp] theorem State.setNow_freeCtr (n : Nat) : (s.setNow n).freeCtr = s.freeCtr := rfl

/-! ### `State.setWait` -/

@[simp] theorem State.setWait_params (n : Nat) : (s.setWait n).params = s.params := rfl
@[simp] theorem State.setWait_now (n : Nat) : (s.setWait n).now = s.now := rfl
@[simp] theorem State.setWait_wait (n : Nat) : (s.setWait n).wait = n := rfl
@[simp] theorem State.setWait_rx (n : Nat) : (s.setWait n).rx = s.rx := rfl
@[simp] theorem State.setWait_tx (n : Nat) : (s.setWait n).tx = s.tx := rfl
@[simp] theorem State.setWait_pins (n : Nat) : (s.setWait n).pins = s.pins := rfl
@[simp] theorem State.setWait_script (n : Nat) : (s.setWait n).script = s.script := rfl
@[simp] theorem State.setWait_chanLight (n : Nat) : (s.setWait n).chanLight = s.chanLight := rfl
@[simp] theorem State.setWait_chanDark (n : Nat) : (s.setWait n).chanDark = s.chanDark := rfl
@[simp] theorem State.setWait_freeCtr (n : Nat) : (s.setWait n).freeCtr = s.freeCtr := rfl

/-! ### `State.setPins` -/

@[simp] theorem State.setPins_params (p : Pins) : (s.setPins p).params = s.params := rfl
@[simp] theorem State.setPins_now (p : Pins) : (s.setPins p).now = s.now := rfl
@[simp] theorem State.setPins_wait (p : Pins) : (s.setPins p).wait = s.wait := rfl
@[simp] theorem State.setPins_rx (p : Pins) : (s.setPins p).rx = s.rx := rfl
@[simp] theorem State.setPins_tx (p : Pins) : (s.setPins p).tx = s.tx := rfl
@[simp] theorem State.setPins_pins (p : Pins) : (s.setPins p).pins = p := rfl
@[simp] theorem State.setPins_script (p : Pins) : (s.setPins p).script = s.script := rfl
@[simp] theorem State.setPins_chanLight (p : Pins) : (s.setPins p).chanLight = s.chanLight := rfl
@[simp] theorem State.setPins_chanDark (p : Pins) : (s.setPins p).chanDark = s.chanDark := rfl
@[simp] theorem State.setPins_freeCtr (p : Pins) : (s.setPins p).freeCtr = s.freeCtr := rfl

/-! ### `State.setScript` -/

@[simp] theorem State.setScript_params (l : List Line) : (s.setScript l).params = s.params := rfl
@[simp] theorem State.setScript_now (l : List Line) : (s.setScript l).now = s.now := rfl
@[simp] theorem State.setScript_wait (l : List Line) : (s.setScript l).wait = s.wait := rfl
@[simp] theorem State.setScript_rx (l : List Line) : (s.setScript l).rx = s.rx := rfl
@[simp] theorem State.setScript_tx (l : List Line) : (s.setScript l).tx = s.tx := rfl
@[simp] theorem State.setScript_pins (l : List Line) : (s.setScript l).pins = s.pins := rfl
@[simp] theorem State.setScript_script (l : List Line) : (s.setScript l).script = l := rfl
@[simp] theorem State.setScript_chanLight (l : List Line) : (s.setScript l).chanLight = s.chanLight := rfl
@[simp] theorem State.setScript_chanDark (l : List Line) : (s.setScript l).chanDark = s.chanDark := rfl
@[simp] theorem State.setScript_freeCtr (l : List Line) : (s.setScript l).freeCtr = s.freeCtr := rfl

/-! ### `State.setChan` -/

@[simp] theorem State.setChan_params (a b : Nat) : (s.setChan a b).params = s.params := rfl
@[simp] theorem State.setChan_now (a b : Nat) : (s.setChan a b).now = s.now := rfl
@[simp] theorem State.setChan_wait (a b : Nat) : (s.setChan a b).wait = s.wait := rfl
@[simp] theorem State.setChan_rx (a b : Nat) : (s.setChan a b).rx = s.rx := rfl
@[simp] theorem State.setChan_tx (a b : Nat) : (s.setChan a b).tx = s.tx := rfl
@[simp] theorem State.setChan_pins (a b : Nat) : (s.setChan a b).pins = s.pins := rfl
@[simp] theorem State.setChan_script (a b : Nat) : (s.setChan a b).script = s.script := rfl
@[simp] theorem State.setChan_chanLight (a b : Nat) : (s.setChan a b).chanLight = a := rfl
@[simp] theorem State.setChan_chanDark (a b : Nat) : (s.setChan a b).chanDark = b := rfl
@[simp] theorem State.setChan_freeCtr (a b : Nat) : (s.setChan a b).freeCtr = s.freeCtr := rfl

/-! ### `State.bumpFree` -/

@[simp] theorem State.bumpFree_params : (s.bumpFree).params = s.params := rfl
@[simp] theorem State.bumpFree_now : (s.bumpFree).now = s.now := rfl
@[simp] theorem State.bumpFree_wait : (s.bumpFree).wait = s.wait := rfl
@[simp] theorem State.bumpFree_rx : (s.bumpFree).rx = s.rx := rfl
@[simp] theorem State.bumpFree_tx : (s.bumpFree).tx = s.tx := rfl
@[simp] theorem State.bumpFree_pins : (s.bumpFree).pins = s.pins := rfl
@[simp] theorem State.bumpFree_script : (s.bumpFree).script = s.script := rfl
@[simp] theorem State.bumpFree_chanLight : (s.bumpFree).chanLight = s.chanLight := rfl
@[simp] theorem State.bumpFree_chanDark : (s.bumpFree).chanDark = s.chanDark := rfl
@[simp] theorem State.bumpFree_freeCtr : (s.bumpFree).freeCtr = s.freeCtr + 1 := rfl

/-! ### `State.setCrc` -/

@[simp] theorem State.setCrc_params (c : BitVec 16) : (s.setCrc c).params = s.params := rfl
@[simp] theorem State.setCrc_now (c : BitVec 16) : (s.setCrc c).now = s.now := rfl
@[simp] theorem State.setCrc_wait (c : BitVec 16) : (s.setCrc c).wait = s.wait := rfl
@[simp] theorem State.setCrc_rx (c : BitVec 16) : (s.setCrc c).rx = s.rx := rfl
@[simp] theorem State.setCrc_tx (c : BitVec 16) : (s.setCrc c).tx = { s.tx with txCrc := c } := rfl
@[simp] theorem State.setCrc_pins (c : BitVec 16) : (s.setCrc c).pins = s.pins := rfl
@[simp] theorem State.setCrc_script (c : BitVec 16) : (s.setCrc c).script = s.script := rfl
@[simp] theorem State.setCrc_chanLight (c : BitVec 16) : (s.setCrc c).chanLight = s.chanLight := rfl
@[simp] theorem State.setCrc_chanDark (c : BitVec 16) : (s.setCrc c).chanDark = s.chanDark := rfl
@[simp] theorem State.setCrc_freeCtr (c : BitVec 16) : (s.setCrc c).freeCtr = s.freeCtr := rfl

/-! ### `resetRegisters` -/

@[simp] theorem resetRegisters_params : (resetRegisters s).params = s.params := rfl
@[simp] theorem resetRegisters_now : (resetRegisters s).now = 0 := rfl
@[simp] theorem resetRegisters_wait : (resetRegisters s).wait = 0 := rfl
@[simp] theorem resetRegisters_rx : (resetRegisters s).rx = Receiver.initial s.params s.rx.buf := rfl
@[simp] theorem resetRegisters_tx : (resetRegisters s).tx = Sender.initial s.tx.buf := rfl
@[simp] theorem resetRegisters_pins : (resetRegisters s).pins = s.pins := rfl
@[simp] theorem resetRegisters_script : (resetRegisters s).script = s.script := rfl
@[simp] theorem resetRegisters_chanLight : (resetRegisters s).chanLight = s.chanLight := rfl
@[simp] theorem resetRegisters_chanDark : (resetRegisters s).chanDark = s.chanDark := rfl
@[simp] theorem resetRegisters_freeCtr : (resetRegisters s).freeCtr = s.freeCtr := rfl

/-! ### `State.invoke` -/

@[simp] theorem State.invoke_params : s.invoke.params = s.params := rfl
@[simp] theorem State.invoke_now : s.invoke.now = s.now := rfl
@[simp] theorem State.invoke_wait : s.invoke.wait = s.wait := rfl
@[simp] theorem State.invoke_rx : s.invoke.rx = raiseEvent (handle s.params s.freeCtr s.now s.sample s.rx) := rfl
@[simp] theorem State.invoke_tx : s.invoke.tx = s.tx := rfl
@[simp] theorem State.invoke_pins : s.invoke.pins = s.pins := rfl
@[simp] theorem State.invoke_script : s.invoke.script = s.script := rfl
@[simp] theorem State.invoke_chanLight : s.invoke.chanLight = s.chanLight := rfl
@[simp] theorem State.invoke_chanDark : s.invoke.chanDark = s.chanDark := rfl
@[simp] theorem State.invoke_freeCtr : s.invoke.freeCtr = s.freeCtr := rfl

/-! ### `raiseEvent`, `restart`, `fresh` -/

variable (out : Receiver × Event) (r : Receiver) (now : Nat)

@[simp] theorem raiseEvent_rxState : (raiseEvent out).rxState = out.1.rxState := rfl
@[simp] theorem raiseEvent_cal : (raiseEvent out).cal = out.1.cal := rfl
@[simp] theorem raiseEvent_ses : (raiseEvent out).ses = out.1.ses := rfl
@[simp] theorem raiseEvent_res : (raiseEvent out).res = out.1.res := rfl
@[simp] theorem raiseEvent_buf : (raiseEvent out).buf = out.1.buf := rfl
@[simp] theorem raiseEvent_evCode : (raiseEvent out).evCode = out.2 := rfl

@[simp] theorem restart_rxState : (restart now r).rxState = .pre := rfl
@[simp] theorem restart_cal : (restart now r).cal = r.cal := rfl
@[simp] theorem restart_ses : (restart now r).ses = fresh now := rfl
@[simp] theorem restart_res : (restart now r).res = r.res := rfl
@[simp] theorem restart_evCode : (restart now r).evCode = r.evCode := rfl
@[simp] theorem restart_buf : (restart now r).buf = r.buf := rfl

@[simp] theorem fresh_transCount : (fresh now).transCount = 0 := rfl
@[simp] theorem fresh_lastLevel : (fresh now).lastLevel = false := rfl
@[simp] theorem fresh_lastLevelValid : (fresh now).lastLevelValid = false := rfl
@[simp] theorem fresh_lastTransTime : (fresh now).lastTransTime = 0 := rfl
@[simp] theorem fresh_win : (fresh now).win = [] := rfl
@[simp] theorem fresh_phaseStart : (fresh now).phaseStart = now := rfl
@[simp] theorem fresh_pairHalf : (fresh now).pairHalf = false := rfl
@[simp] theorem fresh_firstLv : (fresh now).firstLv = false := rfl
@[simp] theorem fresh_bitAcc : (fresh now).bitAcc = 0 := rfl
@[simp] theorem fresh_bitCnt : (fresh now).bitCnt = 0 := rfl
@[simp] theorem fresh_rxCount : (fresh now).rxCount = 0 := rfl
@[simp] theorem fresh_rxOvf : (fresh now).rxOvf = false := rfl
@[simp] theorem fresh_invCount : (fresh now).invCount = 0 := rfl
@[simp] theorem fresh_invRun : (fresh now).invRun = [] := rfl
@[simp] theorem fresh_lastValidTime : (fresh now).lastValidTime = now := rfl
@[simp] theorem fresh_lastByteTime : (fresh now).lastByteTime = now := rfl

/-- At reset the session is as `fresh(0)` gives it (R40, R57). -/
theorem fresh_zero : fresh 0 = Session.initial := rfl

end Sys2Proof.Machine
end

