-- ==== Sys2Proof/Laws/Memory.lean ====
section
/-! SUPPORT. The buffers: what a read answers after a write, and that every write keeps the canonical form. -/

namespace Sys2Proof.Machine

variable {m : Memory} {d a k : Nat} {b : Byte}

theorem memLookup_memInsert (m : Memory) (a : Nat) (b : Byte) (k : Nat) :
    memLookup (memInsert m a b) k = if a = k then some b else memLookup m k := by
  induction m with
  | nil => simp [memInsert, memLookup]
  | cons c rest ih =>
    obtain ⟨c, v⟩ := c
    unfold memInsert
    split
    · simp [memLookup]
    · split
      · subst_vars
        by_cases h : c = k <;> simp [memLookup, h]
      · rename_i h1 h2
        by_cases hc : c = k
        · subst hc
          simp [memLookup, h2]
        · simp [memLookup, hc, ih]

/-- A read of the byte a write stored answers it; every other byte reads as before (R63). -/
theorem memRead_memWrite (m : Memory) (d a k : Nat) (b : Byte) :
    memRead d (memWrite d m a b) k = if a = k ∧ a < d then some b else memRead d m k := by
  unfold memRead memWrite
  by_cases ha : a < d
  · by_cases hk : k < d
    · by_cases hak : a = k <;> simp [ha, hk, memLookup_memInsert, hak]
    · have : a ≠ k := by omega
      simp [hk, this]
  · simp [ha]

@[simp] theorem memRead_memWrite_same (h : a < d) : memRead d (memWrite d m a b) a = some b := by
  simp [memRead_memWrite, h]

theorem memRead_memWrite_other (h : a ≠ k) : memRead d (memWrite d m a b) k = memRead d m k := by
  simp [memRead_memWrite, h]

theorem memSorted_weaken {lo hi : Nat} (h : lo ≤ hi) :
    memSorted d (some hi) m = true → memSorted d (some lo) m = true := by
  cases m with
  | nil => simp [memSorted]
  | cons c rest =>
    obtain ⟨c, v⟩ := c
    simp only [memSorted, Bool.and_eq_true, decide_eq_true_eq]
    rintro ⟨⟨h1, h2⟩, h3⟩
    exact ⟨⟨by omega, h2⟩, h3⟩

theorem memSorted_none_of_some {lo : Nat} : memSorted d (some lo) m = true → memSorted d none m = true := by
  cases m with
  | nil => simp [memSorted]
  | cons c rest => simp +contextual [memSorted]

theorem memSorted_memInsert {lo : Option Nat} (ha : a < d) (hlo : ∀ l, lo = some l → l < a)
    (h : memSorted d lo m = true) : memSorted d lo (memInsert m a b) = true := by
  induction m generalizing lo with
  | nil => cases lo <;> simp_all [memInsert, memSorted]
  | cons c rest ih =>
    obtain ⟨c, v⟩ := c
    simp only [memSorted, Bool.and_eq_true, decide_eq_true_eq] at h
    unfold memInsert
    split
    · rename_i hac
      cases lo <;> simp_all [memSorted]
    · split
      · subst_vars
        cases lo <;> simp_all [memSorted]
      · have hca : c < a := by omega
        have := ih (lo := some c) (by intro l hl; injection hl with hl; omega) h.2
        cases lo <;> simp_all [memSorted]

/-- A write keeps the canonical form. -/
theorem memWrite_wf (h : Memory.wf d m = true) : Memory.wf d (memWrite d m a b) = true := by
  unfold memWrite
  split
  · exact memSorted_memInsert ‹_› (by simp) h
  · exact h

@[simp] theorem memWf_nil : Memory.wf d [] = true := rfl

theorem memRead_isSome_lt {x : Byte} (h : memRead d m a = some x) : a < d := by
  unfold memRead at h
  by_contra hc
  simp [hc] at h

/-- Which bytes hold values. -/
theorem memFilled_iff {n : Nat} : memFilled d m n = true ↔ ∀ k < n, ∃ x, memRead d m k = some x := by
  simp [memFilled, Option.isSome_iff_exists]

@[simp] theorem memFilled_zero : memFilled d m 0 = true := rfl

/-- A write fills one more byte. -/
theorem memFilled_memWrite {n : Nat} (hn : n < d) (h : memFilled d m n = true) :
    memFilled d (memWrite d m n b) (n + 1) = true := by
  rw [memFilled_iff] at *
  intro k hk
  rw [memRead_memWrite]
  by_cases hkn : n = k
  · exact ⟨b, by simp [hkn]; omega⟩
  · simp only [hkn, false_and, if_false]
    exact h k (by omega)

theorem memFilled_memWrite_of_le {n : Nat} (h : memFilled d m n = true) :
    memFilled d (memWrite d m a b) n = true := by
  rw [memFilled_iff] at *
  intro k hk
  rw [memRead_memWrite]
  split
  · exact ⟨b, rfl⟩
  · exact h k hk

/-- An offset at or below the lower bound of a rising list is not listed. -/
theorem memLookup_of_memSorted {lo : Nat} (h : memSorted d (some lo) m = true) (hk : k ≤ lo) :
    memLookup m k = none := by
  induction m generalizing lo with
  | nil => rfl
  | cons c rest ih =>
    obtain ⟨c, v⟩ := c
    simp only [memSorted, Bool.and_eq_true, decide_eq_true_eq] at h
    have hne : c ≠ k := by omega
    simp [memLookup, hne, ih h.2 (by omega)]

end Sys2Proof.Machine
end

