-- ==== Sys2Proof/Laws/Ops.lean ====
section
/-! SUPPORT. What the shared operations can do: timers, the pattern search, CRC, symbols. -/

namespace Sys2Proof.Machine

variable {p : Params} {now t0 : Nat}

/-! ## Time -/

theorem elapsed_lt : elapsed p now t0 < 2 ^ p.wT := Nat.mod_lt _ (Nat.two_pow_pos _)

theorem nextNow_lt : nextNow p now < 2 ^ p.wT := Nat.mod_lt _ (Nat.two_pow_pos _)

theorem expired_iff {timeout : Nat} : expired p now t0 timeout = true ↔ timeout < elapsed p now t0 := by
  simp [expired]

theorem not_expired_iff {timeout : Nat} : expired p now t0 timeout = false ↔ elapsed p now t0 ≤ timeout := by
  simp [expired]

/-- `elapsed` counts ticks while fewer than `2^W_T` have passed (R206). -/
theorem elapsed_add {k : Nat} (hk : k < 2 ^ p.wT) : elapsed p ((t0 + k) % 2 ^ p.wT) (t0 % 2 ^ p.wT) = k := by
  unfold elapsed
  set N := 2 ^ p.wT with hN
  have hN0 : 0 < N := Nat.two_pow_pos _
  have hb : t0 % N < N := Nat.mod_lt _ hN0
  have hmm : t0 % N % N = t0 % N := Nat.mod_mod _ _
  rw [hmm]
  have h1 : (t0 + k) % N = (t0 % N + k) % N := by simp [Nat.add_mod]
  rw [h1]
  have h2 : ((t0 % N + k) % N + (N - t0 % N)) % N = (t0 % N + k + (N - t0 % N)) % N := by
    simp [Nat.add_mod]
  rw [h2]
  have h3 : t0 % N + k + (N - t0 % N) = k + N := by omega
  rw [h3, Nat.add_mod_right, Nat.mod_eq_of_lt hk]

/-- A timer that has not wrapped goes on counting (R206). -/
theorem elapsed_advance {k : Nat} (h : elapsed p now t0 + k < 2 ^ p.wT) :
    elapsed p ((now + k) % 2 ^ p.wT) t0 = elapsed p now t0 + k := by
  unfold elapsed at *
  rw [Nat.mod_add_mod, show now + k + (2 ^ p.wT - t0 % 2 ^ p.wT) = now + (2 ^ p.wT - t0 % 2 ^ p.wT) + k by omega,
    Nat.add_mod _ k]
  have hk : k % 2 ^ p.wT = k := Nat.mod_eq_of_lt (by omega)
  rw [hk, Nat.mod_eq_of_lt h]

theorem elapsed_self : elapsed p (t0 % 2 ^ p.wT) (t0 % 2 ^ p.wT) = 0 := by
  simpa using elapsed_add (p := p) (t0 := t0) (k := 0) (Nat.two_pow_pos _)

/-! ## Levels and windows -/

theorem length_lastN_le (xs : List Level) (n : Nat) : (lastN xs n).length ≤ n := by
  simp only [lastN, List.length_drop]
  omega

theorem length_lastN (xs : List Level) (n : Nat) : (lastN xs n).length = min xs.length n := by
  simp only [lastN, List.length_drop]
  omega

theorem lastN_of_length_le {xs : List Level} {n : Nat} (h : xs.length ≤ n) : lastN xs n = xs := by
  simp [lastN, Nat.sub_eq_zero_of_le h]

theorem lastN_append (xs ys : List Level) : lastN (xs ++ ys) ys.length = ys := by
  simp [lastN]

/-- Cutting to a longer suffix first changes nothing. -/
theorem lastN_lastN (xs : List Level) {m n : Nat} (h : n ≤ m) : lastN (lastN xs m) n = lastN xs n := by
  simp only [lastN, List.length_drop, List.drop_drop]
  congr 1
  omega

/-- The last `n` of `xs ++ [lv]` need only the last `n` of `xs`. -/
theorem lastN_append_singleton (xs : List Level) (lv : Level) {m n : Nat} (h : n ≤ m) :
    lastN (lastN xs m ++ [lv]) n = lastN (xs ++ [lv]) n := by
  rcases n with _ | n
  · simp [lastN]
  · simp only [lastN, List.length_append, List.length_drop, List.length_singleton]
    rw [List.drop_append_of_le_length (by simp only [List.length_drop]; omega),
      List.drop_append_of_le_length (by omega), List.drop_drop]
    congr 2
    omega

@[simp] theorem length_bitsMsbFirst (n v : Nat) : (bitsMsbFirst n v).length = n := by
  induction n with
  | zero => rfl
  | succ n ih => simp [bitsMsbFirst, ih]

/-- All that a pattern search can answer (R155). -/
theorem search_cases (win : List Level) (lv : Level) (pat : Byte) :
    (search win lv pat = .isMatch ∧ 8 ≤ win.length + 1 ∧ lastN (win ++ [lv]) 8 = bitsMsbFirst 8 pat.toNat) ∨
    (search win lv pat = .window (lastN (win ++ [lv]) 16)
      ∧ ¬ (8 ≤ win.length + 1 ∧ lastN (win ++ [lv]) 8 = bitsMsbFirst 8 pat.toNat)) := by
  unfold search
  simp only [Config.patLen, Config.winMax, List.length_append, List.length_singleton]
  split
  · exact .inl ⟨rfl, ‹_ ∧ _›⟩
  · exact .inr ⟨rfl, ‹_›⟩

theorem search_isMatch_iff {win : List Level} {lv : Level} {pat : Byte} :
    search win lv pat = .isMatch ↔ 8 ≤ win.length + 1 ∧ lastN (win ++ [lv]) 8 = bitsMsbFirst 8 pat.toNat := by
  rcases search_cases win lv pat with ⟨h, h1⟩ | ⟨h, h1⟩ <;> simp_all

theorem search_window {win w : List Level} {lv : Level} {pat : Byte} (h : search win lv pat = .window w) :
    w = lastN (win ++ [lv]) 16 := by
  rcases search_cases win lv pat with ⟨h1, -⟩ | ⟨h1, -⟩
  · rw [h1] at h
    cases h
  · rw [h1] at h
    cases h
    rfl

/-! ## CRC -/

/-- Appending is streaming (R114). -/
theorem crc16_append (xs ys : List Byte) : crc16 (xs ++ ys) = ys.foldl crcUpdate (crc16 xs) := by
  simp [crc16, List.foldl_append]

theorem crc16_concat (xs : List Byte) (b : Byte) : crc16 (xs ++ [b]) = crcUpdate (crc16 xs) b := by
  simp [crc16_append]

/-! ## Symbols -/

@[simp] theorem length_byteLevels (b : Byte) : (byteLevels b).length = 16 := by
  simp [byteLevels, List.length_flatMap, symbolLevels]

@[simp] theorem length_bytesLevels (bs : List Byte) : (bytesLevels bs).length = 16 * bs.length := by
  induction bs with
  | nil => rfl
  | cons b bs ih =>
    simp only [bytesLevels, List.flatMap_cons, List.length_append, length_byteLevels, List.length_cons] at *
    omega

@[simp] theorem length_headerBytes (ty : BitVec 24) (n : BitVec 32) (c : BitVec 16) :
    (headerBytes ty n c).length = 9 := rfl

@[simp] theorem length_frameBytes (ty : BitVec 24) (bs : List Byte) : (frameBytes ty bs).length = 9 + bs.length := by
  simp [frameBytes]

/-- `shiftIn` in numbers (R164): twice the accumulator, plus the new bit, modulo 256. -/
theorem shiftIn_toNat (acc : Byte) (b : Level) : (shiftIn acc b).toNat = (2 * acc.toNat + b.toNat) % 256 := by
  have h := acc.isLt
  cases b
  · simp [shiftIn, Nat.shiftLeft_eq, Nat.mul_comm]
  · have : shiftIn acc true = acc <<< 1 + 1#8 := by
      unfold shiftIn
      revert acc
      decide
    rw [this]
    simp [Nat.shiftLeft_eq, Nat.mul_comm, Nat.add_mod]

end Sys2Proof.Machine
end

