-- ==== Sys2Proof/Laws/Handlers.lean ====
section
/-! SUPPORT. The receiver's handlers: what each leaves alone, and that each keeps the ranges of its registers. -/

namespace Sys2Proof.Machine

variable {p : Params} {ctr now smp : Nat} {r : Receiver}

/-! ## The constraints of a configuration -/

/-- What `Params.wf` says, as numbers (R8, R9). -/
theorem Params.wf_facts (h : p.wf = true) :
    1 ≤ p.wS ∧ 2 ≤ p.tBit ∧ p.tBit % 2 = 0 ∧ 1 ≤ p.tPre ∧ 1 ≤ p.nCal ∧ 1 ≤ p.tCal ∧ 1 ≤ p.nEmit ∧ 1 ≤ p.tIdle
      ∧ 1 ≤ p.invalidLimit ∧ 9 ≤ p.rxDepth ∧ p.txDepth ≤ 2 ^ 32 - 1 ∧ p.toInact < p.toGlobal
      ∧ p.toPre + p.longestPeriod < 2 ^ p.wT ∧ p.toSof + p.longestPeriod < 2 ^ p.wT
      ∧ p.toGlobal + p.longestPeriod < 2 ^ p.wT ∧ p.toInact + p.longestPeriod < 2 ^ p.wT
      ∧ p.toEof + p.longestPeriod < 2 ^ p.wT := by
  simpa [Params.wf, Params.checks, Params.fits, and_assoc] using h

theorem period_pos (h : p.wf = true) (st : RxState) : 0 < period p st := by
  have := Params.wf_facts h
  cases st <;> simp only [period, Params.tHalf] <;> omega

theorem period_le (st : RxState) (h : p.wf = true) : period p st ≤ p.longestPeriod := by
  have := Params.wf_facts h
  cases st <;> simp only [period, Params.tHalf, Params.longestPeriod] <;> omega

/-! ## What a handler leaves alone -/

/-- Only `CAL.STEP` writes the calibration registers (R25, R26). -/
theorem handle_cal (h : r.rxState ≠ .cal) : (handle p ctr now smp r).1.cal = r.cal := by
  unfold handle
  split
  · contradiction
  · unfold preHandler; dsimp only; split_ifs <;> rfl
  · unfold sofHandler; dsimp only; split_ifs
    · rfl
    · split <;> rfl
  · unfold decHandler validSymbol invalidSymbol completeByte; dsimp only; split_ifs <;> rfl
  · unfold eofHandler; dsimp only; split_ifs
    · rfl
    · split <;> rfl
  · rfl

/-- Only `VAL.STEP` writes the result registers (R41). -/
theorem handle_res (h : r.rxState ≠ .proc) : (handle p ctr now smp r).1.res = r.res := by
  unfold handle
  split
  · unfold calHandler; dsimp only; split_ifs <;> rfl
  · unfold preHandler; dsimp only; split_ifs <;> rfl
  · unfold sofHandler; dsimp only; split_ifs
    · rfl
    · split <;> rfl
  · unfold decHandler validSymbol invalidSymbol completeByte; dsimp only; split_ifs <;> rfl
  · unfold eofHandler; dsimp only; split_ifs
    · rfl
    · split <;> rfl
  · contradiction

/-- Only `DEC.STEP` writes `RXBUF`, and only at offset `rxCount` (R61, R65). -/
theorem handle_buf :
    ((handle p ctr now smp r).1.buf = r.buf ∧ (handle p ctr now smp r).1.ses.rxCount ≤ r.ses.rxCount) ∨
    (r.rxState = .data ∧ r.ses.rxCount < p.rxDepth ∧ (handle p ctr now smp r).1.ses.rxCount = r.ses.rxCount + 1
      ∧ ∃ b, (handle p ctr now smp r).1.buf = memWrite p.rxDepth r.buf r.ses.rxCount b) := by
  unfold handle
  split
  · left
    unfold calHandler
    dsimp only
    by_cases h : r.cal.calCount + 1 = p.nCal <;> simp [h]
  · left; unfold preHandler; dsimp only; split_ifs <;> exact ⟨rfl, le_refl _⟩
  · left; unfold sofHandler; dsimp only; split_ifs
    · exact ⟨rfl, le_refl _⟩
    · split <;> simp [startFrame]
  · unfold decHandler validSymbol invalidSymbol completeByte
    dsimp only
    split_ifs
    all_goals first
      | exact .inl ⟨rfl, le_refl _⟩
      | exact .inl ⟨rfl, Nat.zero_le _⟩
      | exact .inr ⟨‹_›, ‹_›, rfl, _, rfl⟩
  · left; unfold eofHandler; dsimp only; split_ifs
    · exact ⟨rfl, le_refl _⟩
    · split <;> simp
  · exact .inl ⟨rfl, Nat.zero_le _⟩

/-! ## Ranges -/

theorem Session.Ok.fresh (hwf : p.wf = true) (hn : now < 2 ^ p.wT) : Session.Ok p (fresh now) := by
  have := Params.wf_facts hwf
  have h0 : 0 < 2 ^ p.wT := Nat.two_pow_pos _
  constructor <;> simp [Config.preTrans, h0, hn]
  omega

theorem Calibration.Ok.handle (hs : smp < 2 ^ p.wS) (h : Calibration.Ok p r.rxState r.cal) :
    Calibration.Ok p (calHandler p now smp r).1.rxState (calHandler p now smp r).1.cal ∨ r.rxState ≠ .cal := by
  by_cases hst : r.rxState = .cal
  swap
  · exact .inr hst
  left
  obtain ⟨h1, h2, hrun, -, -, hno⟩ := h
  obtain ⟨hd, hc⟩ := hrun hst
  obtain ⟨n1, n2, n3⟩ := hno hd
  unfold calHandler
  dsimp only
  by_cases hlast : r.cal.calCount + 1 = p.nCal
  · rw [if_pos hlast]
    refine ⟨?_, ?_, ?_, ?_, ?_, ?_⟩ <;> simp [restart, midpoint, hlast]
    · omega
    · omega
  · rw [if_neg hlast]
    refine ⟨?_, ?_, ?_, ?_, ?_, ?_⟩ <;> simp [hst, hd, n1, n2, n3]
    · omega
    · omega
    · omega

/-- A calibration stays as it is while `rxState` is not CAL, whatever the phase (R126). -/
theorem Calibration.Ok.keep {c : Calibration} {st st' : RxState} (h : Calibration.Ok p st c) (h1 : st ≠ .cal)
    (h2 : st' ≠ .cal) : Calibration.Ok p st' c :=
  ⟨h.calMin_lt, h.calMax_lt, fun e => absurd e h2, fun _ => h.finished h1, h.result, h.noResult⟩

theorem validation_ok (ses : Session) (hle : ses.rxCount ≤ p.rxDepth) (buf : Memory) :
    Results.Ok p (validation p ctr ses buf) := by
  unfold validation
  dsimp only
  split_ifs with h
  · exact ⟨hle, by simp, by simp [h]⟩
  · exact ⟨hle, rfl, by simp⟩

theorem shiftIn_lt {acc : Byte} {n : Nat} {b : Level} (h : acc.toNat < 2 ^ n) :
    (shiftIn acc b).toNat < 2 ^ (n + 1) := by
  rw [shiftIn_toNat, Nat.pow_succ]
  have : b.toNat ≤ 1 := by cases b <;> simp
  have := Nat.mod_le (2 * acc.toNat + b.toNat) 256
  omega

theorem Session.Ok.enterEofs (hwf : p.wf = true) (hn : now < 2 ^ p.wT) {run : List Level} (h : Session.Ok p r.ses) :
    Session.Ok p (enterEofs p now run r).ses := by
  have := Params.wf_facts hwf
  obtain ⟨a1, a2, a3, a4, a5, a6, a7, a8, a9, a10, a11, a12⟩ := h
  unfold Machine.enterEofs
  refine ⟨a1, a2, ?_, hn, a5, a6, a7, a8, rfl, ?_, a11, a12⟩
  · dsimp only
    split_ifs
    · exact length_lastN_le _ _
    · simp [Config.winMax]
  · dsimp only
    omega

theorem Session.Ok.handle (hwf : p.wf = true) (hn : now < 2 ^ p.wT) (h : Session.Ok p r.ses) :
    Session.Ok p (handle p ctr now smp r).1.ses := by
  have hp := Params.wf_facts hwf
  have hfresh : Session.Ok p (Machine.fresh now) := Session.Ok.fresh hwf hn
  obtain ⟨a1, a2, a3, a4, a5, a6, a7, a8, a9, a10, a11, a12⟩ := id h
  unfold Machine.handle
  split
  · unfold calHandler
    dsimp only
    by_cases hlast : r.cal.calCount + 1 = p.nCal
    · rw [if_pos hlast]
      exact hfresh
    · rw [if_neg hlast]
      exact h
  · unfold preHandler
    dsimp only
    split_ifs
    · exact ⟨by simp [Config.preTrans], a2, a3, hn, a5, a6, a7, a8, a9, a10, a11, a12⟩
    · exact ⟨a1, a2, a3, a4, a5, a6, a7, a8, a9, a10, a11, a12⟩
    · exact ⟨by simp [Config.preTrans], hn, by simp, hn, a5, a6, a7, a8, a9, a10, a11, a12⟩
    · exact ⟨by simp only [Config.preTrans] at *; omega, hn, a3, a4, a5, a6, a7, a8, a9, a10, a11, a12⟩
    · exact h
  · unfold sofHandler
    dsimp only
    split_ifs
    · exact ⟨a1, a2, by simp, hn, a5, a6, a7, a8, a9, a10, a11, a12⟩
    · split
      · exact ⟨a1, a2, by simp [startFrame], a4, by simp [startFrame], by simp [startFrame], by simp [startFrame],
          by simp [startFrame], rfl, by simp [startFrame]; omega, hn, hn⟩
      · rename_i w hw
        rw [search_window hw]
        exact ⟨a1, a2, length_lastN_le _ _, a4, a5, a6, a7, a8, a9, a10, a11, a12⟩
  · unfold decHandler
    dsimp only
    split_ifs
    · exact hfresh
    · exact Session.Ok.enterEofs hwf hn h
    · exact ⟨a1, a2, a3, a4, a5, a6, a7, a8, a9, a10, a11, a12⟩
    · unfold validSymbol completeByte
      dsimp only
      split_ifs
      · exact ⟨a1, a2, a3, a4, by simp, by simp, by simp; omega, by simp; intro e; have := a8 e; omega, rfl,
          by simp; omega, hn, hn⟩
      · exact ⟨a1, a2, a3, a4, by simp, by simp, a7, by simp; omega, rfl, by simp; omega, hn, hn⟩
      · exact ⟨a1, a2, a3, a4, by simp; omega, shiftIn_lt a6, a7, a8, rfl, by simp; omega, hn, a12⟩
    · unfold invalidSymbol
      dsimp only
      split_ifs
      · exact Session.Ok.enterEofs hwf hn ⟨a1, a2, a3, a4, a5, a6, a7, a8, a9, a10, a11, a12⟩
      · exact ⟨a1, a2, a3, a4, a5, a6, a7, a8, by simp [a9], by simp; omega, a11, a12⟩
  · unfold eofHandler
    dsimp only
    split_ifs
    · exact ⟨a1, a2, by simp [fallBack], a4, a5, a6, a7, a8, rfl, by simp [fallBack]; omega, hn, a12⟩
    · split
      · exact ⟨a1, a2, by simp, a4, a5, a6, a7, a8, a9, a10, a11, a12⟩
      · rename_i w hw
        rw [search_window hw]
        exact ⟨a1, a2, length_lastN_le _ _, a4, a5, a6, a7, a8, a9, a10, a11, a12⟩
  · exact hfresh

/-- Nothing leads to CAL (R210). -/
theorem handle_rxState_ne_cal (h : r.rxState ≠ .cal) : (handle p ctr now smp r).1.rxState ≠ .cal := by
  unfold handle
  split
  · contradiction
  · unfold preHandler; dsimp only; split_ifs <;> simp_all
  · unfold sofHandler; dsimp only; split_ifs
    · simpa using h
    · split <;> simp_all [startFrame]
  · unfold decHandler validSymbol invalidSymbol completeByte; dsimp only
    split_ifs <;> simp_all [restart, enterEofs]
  · unfold eofHandler; dsimp only; split_ifs
    · simp [fallBack]
    · split <;> simp_all
  · simp [valHandler]

/-- An invocation keeps the receiver's ranges. -/
theorem Receiver.Ok.invoke (hwf : p.wf = true) (hn : now < 2 ^ p.wT) (hs : smp < 2 ^ p.wS) (h : r.Ok p) :
    (raiseEvent (handle p ctr now smp r)).Ok p := by
  have hses : Session.Ok p (handle p ctr now smp r).1.ses := Session.Ok.handle hwf hn h.ses
  refine ⟨hses, ?_, ?_, ?_, ?_⟩
  · by_cases hst : r.rxState = .cal
    · have := (Calibration.Ok.handle (now := now) hs h.cal).resolve_right (by simpa using hst)
      simpa [handle, hst] using this
    · have h1 := h.cal.keep hst (handle_rxState_ne_cal (p := p) (ctr := ctr) (now := now) (smp := smp) hst)
      simpa [handle_cal hst] using h1
  · by_cases hst : r.rxState = .proc
    · simpa [handle, hst, valHandler] using validation_ok r.ses h.ses.rxCount_le r.buf
    · simpa [handle_res hst] using h.res
  · rcases handle_buf (p := p) (ctr := ctr) (now := now) (smp := smp) (r := r) with ⟨hb, -⟩ | ⟨-, -, -, b, hb⟩
    · simpa [hb] using h.buf_wf
    · simpa [hb] using memWrite_wf h.buf_wf
  · rcases handle_buf (p := p) (ctr := ctr) (now := now) (smp := smp) (r := r) with ⟨hb, hle⟩ | ⟨-, hlt, hc, b, hb⟩
    · have hf := h.buf_filled
      rw [memFilled_iff] at *
      intro k hk
      simpa [hb] using hf k (lt_of_lt_of_le hk hle)
    · simpa [hb, hc] using memFilled_memWrite hlt h.buf_filled

end Sys2Proof.Machine
end

