-- ==== Sys2Proof/Laws/Sender.lean ====
section
/-! SUPPORT. The sender: what a command and an arm of `TX.TICK` can do, and that each keeps the ranges of its registers,
the level of the present position (10_state.md R50) and the running CRC (R48). -/

namespace Sys2Proof.Machine

variable {p : Params} {ctr : Nat} {cmd : BitVec 26} {t : Sender}

/-- While the sender is busy no command acts (R134). -/
theorem ifIdle_of_busy {c : Sender} (h : t.txPhase ≠ .idle) : ifIdle t c = t := by simp [ifIdle, h]

theorem ifIdle_of_idle {c : Sender} (h : t.txPhase = .idle) : ifIdle t c = c := by simp [ifIdle, h]

/-- All that a host command can do to an idle sender (R130 to R133). -/
theorem hostCommand_cases (h : t.txPhase = .idle) :
    hostCommand p cmd t = t ∨ hostCommand p cmd t = clearFrame t ∨
    hostCommand p cmd t = pushByte p (cmdByte cmd) t ∨ hostCommand p cmd t = startEmission p (cmdType cmd) t := by
  unfold hostCommand
  rw [ifIdle_of_idle h]
  split_ifs <;> simp

/-- Where every payload byte is written, the level of a position does not depend on a free value. -/
theorem posLevel_ctr {pos : TxPos} (hf : memFilled p.txDepth t.buf t.txLen.toNat = true)
    (hp : pos.phase = .data → pos.idx ≤ 8 + t.txLen.toNat) (c c' : Nat) :
    posLevel p c t pos = posLevel p c' t pos := by
  unfold posLevel
  split <;> try rfl
  rename_i hd
  have hi := hp hd
  congr 2
  unfold frameByte
  split <;> try rfl
  rename_i i hk
  obtain ⟨x, hx⟩ := memFilled_iff.1 hf i (by omega)
  simp [txByte, hx]

/-- The level of a position depends on the frame's registers alone. -/
theorem posLevel_congr {t t' : Sender} (h1 : t'.txType = t.txType) (h2 : t'.txLen = t.txLen) (h3 : t'.txCrc = t.txCrc)
    (h4 : t'.buf = t.buf) (c : Nat) (pos : TxPos) : posLevel p c t' pos = posLevel p c t pos := by
  unfold posLevel
  split <;> try rfl
  congr 2
  unfold frameByte txByte
  rw [h1, h2, h3, h4]

/-- The next position exists (R139). -/
theorem nextPos_ok (h : t.pos.Ok p t.txLen.toNat) : (nextPos p ctr t t.pos).Ok p t.txLen.toNat := by
  unfold nextPos
  unfold TxPos.Ok at h
  split
  · simp [TxPos.Ok, rawPos]
  · simp only [*] at h
    split_ifs
    · simp [TxPos.Ok, rawPos]; omega
    · simp [TxPos.Ok, rawPos]
  · simp only [*] at h
    split_ifs
    · simp [TxPos.Ok, rawPos]; omega
    · simp [TxPos.Ok, rawPos]
  · rename_i hd
    simp only [hd] at h
    split_ifs
    · simp only [TxPos.Ok, hd]; omega
    · simp only [TxPos.Ok, hd]; omega
    · simp [TxPos.Ok, rawPos]; omega
    · simp [TxPos.Ok, rawPos]
  · simp only [*] at h
    split_ifs
    · simp [TxPos.Ok, rawPos]; omega
    · simp only [TxPos.Ok, rawPos, and_true]
      exact Nat.mod_lt _ (by simp [Config.headerLen])
    · simp [TxPos.Ok, rawPos]
  · simp [TxPos.Ok, rawPos]

theorem posDuration_le (pos : TxPos) (h : p.wf = true) : posDuration p pos ≤ max p.tBit p.tIdle := by
  have := Params.wf_facts h
  unfold posDuration Params.tHalf
  split <;> omega

theorem posDuration_pos (pos : TxPos) (h : p.wf = true) : 0 < posDuration p pos := by
  have := Params.wf_facts h
  unfold posDuration Params.tHalf
  split <;> omega

/-- The only way into a gap is with emissions left (R139). -/
theorem nextPos_gap (pos : TxPos) (h : (nextPos p ctr t pos).phase = .gap) : 0 < t.txEmitLeft := by
  unfold nextPos at h
  split at h <;> try (simp [rawPos] at h; done)
  · split_ifs at h <;> simp [rawPos] at h
  · split_ifs at h <;> simp [rawPos] at h
  · split_ifs at h <;> simp_all [rawPos]
  · split_ifs at h <;> simp_all [rawPos]

theorem moveTo_ok (hwf : p.wf = true) {pos : TxPos} (h : t.Ok p) (hpos : pos.Ok p t.txLen.toNat)
    (hgap : pos.phase = .gap → 0 < t.txEmitLeft) : (moveTo p ctr t pos).Ok p := by
  have hp := Params.wf_facts hwf
  have hidx : pos.phase = .data → pos.idx ≤ 8 + t.txLen.toNat := by
    intro hd
    simp only [TxPos.Ok, hd] at hpos
    exact hpos.1
  obtain ⟨h1, h2, h3, h4, h5, h6, h7, h8, h9, h10⟩ := h
  unfold moveTo
  split_ifs with hi
  · exact ⟨h1, h2, h3, h4, by simpa using h5, h6, by simp, by simp [TxPos.Ok, Sender.pos, rawPos],
      by simp [posLevel, Sender.pos], by simp⟩
  · have hd := posDuration_le pos hwf
    have hd' := posDuration_pos pos hwf
    refine ⟨h1, h2, h3, h4, by simp only; omega, h6, hgap, hpos, ?_, by simp⟩
    intro c
    rw [posLevel_congr (t := t) rfl rfl rfl rfl]
    exact posLevel_ctr h3 hidx _ _

theorem emitTick_ok (hwf : p.wf = true) (h : t.Ok p) : (emitTick p ctr t.txPhase t).Ok p := by
  unfold emitTick
  split_ifs with ht
  · obtain ⟨h1, h2, h3, h4, h5, h6, h7, h8, h9, h10⟩ := h
    exact ⟨h1, h2, h3, h4, by simp only; omega, h6, h7, h8, h9, by simp⟩
  · exact moveTo_ok hwf h (nextPos_ok h.pos) (nextPos_gap _)

theorem payload_congr {t' : Sender} (h1 : t'.txLen = t.txLen) (h2 : t'.buf = t.buf) : t'.payload p = t.payload p := by
  simp [Sender.payload, h1, h2]

theorem toNat_add_one {x : BitVec 32} {n : Nat} (hx : x.toNat < n) (hn : n ≤ 2 ^ 32 - 1) :
    (x + 1).toNat = x.toNat + 1 := by
  rw [BitVec.toNat_add]
  simp
  omega

/-- A push appends its byte to the payload (R132). -/
theorem payload_pushByte {b : Byte} (hwf : p.wf = true) (hlt : t.txLen.toNat < p.txDepth) :
    (pushByte p b t).payload p = t.payload p ++ [b] := by
  have hp := Params.wf_facts hwf
  have h1 : (t.txLen + 1).toNat = t.txLen.toNat + 1 := toNat_add_one hlt hp.2.2.2.2.2.2.2.2.2.2.1
  unfold pushByte Sender.payload
  simp only [hlt, if_true, h1, List.range_succ, List.map_append, List.map_cons, List.map_nil]
  congr 1
  · apply List.map_congr_left
    intro a ha
    rw [List.mem_range] at ha
    rw [memRead_memWrite_other (by omega)]
  · simp [memRead_memWrite_same hlt]

theorem hostCommand_ok (hwf : p.wf = true) (h : t.Ok p) (hout : t.txDone = false) : (hostCommand p cmd t).Ok p := by
  have hp := Params.wf_facts hwf
  by_cases hi : t.txPhase = .idle
  swap
  · simpa [hostCommand, ifIdle_of_busy hi] using h
  rcases hostCommand_cases (p := p) (cmd := cmd) hi with e | e | e | e <;> rw [e]
  · exact h
  · obtain ⟨h1, h2, h3, h4, h5, h6, h7, h8, h9, h10⟩ := h
    refine ⟨by simp [clearFrame], h2, by simp [clearFrame], by simp [clearFrame, Sender.payload, crc16], h5, h6, h7, ?_,
      ?_, h10⟩
    · simpa [TxPos.Ok, Sender.pos, clearFrame, hi] using h8
    · simpa [posLevel, Sender.pos, clearFrame, hi] using h9
  · obtain ⟨h1, h2, h3, h4, h5, h6, h7, h8, h9, h10⟩ := h
    by_cases hlt : t.txLen.toNat < p.txDepth
    · have hpay := payload_pushByte (b := cmdByte cmd) hwf hlt
      have h1' : (t.txLen + 1).toNat = t.txLen.toNat + 1 := toNat_add_one hlt hp.2.2.2.2.2.2.2.2.2.2.1
      have e2 : pushByte p (cmdByte cmd) t = { t with
          buf := memWrite p.txDepth t.buf t.txLen.toNat (cmdByte cmd)
          txLen := t.txLen + 1
          txCrc := crcUpdate t.txCrc (cmdByte cmd) } := by simp [pushByte, hlt]
      refine ⟨?_, ?_, ?_, ?_, ?_, ?_, ?_, ?_, ?_, ?_⟩
      · rw [e2]; simp only [h1']; omega
      · rw [e2]; exact memWrite_wf h2
      · rw [e2]; simp only [h1']; exact memFilled_memWrite hlt h3
      · rw [hpay, crc16_concat, ← h4, e2]
      · rw [e2]; exact h5
      · rw [e2]; exact h6
      · rw [e2]; exact h7
      · rw [e2]; simpa [TxPos.Ok, Sender.pos, hi] using h8
      · rw [e2]; simpa [posLevel, Sender.pos, hi] using h9
      · rw [e2]; exact h10
    · have e2 : pushByte p (cmdByte cmd) t = { t with txOvf := true } := by simp [pushByte, hlt]
      rw [e2]
      refine ⟨h1, h2, h3, h4, h5, h6, h7, h8, ?_, h10⟩
      simpa [posLevel, Sender.pos, hi] using h9
  · obtain ⟨h1, h2, h3, h4, h5, h6, h7, h8, h9, h10⟩ := h
    refine ⟨h1, h2, h3, h4, ?_, ?_, by simp [startEmission], ?_, ?_, ?_⟩
    · simp only [startEmission]; omega
    · simp only [startEmission]; omega
    · simp [startEmission, TxPos.Ok, Sender.pos, rawPos]
    · intro c
      simp [startEmission, posLevel, Sender.pos, Config.preambleBits]
    · simp [startEmission, hout]

/-- `TX.TICK` keeps the sender's ranges. -/
theorem txTick_ok (hwf : p.wf = true) (h : t.Ok p) : (txTick p ctr cmd t).Ok p := by
  unfold txTick
  split
  · rename_i hi
    unfold idleTick
    refine hostCommand_ok hwf ?_ rfl
    obtain ⟨h1, h2, h3, h4, h5, h6, h7, h8, h9, h10⟩ := h
    exact ⟨h1, h2, h3, h4, h5, h6, h7, h8, by simp [posLevel, Sender.pos, hi], by simp⟩
  · rename_i hi; exact hi ▸ emitTick_ok hwf h
  · rename_i hi; exact hi ▸ emitTick_ok hwf h
  · rename_i hi; exact hi ▸ emitTick_ok hwf h
  · rename_i hi; exact hi ▸ emitTick_ok hwf h
  · rename_i hi
    unfold gapTick
    split_ifs with ht
    · exact hi ▸ emitTick_ok hwf h
    · obtain ⟨h1, h2, h3, h4, h5, h6, h7, h8, h9, h10⟩ := h
      unfold emitTick
      simp only [ht, if_false, nextPos]
      unfold moveTo
      have hp := Params.wf_facts hwf
      simp only [rawPos, reduceCtorEq, if_false]
      refine ⟨h1, h2, h3, h4, ?_, ?_, by simp, ?_, ?_, by simp⟩
      · simp only [posDuration]; omega
      · simp only; omega
      · simp [TxPos.Ok, Sender.pos, rawPos]
      · intro c
        simp [posLevel, Sender.pos]

end Sys2Proof.Machine
end

