-- ==== Sys2Proof/Laws/Tick.lean ====
section
/-! SUPPORT. A tick: what it writes in each group, that it keeps what holds of the registers, and what a period of ticks on
a steady channel does (47_scheduler.md R200 to R207). -/

namespace Sys2Proof.Machine

variable {s : State} {pins : Pins}

/-! ## One tick -/

/-- A tick with `rst = 1` (R200, R250). -/
theorem tickWith_rst (h : pins.rst = true) (s : State) : tickWith pins s = (resetRegisters (s.setPins pins)).bumpFree := by
  simp [tickWith, tick, h]

/-- A tick with `rst = 0`, group by group (R200, R201). -/
theorem tickWith_run (h : pins.rst = false) (s : State) :
    tickWith pins s =
      { s with
        now := nextNow s.params s.now
        wait := if s.wait = 0 then period s.params s.rx.rxState - 1 else s.wait - 1
        rx :=
          if s.wait = 0 then raiseEvent (handle s.params s.freeCtr s.now (portSample s.params pins.adcIn) s.rx)
          else { s.rx with evCode := .none }
        tx := txTick s.params s.freeCtr pins.txCmd s.tx
        pins := pins
        freeCtr := s.freeCtr + 1 } := by
  by_cases hw : s.wait = 0 <;>
    simp [tickWith, tick, h, rxTick, hw, State.setTx, State.setNow, State.bumpFree, State.setWait, State.setRx,
      State.setPins, State.invoke, State.sample]

@[simp] theorem tickWith_params (pins : Pins) (s : State) : (tickWith pins s).params = s.params := by
  cases h : pins.rst
  · simp [tickWith_run h]
  · simp [tickWith_rst h]

@[simp] theorem tickWith_script (pins : Pins) (s : State) : (tickWith pins s).script = s.script := by
  cases h : pins.rst
  · simp [tickWith_run h]
  · simp [tickWith_rst h]

@[simp] theorem tickWith_chanLight (pins : Pins) (s : State) : (tickWith pins s).chanLight = s.chanLight := by
  cases h : pins.rst
  · simp [tickWith_run h]
  · simp [tickWith_rst h]

@[simp] theorem tickWith_chanDark (pins : Pins) (s : State) : (tickWith pins s).chanDark = s.chanDark := by
  cases h : pins.rst
  · simp [tickWith_run h]
  · simp [tickWith_rst h]

@[simp] theorem tickWith_freeCtr (pins : Pins) (s : State) : (tickWith pins s).freeCtr = s.freeCtr + 1 := by
  cases h : pins.rst
  · simp [tickWith_run h]
  · simp [tickWith_rst h]

@[simp] theorem tickWith_pins (pins : Pins) (s : State) : (tickWith pins s).pins = pins := by
  cases h : pins.rst
  · simp [tickWith_run h]
  · simp [tickWith_rst h]

theorem portSample_lt (p : Params) (a : Nat) : portSample p a < 2 ^ p.wS := Nat.mod_lt _ (Nat.two_pow_pos _)

theorem Receiver.Ok.initial {p : Params} (hwf : p.wf = true) {buf : Memory} (hb : Memory.wf p.rxDepth buf = true) :
    (Receiver.initial p buf).Ok p := by
  have hp := Params.wf_facts hwf
  have h1 : 0 < 2 ^ p.wS := Nat.two_pow_pos _
  have h2 : 0 < 2 ^ p.wT := Nat.two_pow_pos _
  refine ⟨?_, ?_, ⟨Nat.zero_le _, rfl, by simp [Receiver.initial, Results.initial]⟩, hb, memFilled_zero⟩
  · have h := Session.Ok.fresh hwf h2
    rw [fresh_zero] at h
    exact h
  · constructor <;> simp [Receiver.initial, Calibration.initial]
    omega

theorem Sender.Ok.initial {p : Params} (hwf : p.wf = true) {buf : Memory} (hb : Memory.wf p.txDepth buf = true) :
    (Sender.initial buf).Ok p := by
  have hp := Params.wf_facts hwf
  refine ⟨Nat.zero_le _, hb, memFilled_zero, rfl, ?_, ?_, by simp [Sender.initial], ?_, ?_, by simp [Sender.initial]⟩
  · simp only [Sender.initial]; omega
  · simp only [Sender.initial]; omega
  · simp [Sender.initial, TxPos.Ok, Sender.pos, rawPos]
  · simp [Sender.initial, posLevel, Sender.pos]

/-- A reset gives registers in their ranges (R57, R250). -/
theorem State.Ok.resetRegisters (h : s.Ok) : (resetRegisters s).Ok := by
  have hp := Params.wf_facts h.params
  refine ⟨h.params, Nat.two_pow_pos _, ?_, Receiver.Ok.initial h.params h.rx.buf_wf, Sender.Ok.initial h.params h.tx.buf_wf⟩
  simp only [resetRegisters_wait, resetRegisters_params, Params.longestPeriod]
  omega

/-- A tick with any inputs keeps what holds of the registers. -/
theorem State.Ok.tickWith (h : s.Ok) (pins : Pins) : (tickWith pins s).Ok := by
  cases hr : pins.rst
  · rw [tickWith_run hr]
    have hwl := h.wait_lt
    have h1 := period_pos h.params s.rx.rxState
    have h2 := period_le s.rx.rxState h.params
    refine ⟨h.params, nextNow_lt, ?_, ?_, txTick_ok h.params h.tx⟩
    · dsimp only
      split_ifs <;> omega
    · dsimp only
      split_ifs
      · exact h.rx.invoke h.params h.now_lt (portSample_lt _ _)
      · exact ⟨h.rx.ses, h.rx.cal, h.rx.res, h.rx.buf_wf, h.rx.buf_filled⟩
  · rw [tickWith_rst hr]
    have h' : (s.setPins pins).Ok := ⟨h.params, h.now_lt, h.wait_lt, h.rx, h.tx⟩
    have := State.Ok.resetRegisters h'
    exact ⟨this.params, this.now_lt, this.wait_lt, this.rx, this.tx⟩

/-! ## A steady channel -/

@[simp] theorem channelPins_rst (lv : Level) (s : State) : (channelPins lv s).rst = false := rfl

/-- What one tick of a steady channel does to the receiver and the clock. -/
theorem hold_one (lv : Level) (s : State) :
    (tickWith (channelPins lv s) s).now = nextNow s.params s.now
      ∧ (tickWith (channelPins lv s) s).wait = (if s.wait = 0 then period s.params s.rx.rxState - 1 else s.wait - 1)
      ∧ (tickWith (channelPins lv s) s).rx =
        (if s.wait = 0 then raiseEvent (handle s.params s.freeCtr s.now (portSample s.params (s.intensity lv)) s.rx)
         else { s.rx with evCode := .none }) := by
  rw [tickWith_run (channelPins_rst lv s)]
  exact ⟨rfl, rfl, rfl⟩

@[simp] theorem holdLevel_params (lv : Level) (d : Nat) (s : State) : (holdLevel lv d s).params = s.params := by
  induction d generalizing s with
  | zero => rfl
  | succ d ih => simp [holdLevel, ih]

@[simp] theorem holdLevel_script (lv : Level) (d : Nat) (s : State) : (holdLevel lv d s).script = s.script := by
  induction d generalizing s with
  | zero => rfl
  | succ d ih => simp [holdLevel, ih]

@[simp] theorem holdLevel_chanLight (lv : Level) (d : Nat) (s : State) :
    (holdLevel lv d s).chanLight = s.chanLight := by
  induction d generalizing s with
  | zero => rfl
  | succ d ih => simp [holdLevel, ih]

@[simp] theorem holdLevel_chanDark (lv : Level) (d : Nat) (s : State) : (holdLevel lv d s).chanDark = s.chanDark := by
  induction d generalizing s with
  | zero => rfl
  | succ d ih => simp [holdLevel, ih]

@[simp] theorem holdLevel_intensity (lv x : Level) (d : Nat) (s : State) :
    (holdLevel lv d s).intensity x = s.intensity x := by
  simp [State.intensity]

/-- On a noiseless channel a level's intensity reads as that level (R235). -/
theorem State.Noiseless.level_intensity (h : s.Noiseless) (lv : Level) :
    s.rx.level (portSample s.params (s.intensity lv)) = lv := by
  cases lv
  · exact h.2
  · exact h.1

theorem holdLevel_now (lv : Level) (d : Nat) (s : State) (h : s.now < 2 ^ s.params.wT) :
    (holdLevel lv d s).now = (s.now + d) % 2 ^ s.params.wT := by
  induction d generalizing s with
  | zero => simpa [holdLevel] using (Nat.mod_eq_of_lt h).symm
  | succ d ih =>
    have h1 := (hold_one lv s).1
    rw [holdLevel, ih _ (by rw [h1, tickWith_params]; exact nextNow_lt), h1]
    simp only [tickWith_params, nextNow, Nat.mod_add_mod]
    congr 1
    omega

/-- While `wait` counts down the receiver stands still and shows no event (R201). -/
theorem holdLevel_wait (lv : Level) (d : Nat) (s : State) (h : d ≤ s.wait) :
    (holdLevel lv d s).wait = s.wait - d
      ∧ (holdLevel lv d s).rx = (if d = 0 then s.rx else { s.rx with evCode := .none }) := by
  induction d generalizing s with
  | zero => exact ⟨rfl, rfl⟩
  | succ d ih =>
    obtain ⟨-, h2, h3⟩ := hold_one lv s
    have hw : s.wait ≠ 0 := by omega
    rw [if_neg hw] at h2 h3
    obtain ⟨i1, i2⟩ := ih (tickWith (channelPins lv s) s) (by omega)
    rw [holdLevel, i1, i2, h2, h3]
    refine ⟨by omega, ?_⟩
    split_ifs <;> simp_all

/-- One period of ticks on a steady channel, from an invocation that is due, is one handler run (R201, R207).  The
event shows at once, and is gone after the period unless the period is a single tick. -/
theorem holdLevel_period (lv : Level) (s : State) {d : Nat} (hw : s.wait = 0) (hd : period s.params s.rx.rxState = d)
    (h0 : 0 < d) :
    (holdLevel lv d s).wait = 0
      ∧ (holdLevel lv d s).rx =
        (let r := raiseEvent (handle s.params s.freeCtr s.now (portSample s.params (s.intensity lv)) s.rx)
         if d = 1 then r else { r with evCode := .none }) := by
  obtain ⟨d, rfl⟩ : ∃ e, d = e + 1 := ⟨d - 1, by omega⟩
  obtain ⟨-, h2, h3⟩ := hold_one lv s
  rw [if_pos hw] at h2 h3
  have hwt : (tickWith (channelPins lv s) s).wait = d := by omega
  obtain ⟨i1, i2⟩ := holdLevel_wait lv d (tickWith (channelPins lv s) s) (by omega)
  rw [holdLevel, i1, i2, hwt, h3]
  refine ⟨by omega, ?_⟩
  by_cases hd0 : d = 0 <;> simp [hd0]

@[simp] theorem driveLevels_params (d : Nat) (ls : List Level) (s : State) :
    (driveLevels d ls s).params = s.params := by
  induction ls generalizing s with
  | nil => rfl
  | cons l ls ih => simp [driveLevels, ih]

@[simp] theorem driveLevels_script (d : Nat) (ls : List Level) (s : State) :
    (driveLevels d ls s).script = s.script := by
  induction ls generalizing s with
  | nil => rfl
  | cons l ls ih => simp [driveLevels, ih]

theorem driveLevels_append (d : Nat) (xs ys : List Level) (s : State) :
    driveLevels d (xs ++ ys) s = driveLevels d ys (driveLevels d xs s) := by
  induction xs generalizing s with
  | nil => rfl
  | cons l ls ih => simp [driveLevels, ih]

theorem holdLevel_append (lv : Level) (m n : Nat) (s : State) :
    holdLevel lv (m + n) s = holdLevel lv n (holdLevel lv m s) := by
  induction m generalizing s with
  | zero => simp [holdLevel]
  | succ m ih => rw [Nat.succ_add, holdLevel, ih, holdLevel]

theorem State.Ok.holdLevel (lv : Level) (d : Nat) (h : s.Ok) : (holdLevel lv d s).Ok := by
  induction d generalizing s with
  | zero => exact h
  | succ d ih => exact ih (h.tickWith _)

theorem State.Ok.driveLevels (d : Nat) (ls : List Level) (h : s.Ok) : (driveLevels d ls s).Ok := by
  induction ls generalizing s with
  | nil => exact h
  | cons l ls ih => exact ih (h.holdLevel l d)

end Sys2Proof.Machine
end

