-- ==== Sys2Proof/Laws/Exec.lean ====
section
/-! SUPPORT. What `exec` answers for each operation: one equation a constructor. -/

namespace Sys2Proof.Machine

variable (s : State)

theorem exec_sym1 : exec .sym1 s = .next (driveLevels s.params.tHalf [true, false] s) := rfl

theorem exec_sym0 : exec .sym0 s = .next (driveLevels s.params.tHalf [false, true] s) := rfl

theorem exec_symInv0 : exec .symInv0 s = .next (driveLevels s.params.tHalf [false, false] s) := rfl

theorem exec_symInv1 : exec .symInv1 s = .next (driveLevels s.params.tHalf [true, true] s) := rfl

theorem exec_delimSof : exec .delimSof s = .next (driveLevels s.params.tBit [true, true, true, true, false, false, false, false] s) := rfl

theorem exec_delimEof : exec .delimEof s = .next (driveLevels s.params.tBit [false, false, false, false, true, true, true, true] s) := rfl

theorem exec_preamble : exec .preamble s = .next (driveLevels s.params.tBit (List.flatten (List.replicate 8 [true, false])) s) := rfl

theorem exec_frame (ty : BitVec 24) (n : BitVec 32) (c : BitVec 16) : exec (.frame ty n c) s = .next (driveLevels s.params.tHalf (bytesLevels (headerBytes ty n c)) s) := rfl

theorem exec_txNop (a : BitVec 24) : exec (.txNop a) s = .next (s) := by
  simp [exec, execTxNop, ifIdle, State.setTx]

theorem exec_txClear (a : BitVec 24) : exec (.txClear a) s = .next (s.setTx (ifIdle s.tx (clearFrame s.tx))) := rfl

theorem exec_txPush (h : BitVec 16) (b : Byte) : exec (.txPush h b) s = .next (s.setTx (ifIdle s.tx (pushByte s.params b s.tx))) := rfl

theorem exec_txStart (ty : BitVec 24) : exec (.txStart ty) s = .next (s.setTx (ifIdle s.tx (startEmission s.params ty s.tx))) := rfl

theorem exec_crcInit (e : BitVec 1) (b : Byte) : exec (.crcInit e b) s = .next (s.setCrc 0xFFFF) := rfl

theorem exec_crcByte (b : Byte) : exec (.crcByte b) s = .next (s.setCrc (crcUpdate s.tx.txCrc b)) := rfl

theorem exec_crcHold (b : Byte) : exec (.crcHold b) s = .next (s) := rfl

theorem exec_calStep : exec .calStep s = .next (s.setRx (raiseEvent (calHandler s.params s.now s.sample s.rx))) := rfl

theorem exec_preStep : exec .preStep s = .next (s.setRx (raiseEvent (preHandler s.params s.now s.sample s.rx))) := rfl

theorem exec_sofStep : exec .sofStep s = .next (s.setRx (raiseEvent (sofHandler s.params s.now s.sample s.rx))) := rfl

theorem exec_decStep : exec .decStep s = .next (s.setRx (raiseEvent (decHandler s.params s.now s.sample s.rx))) := rfl

theorem exec_eofStep : exec .eofStep s = .next (s.setRx (raiseEvent (eofHandler s.params s.now s.sample s.rx))) := rfl

theorem exec_valStep : exec .valStep s = .next (s.setRx (raiseEvent (valHandler s.params s.freeCtr s.now s.rx))) := rfl

theorem exec_txIdle : exec .txIdle s = .next (s.setTx (idleTick s.params s.pins.txCmd s.tx)) := rfl

theorem exec_txPreamble : exec .txPreamble s = .next (s.setTx (emitTick s.params s.freeCtr .preamble s.tx)) := rfl

theorem exec_txSof : exec .txSof s = .next (s.setTx (emitTick s.params s.freeCtr .sof s.tx)) := rfl

theorem exec_txData : exec .txData s = .next (s.setTx (emitTick s.params s.freeCtr .data s.tx)) := rfl

theorem exec_txEof : exec .txEof s = .next (s.setTx (emitTick s.params s.freeCtr .eof s.tx)) := rfl

theorem exec_txGap : exec .txGap s = .next (s.setTx (gapTick s.params s.freeCtr s.tx)) := rfl

theorem exec_rxTick : exec .rxTick s = .next (rxTick s) := rfl

theorem exec_reset : exec .reset s = .next (resetRegisters s) := rfl

end Sys2Proof.Machine
end

