-- ==== Sys2Proof/Laws/PerInstr.lean ====
section
/-! SUPPORT. Facts about every operation as syntax, one lemma a constructor. -/

/-- The code word of an operation fits its format (R80). -/
def Sys2Proof.Laws.EncodeFits.Statement (i : Sys2Proof.Instr) : Prop :=
  (Sys2Proof.encode i).bits < 2 ^ (Sys2Proof.encode i).fmt.width

namespace Sys2Proof.Laws.EncodeFits

open Sys2Proof (encode Format.width)

theorem sym1 : Statement .sym1 := by unfold Statement; decide

theorem sym0 : Statement .sym0 := by unfold Statement; decide

theorem symInv0 : Statement .symInv0 := by unfold Statement; decide

theorem symInv1 : Statement .symInv1 := by unfold Statement; decide

theorem delimSof : Statement .delimSof := by unfold Statement; decide

theorem delimEof : Statement .delimEof := by unfold Statement; decide

theorem preamble : Statement .preamble := by unfold Statement; decide

theorem frame (ty : BitVec 24) (n : BitVec 32) (c : BitVec 16) : Statement (.frame ty n c) := by
  have hty := ty.isLt
  have hn := n.isLt
  have hc := c.isLt
  simp only [Statement, encode, Format.width]
  omega

theorem txNop (a : BitVec 24) : Statement (.txNop a) := by
  have ha := a.isLt
  simp only [Statement, encode, Format.width]
  omega

theorem txClear (a : BitVec 24) : Statement (.txClear a) := by
  have ha := a.isLt
  simp only [Statement, encode, Format.width]
  omega

theorem txPush (h : BitVec 16) (b : BitVec 8) : Statement (.txPush h b) := by
  have hh := h.isLt
  have hb := b.isLt
  simp only [Statement, encode, Format.width]
  omega

theorem txStart (a : BitVec 24) : Statement (.txStart a) := by
  have ha := a.isLt
  simp only [Statement, encode, Format.width]
  omega

theorem crcInit (e : BitVec 1) (b : BitVec 8) : Statement (.crcInit e b) := by
  have he := e.isLt
  have hb := b.isLt
  simp only [Statement, encode, Format.width]
  omega

theorem crcByte (b : BitVec 8) : Statement (.crcByte b) := by
  have hb := b.isLt
  simp only [Statement, encode, Format.width]
  omega

theorem crcHold (b : BitVec 8) : Statement (.crcHold b) := by
  have hb := b.isLt
  simp only [Statement, encode, Format.width]
  omega

theorem calStep : Statement .calStep := by unfold Statement; decide

theorem preStep : Statement .preStep := by unfold Statement; decide

theorem sofStep : Statement .sofStep := by unfold Statement; decide

theorem decStep : Statement .decStep := by unfold Statement; decide

theorem eofStep : Statement .eofStep := by unfold Statement; decide

theorem valStep : Statement .valStep := by unfold Statement; decide

theorem txIdle : Statement .txIdle := by unfold Statement; decide

theorem txPreamble : Statement .txPreamble := by unfold Statement; decide

theorem txSof : Statement .txSof := by unfold Statement; decide

theorem txData : Statement .txData := by unfold Statement; decide

theorem txEof : Statement .txEof := by unfold Statement; decide

theorem txGap : Statement .txGap := by unfold Statement; decide

theorem rxTick : Statement .rxTick := by unfold Statement; decide

theorem reset : Statement .reset := by unfold Statement; decide

end Sys2Proof.Laws.EncodeFits
end

