-- ==== Sys2Proof/Tests/Slice0.lean ====
section
/-! SUPPORT. Tests: the checks refuse ill-formed terms, words written out from the encodings of 30_encoding.md decode to
their operations, one or two steps of each operation with values from 95_test_vectors.md, and for every statement with
hypotheses a state and operands that meet them. -/

open Sys2Proof Sys2Proof.Machine

namespace Sys2Proof.Tests

/-! ## The checks refuse -/

theorem test_vector_instance_is_wf : Params.vector.wf = true := by decide

/-- `W_S ≥ 1` (R9). -/
theorem test_params_refuse_no_sample_bits : { Params.vector with wS := 0 }.wf = false := by decide

/-- `T_BIT ≥ 2` (R9). -/
theorem test_params_refuse_zero_bit_period : { Params.vector with tBit := 0 }.wf = false := by decide

/-- `T_BIT` is even (R9). -/
theorem test_params_refuse_odd_bit_period : { Params.vector with tBit := 7 }.wf = false := by decide

theorem test_params_refuse_zero_preamble_period : { Params.vector with tPre := 0 }.wf = false := by decide

theorem test_params_refuse_no_calibration_sample : { Params.vector with nCal := 0 }.wf = false := by decide

theorem test_params_refuse_zero_calibration_period : { Params.vector with tCal := 0 }.wf = false := by decide

theorem test_params_refuse_no_emission : { Params.vector with nEmit := 0 }.wf = false := by decide

theorem test_params_refuse_zero_gap : { Params.vector with tIdle := 0 }.wf = false := by decide

theorem test_params_refuse_zero_limit : { Params.vector with invalidLimit := 0 }.wf = false := by decide

/-- `RX_DEPTH ≥ 9` (R9). -/
theorem test_params_refuse_short_receive_buffer : { Params.vector with rxDepth := 8 }.wf = false := by decide

/-- `TX_DEPTH ≤ 2^32 - 1` (R9). -/
theorem test_params_refuse_long_payload_buffer : { Params.vector with txDepth := 2 ^ 32 }.wf = false := by decide

/-- `TO_INACT < TO_GLOBAL` (R9). -/
theorem test_params_refuse_long_inactivity : { Params.vector with toInact := 4000 }.wf = false := by decide

/-- Each timeout plus the longest period is below `2^W_T` (R8): here the period is 8 and the timeout `2^32 - 8`. -/
theorem test_params_refuse_wrapping_timeouts :
    { Params.vector with toPre := 2 ^ 32 - 8 }.wf = false ∧ { Params.vector with toSof := 2 ^ 32 - 8 }.wf = false
      ∧ { Params.vector with toGlobal := 2 ^ 32 - 8 }.wf = false
      ∧ { Params.vector with toInact := 2 ^ 32 - 8, toGlobal := 2 ^ 32 - 7 }.wf = false
      ∧ { Params.vector with toEof := 2 ^ 32 - 8 }.wf = false
      ∧ { Params.vector with toEof := 2 ^ 32 - 9 }.wf = true := by decide

theorem test_words_refuse_a_bit_too_many :
    CodeWord.wf ⟨.symbol, 4⟩ = false ∧ CodeWord.wf ⟨.txcmd, 2 ^ 26⟩ = false ∧ CodeWord.wf ⟨.frame, 2 ^ 72⟩ = false
      ∧ CodeWord.wf ⟨.rst, 2⟩ = false := by decide

theorem test_pins_refuse_wide_values :
    Pins.wf .vector ⟨false, 1024, 0, 0⟩ = false ∧ Pins.wf .vector ⟨false, 1023, 0, 128⟩ = false
      ∧ Pins.wf .vector ⟨false, 1023, 0, 127⟩ = true := by decide

theorem test_lines_refuse_wide_values :
    Line.wf .vector (.tick ⟨false, 1024, 0, 0⟩) = false ∧ Line.wf .vector (.levels [true] 0) = false
      ∧ Line.wf .vector (.chan 1024 0) = false ∧ Line.wf .vector (.invoke 0 (2 ^ 32)) = false
      ∧ Line.wf .vector (.code ⟨.delim, 256⟩) = false := by decide

/-! ## Words written out from the encodings -/

/-- `SYMBOL`: `10`, `01`, `00`, `11` (R81). -/
theorem test_decode_symbols :
    [0b10, 0b01, 0b00, 0b11].map (fun w => decode ⟨.symbol, w⟩)
      = [.ok .sym1, .ok .sym0, .ok .symInv0, .ok .symInv1] := by decide

/-- `DELIM`: `11110000`, `00001111`, and no other (R84). -/
theorem test_decode_delimiters :
    [0b11110000, 0b00001111, 0b11110001].map (fun w => decode ⟨.delim, w⟩)
      = [.ok .delimSof, .ok .delimEof, .error .notDelimiter] := by decide

/-- `PREAMBLE`: HIGH first (R83). -/
theorem test_decode_preamble :
    [0b1010101010101010, 0b0101010101010101].map (fun w => decode ⟨.preamble, w⟩)
      = [.ok .preamble, .error .notPreamble] := by decide

/-- `FRAME`: the header of V32, nine bytes, first byte first (R86). -/
theorem test_decode_frame :
    decode ⟨.frame, 0x54585400_00000246F6⟩ = .ok (.frame 0x545854 0x00000002 0x46F6) := by decide

/-- `TXCMD`: `op` in bits 25:24, `arg` below; `0x2ABCD48` pushes `0x48` (R96, section 4 of the vectors). -/
theorem test_decode_commands :
    [0b00_000000000000000000000000, 0b01_000000000000000000000000, 0b10_000000000000000001001000, 0x2ABCD48,
      0b11_010101000101100001010100].map (fun w => decode ⟨.txcmd, w⟩)
      = [.ok (.txNop 0), .ok (.txClear 0), .ok (.txPush 0 0x48), .ok (.txPush 0xABCD 0x48),
         .ok (.txStart 0x545854)] := by decide

/-- `CRCCMD`: `init` in bit 9, `en` in bit 8, `din` below (R97, V18a to V18e). -/
theorem test_decode_crc_commands :
    [0b10_00000000, 0b11_01001000, 0b01_01001000, 0b00_01001001].map (fun w => decode ⟨.crccmd, w⟩)
      = [.ok (.crcInit 0 0), .ok (.crcInit 1 0x48), .ok (.crcByte 0x48), .ok (.crcHold 0x49)] := by decide

/-- `RXSTATE` (R98). -/
theorem test_decode_receiver_states :
    [0b000, 0b001, 0b010, 0b011, 0b100, 0b101, 0b110, 0b111].map (fun w => decode ⟨.rxstate, w⟩)
      = [.ok .calStep, .ok .preStep, .ok .sofStep, .ok .decStep, .ok .eofStep, .ok .valStep,
         .error .unreachableCode, .error .unreachableCode] := by decide

/-- `TXPHASE` (R99). -/
theorem test_decode_sender_phases :
    [0b000, 0b001, 0b010, 0b011, 0b100, 0b101, 0b110, 0b111].map (fun w => decode ⟨.txphase, w⟩)
      = [.ok .txIdle, .ok .txPreamble, .ok .txSof, .ok .txData, .ok .txEof, .ok .txGap,
         .error .unreachableCode, .error .unreachableCode] := by decide

/-- `RST`: the table's rows `RX.TICK` and `RESET`. -/
theorem test_decode_rst : [0b0, 0b1].map (fun w => decode ⟨.rst, w⟩) = [.ok .rxTick, .ok .reset] := by decide

/-- `EVENT` codes (R100). -/
theorem test_event_codes :
    [Event.none, .calDone, .calDegenerate, .preTimeout, .preLock, .sofTimeout, .sofMatch, .dataInactivity, .dataGlobal,
      .invalidLimit, .eofTimeout, .eofMatch, .frameOk, .underrun, .integrity, .rxOverflow].map (fun e => e.code.toNat)
      = List.range 16 := by decide

/-- The table's words that one width tells apart. -/
theorem test_table_words :
    decodeTableWord 8 0xF0 = some .delimSof ∧ decodeTableWord 16 0xAAAA = some .preamble
      ∧ decodeTableWord 16 0x148 = some (.crcByte 0x48) ∧ decodeTableWord 32 0x3545854 = some (.txStart 0x545854)
      ∧ decodeTableWord 8 3 = some .decStep ∧ decodeTableWord 8 6 = none ∧ decodeTableWord 24 0 = none := by decide

/-! ## One step of each operation -/

/-- A calibrated receiver, `CHAN light=900 dark=100`, threshold 500 (section 0 of the vectors). -/
def calibrated (p : Params) : State :=
  let s := State.initial p
  { s with
    chanLight := 900
    chanDark := 100
    rx :=
      { s.rx with
        rxState := .pre
        cal :=
          { calCount := p.nCal, calMin := 100, calMax := 900, darkValue := 100, lightValue := 900, threshold := 500,
            calDone := true } } }

/-- A handler-level state of the vector instance: this receiver state and session, this sample and time. -/
def inState (st : RxState) (ses : Session) (smp now : Nat) : State :=
  let s := calibrated .vector
  { s with now := now, pins := { s.pins with adcIn := smp }, rx := { s.rx with rxState := st, ses := ses } }

/-- What one operation leaves, looked at through `f`. -/
def after {α : Type} (i : Instr) (s : State) (f : State → α) : Option α :=
  match exec i s with
  | .next t => some (f t)
  | .fault _ => none
  | .refused _ => none

/-- What one step leaves, looked at through `f`. -/
def stepped {α : Type} (s : State) (f : State → α) : Option α :=
  match step s with
  | .next t => some (f t)
  | .fault _ => none
  | .refused _ => none

/-- A buffer that holds these bytes from offset 0. -/
def filled (bs : List Byte) : Memory := (List.range bs.length).zip bs

/-- The session right after a start-frame match at 200 (section 8 of the vectors). -/
def matched : Session := (startFrame 200 (calibrated .vector).rx).ses

/-- V18a: from `0x1234`. -/
theorem test_crc_init : after (.crcInit 0 0) (State.reset.setCrc 0x1234) (·.tx.txCrc) = some 0xFFFF := by decide

/-- V18b: `init` wins over `en`. -/
theorem test_crc_init_wins : after (.crcInit 1 0x48) (State.reset.setCrc 0x1234) (·.tx.txCrc) = some 0xFFFF := by decide

/-- V18c. -/
theorem test_crc_byte : after (.crcByte 0x48) State.reset (·.tx.txCrc) = some 0x76BF := by decide

/-- Section 2 of the vectors: `crc16_update(0x1234, 0x56)`. -/
theorem test_crc_byte_other : after (.crcByte 0x56) (State.reset.setCrc 0x1234) (·.tx.txCrc) = some 0xE993 := by decide

/-- V18d. -/
theorem test_crc_hold : after (.crcHold 0x49) (State.reset.setCrc 0x76BF) (·.tx.txCrc) = some 0x76BF := by decide

/-- V10, the check value of the reflected CRC. -/
theorem test_crc16_check_value :
    crc16 [0x31, 0x32, 0x33, 0x34, 0x35, 0x36, 0x37, 0x38, 0x39] = 0x4B37 := by decide +kernel

/-- V20, the fourth sample: 100 after the extremes 100 and 900. -/
theorem test_cal_step_last :
    after .calStep
        { State.reset with
          now := 3
          pins := ⟨false, 100, 0, 0⟩
          rx :=
            { State.reset.rx with
              cal := { State.reset.rx.cal with calCount := 3, calMin := 100, calMax := 900 } } }
        (fun t => (t.rx.cal.threshold, t.rx.cal.calDone, t.rx.rxState, t.rx.evCode, t.rx.ses.phaseStart))
      = some (500, true, .pre, .calDone, 3) := by decide

/-- V27: one sample ends degenerate. -/
theorem test_cal_step_degenerate :
    after .calStep { State.initial { Params.vector with nCal := 1 } with pins := ⟨false, 700, 0, 0⟩ }
        (fun t => (t.rx.cal.darkValue, t.rx.cal.lightValue, t.rx.cal.threshold, t.rx.evCode))
      = some (700, 700, 700, .calDegenerate) := by decide

/-- V43: `elapsed` equal to the timeout is not over it; the 8th flip locks. -/
theorem test_pre_step_locks :
    after .preStep
        (inState .pre { Session.initial with phaseStart := 3, lastLevelValid := true, transCount := 7 } 900 1003)
        (fun t => (t.rx.rxState, t.rx.ses.transCount, t.rx.ses.phaseStart, t.rx.evCode))
      = some (.sof, 0, 1003, .preLock) := by decide

/-- V44: one tick later the timeout uses the invocation up. -/
theorem test_pre_step_times_out :
    after .preStep
        (inState .pre { Session.initial with phaseStart := 3, lastLevelValid := true, transCount := 7 } 900 1004)
        (fun t => (t.rx.rxState, t.rx.ses.transCount, t.rx.ses.phaseStart, t.rx.ses.lastLevel, t.rx.evCode))
      = some (.pre, 0, 1004, false, .preTimeout) := by decide

/-- V56: five ones before the zeros do not matter. -/
theorem test_sof_step_matches :
    after .sofStep
        (inState .sof { Session.initial with win := [true, true, true, true, true, false, false, false] } 100 8)
        (fun t => (t.rx.rxState, t.rx.ses.win, t.rx.ses.lastByteTime, t.rx.evCode))
      = some (.data, [], 8, .sofMatch) := by decide

/-- V54: sixteen ones and a zero are no match, and are cut to sixteen. -/
theorem test_sof_step_slides :
    after .sofStep (inState .sof { Session.initial with win := List.replicate 16 true } 100 8)
        (fun t => (t.rx.rxState, t.rx.ses.win, t.rx.evCode))
      = some (.sof, List.replicate 15 true ++ [false], .none) := by decide

/-- V61, the second half: the eighth bit completes `0x48`. -/
theorem test_dec_step_completes_a_byte :
    after .decStep
        (inState .data { matched with bitAcc := 0b0100100, bitCnt := 7, rxCount := 9, pairHalf := true } 900 304)
        (fun t => (memRead 64 t.rx.buf 9, t.rx.ses.rxCount, t.rx.ses.bitCnt, t.rx.ses.lastByteTime))
      = some (some 0x48, 10, 0, 304) := by decide

/-- V64, the last half: the third invalid symbol in a row. -/
theorem test_dec_step_invalid_limit :
    after .decStep
        (inState .data { matched with invCount := 2, invRun := [true, false], pairHalf := true, firstLv := true } 900 228)
        (fun t => (t.rx.rxState, t.rx.ses.win, t.rx.ses.invCount, t.rx.ses.phaseStart, t.rx.evCode))
      = some (.eofs, [true, false, true], 0, 228, .invalidLimit) := by decide

/-- V70, the fifth level. -/
theorem test_eof_step_matches :
    after .eofStep
        (inState .eofs { matched with win := [false, false, false, false, true, true, true], phaseStart := 932 } 900 968)
        (fun t => (t.rx.rxState, t.rx.ses.win, t.rx.evCode)) = some (.proc, [], .eofMatch) := by decide

/-- V74: the fallback. -/
theorem test_eof_step_falls_back :
    after .eofStep
        (inState .eofs
          { matched with
            win := [false, false, false, true], phaseStart := 932, pairHalf := true, firstLv := true, bitAcc := 5,
            bitCnt := 3, rxCount := 4, lastByteTime := 900, lastValidTime := 910 } 900 1140)
        (fun t => ((t.rx.rxState, t.rx.evCode, t.rx.ses.pairHalf), t.rx.ses.bitAcc, t.rx.ses.bitCnt,
          t.rx.ses.lastValidTime, t.rx.ses.lastByteTime))
      = some ((.data, .eofTimeout, false), 5, 3, 1140, 900) := by decide

/-- The bytes of V84 in the buffer, `n` of them received. -/
def received (bs : List Byte) : State :=
  let s := inState .proc { matched with rxCount := bs.length } 0 1000
  { s with rx := { s.rx with buf := filled bs } }

/-- V84. -/
theorem test_val_step_passes :
    after .valStep (received [0x54, 0x58, 0x54, 0, 0, 0, 2, 0x46, 0xF6, 0x48, 0x49])
        (fun t => ((t.rx.res.resType, t.rx.res.resLen, t.rx.res.resCrcCalc), t.rx.res.resPass, t.rx.res.resCount,
          t.rx.evCode, t.rx.rxState))
      = some ((0x545854, 2, 0x46F6), true, 11, .frameOk, .pre) := by decide +kernel

/-- V83: one byte short. -/
theorem test_val_step_fails :
    after .valStep (received [0x54, 0x58, 0x54, 0, 0, 0, 2, 0x46, 0xF6, 0x48])
        (fun t => (t.rx.res.resCrcCalc, t.rx.res.resCrcOk, t.rx.res.resLenOk, t.rx.res.resPass, t.rx.evCode))
      = some (0x76BF, false, false, false, .integrity) := by decide

/-- V30a: from reset. -/
theorem test_push :
    after (.txPush 0 0x48) State.reset (fun t => (memRead 64 t.tx.buf 0, t.tx.txLen, t.tx.txCrc))
      = some (some 0x48, 1, 0x76BF) := by decide

/-- V30g: a full buffer of one byte. -/
theorem test_push_overflows :
    after (.txPush 0 0x49) { calibrated { Params.vector with txDepth := 1 } with
          tx := { State.reset.tx with txLen := 1, txCrc := 0x76BF, buf := [(0, 0x48)] } }
        (fun t => (t.tx.txLen, t.tx.txCrc, t.tx.txOvf)) = some (1, 0x76BF, true) := by decide

/-- The sender of V30b. -/
def loaded : State :=
  { State.reset with
    tx := { State.reset.tx with txLen := 2, txCrc := 0x46F6, buf := [(0, 0x48), (1, 0x49)] } }

/-- V30c: the bytes stay. -/
theorem test_clear :
    after (.txClear 0) loaded (fun t => (t.tx.txLen, t.tx.txCrc, t.tx.txOvf, memRead 64 t.tx.buf 1))
      = some (0, 0xFFFF, false, some 0x49) := by decide

/-- V30d. -/
theorem test_start :
    after (.txStart 0x545854) loaded
        (fun t => (t.tx.txType, t.tx.txEmitLeft, t.tx.pos, t.tx.txOut, t.tx.txTimer))
      = some (0x545854, 0, ⟨.preamble, 0, 7, false⟩, true, 7) := by decide

/-- A sender at this position, its level's last tick, in the emission of V32. -/
def emitting (ph : TxPhase) (i b : Nat) (h : Bool) : State :=
  { loaded with
    tx := { loaded.tx with txPhase := ph, txIdx := i, txBit := b, txHalf := h, txType := 0x545854 } }

/-- V30f: a busy sender ignores a clear. -/
theorem test_clear_busy : after (.txClear 0) (emitting .sof 0 7 false) (·.tx.txLen) = some 2 := by decide

/-- V30f: a busy sender ignores a start. -/
theorem test_start_busy : after (.txStart 0) (emitting .sof 0 7 false) (·.tx.txType) = some 0x545854 := by decide

/-- R130. -/
theorem test_nop : after (.txNop 0xABCDEF) loaded (·.tx) = some loaded.tx := by decide

/-- R135: the command of the tick, `TX.PUSH 0x48`, after `tx_done` is cleared. -/
theorem test_tx_idle :
    after .txIdle { State.reset with pins := ⟨false, 0, 0x2000048, 0⟩, tx := { State.reset.tx with txDone := true } }
        (fun t => (t.tx.txDone, t.tx.txLen)) = some (false, 1) := by decide

/-- V39: after `(PREAMBLE, 15)` comes `(SOF, 0)`. -/
theorem test_tx_preamble :
    after .txPreamble (emitting .preamble 15 7 false) (fun t => (t.tx.pos, t.tx.txOut, t.tx.txTimer))
      = some (⟨.sof, 0, 7, false⟩, true, 7) := by decide

/-- V39: after `(SOF, 7)` comes `(DATA, 0, 7, 0)`; the first bit of `0x54` is 0. -/
theorem test_tx_sof :
    after .txSof (emitting .sof 7 7 false) (fun t => (t.tx.pos, t.tx.txOut, t.tx.txTimer))
      = some (⟨.data, 0, 7, false⟩, false, 3) := by decide

/-- R138: byte 10 is `0x49`, its bit 0 is 1; the second half is its complement. -/
theorem test_tx_data_half :
    after .txData (emitting .data 10 0 false) (fun t => (t.tx.pos, t.tx.txOut, t.tx.txTimer))
      = some (⟨.data, 10, 0, true⟩, false, 3) := by decide

/-- V39: `(DATA, 8 + txLen, 0, 1)` is the last position of the data. -/
theorem test_tx_data_end :
    after .txData (emitting .data 10 0 true) (fun t => (t.tx.pos, t.tx.txOut, t.tx.txTimer))
      = some (⟨.eof, 0, 7, false⟩, false, 7) := by decide

/-- V39: the sender is idle after `(EOF, 7)` with no emission left, and says so for one tick. -/
theorem test_tx_eof_done :
    after .txEof (emitting .eof 7 7 false) (fun t => (t.tx.txPhase, t.tx.txOut, t.tx.txDone))
      = some (.idle, false, true) := by decide

/-- V38: with an emission left the gap of 16 ticks follows. -/
theorem test_tx_eof_gap :
    after .txEof { emitting .eof 7 7 false with tx := { (emitting .eof 7 7 false).tx with txEmitLeft := 1 } }
        (fun t => (t.tx.txPhase, t.tx.txOut, t.tx.txTimer, t.tx.txDone)) = some (.gap, false, 15, false) := by decide

/-- R139: the gap leads to the preamble and uses an emission up. -/
theorem test_tx_gap :
    after .txGap { emitting .gap 0 7 false with tx := { (emitting .gap 0 7 false).tx with txEmitLeft := 1 } }
        (fun t => (t.tx.pos, t.tx.txOut, t.tx.txEmitLeft)) = some (⟨.preamble, 0, 7, false⟩, true, 0) := by decide

/-- V91: the old state's period, `PRE.STEP` locks with `T_PRE = 2`. -/
theorem test_rx_tick_invokes :
    after .rxTick
        (inState .pre { Session.initial with phaseStart := 3, lastLevelValid := true, transCount := 7 } 900 70)
        (fun t => (t.rx.rxState, t.wait)) = some (.sof, 1) := by decide

/-- R201: an event is gone when the next tick is no invocation. -/
theorem test_rx_tick_waits :
    after .rxTick { State.reset with wait := 3, rx := { State.reset.rx with evCode := .frameOk } }
        (fun t => (t.wait, t.rx.evCode, t.rx.cal.calCount)) = some (2, .none, 0) := by decide

/-- R250, its example. -/
theorem test_reset :
    after .reset { emitting .data 3 5 true with
          now := 700, wait := 3, rx := { (received [1, 2, 3, 4, 5]).rx with rxState := .data } }
        (fun t => ((t.rx.rxState, t.rx.ses.rxCount, t.tx.txPhase), (t.tx.txOut, t.tx.txLen), t.now, t.wait))
      = some ((.cal, 0, .idle), (false, 0), 0, 0) := by decide

/-- A noiseless channel and a decoder in step with it, at `now = 208` (section 8 of the vectors). -/
def decoding : State := inState .data matched 0 208

/-- R81, R164: `SYM.1` is HIGH then LOW, and brings the bit 1; `T_BIT = 8` ticks pass. -/
theorem test_sym1 :
    after .sym1 decoding (fun t => (t.rx.ses.bitAcc, t.rx.ses.bitCnt, t.now)) = some (1, 1, 216) := by decide

theorem test_sym0 :
    after .sym0 { decoding with rx := { decoding.rx with ses := { matched with bitAcc := 1, bitCnt := 1 } } }
        (fun t => (t.rx.ses.bitAcc, t.rx.ses.bitCnt, t.now)) = some (2, 2, 216) := by decide

/-- R165: no bit, one invalid symbol. -/
theorem test_symInv0 :
    after .symInv0 decoding (fun t => (t.rx.ses.bitCnt, t.rx.ses.invRun, t.now)) = some (0, [false], 216) := by decide

theorem test_symInv1 :
    after .symInv1 decoding (fun t => (t.rx.ses.bitCnt, t.rx.ses.invRun, t.now)) = some (0, [true], 216) := by decide

/-- R154, S2: the start delimiter, 64 ticks. -/
theorem test_delimSof :
    after .delimSof (inState .sof Session.initial 0 136)
        (fun t => (t.rx.rxState, t.rx.ses.lastByteTime, t.now)) = some (.data, 192, 200) := by decide +kernel

/-- V65, V70: the end delimiter from the first sample at 208 on, 64 ticks. -/
theorem test_delimEof :
    after .delimEof decoding (fun t => (t.rx.rxState, t.rx.ses.phaseStart, t.now)) = some (.proc, 228, 272) := by decide +kernel

/-- S8: the preamble locks a receiver that has seen the idle channel; 128 ticks. -/
theorem test_preamble :
    after .preamble (inState .pre { Session.initial with lastLevelValid := true } 0 12)
        (fun t => (t.rx.rxState, t.now)) = some (.sof, 140) := by decide +kernel

/-- R86: the header's bytes arrive in `RXBUF`, 576 ticks. -/
theorem test_frame :
    after (.frame 0x545854 2 0x46F6) decoding
        (fun t => (t.rx.ses.rxCount, (List.range 9).map (memRead 64 t.rx.buf), t.now))
      = some (9, [0x54, 0x58, 0x54, 0, 0, 0, 2, 0x46, 0xF6].map some, 784) := by decide +kernel

/-! ## Steps -/

/-- P1 and the like: a `TX.PUSH` on the pins of a tick, and the clock. -/
theorem test_step_tick :
    stepped { State.reset with script := [.tick ⟨false, 100, 0x2000048, 0⟩] }
        (fun t => (t.tx.txLen, t.rx.cal.calCount, t.now, t.script)) = some (1, 1, 1, []) := by decide

/-- R102, `LOOPBACK`: a HIGH `tx_out` is seen as LIGHT. -/
theorem test_step_loopback :
    stepped { calibrated .vector with
          script := [.loopback 0], tx := { (emitting .sof 0 7 false).tx with txOut := true } }
        (fun t => (t.pins.adcIn, t.rx.ses.lastLevel)) = some (900, true) := by decide

/-- An instance that breaks a constraint is refused (U4). -/
theorem test_step_refuses_invalid_instance :
    step (State.initial { Params.vector with tBit := 7 }) = .refused .invalidParameters := by rfl

/-- A code word that is no operation's is refused by name (U6). -/
theorem test_step_refuses_unreachable_code :
    step { State.reset with script := [.code ⟨.rxstate, 6⟩] } = .refused (.undecodable .unreachableCode) := by rfl

/-- What `withFetchWord` places is what the next step runs: a handler, a command, a reset, a CRC command. -/
theorem test_fetch_words :
    stepped (State.reset.withFetchWord 8 1) (fun t => (t.rx.rxState, t.rx.ses.lastLevelValid)) = some (.pre, true)
      ∧ stepped (State.reset.withFetchWord 32 0x2000048) (·.tx.txLen) = some 1
      ∧ stepped (State.reset.withFetchWord 1 1) (fun t => (t.now, t.freeCtr)) = some (0, 1)
      ∧ stepped (State.reset.withFetchWord 16 0x148) (·.tx.txCrc) = some 0x76BF
      ∧ stepped (State.reset.withFetchWord 8 0xF0) (·.now) = some 64 := by decide +kernel

/-! ## Every statement's hypotheses are met, each clause at a boundary of its range -/

/-- A tick with nothing on the ports. -/
def quiet : Pins := ⟨false, 0, 0, 0⟩

theorem test_meets_EncodeDecodeIsIdentity : decode ⟨.txcmd, 0x2ABCD48⟩ = .ok (.txPush 0xABCD 0x48) := by decide

theorem test_meets_StateCodesSelectOperations :
    (Format.txphase = .rxstate ∨ Format.txphase = .txphase) ∧ (7 = 6 ∨ 7 = 7) := by decide

theorem test_meets_CommandWordFields : ∀ n ∈ [0, 1, 2, 3], ∃ op : BitVec 2, op = n := fun n _ => ⟨n, rfl⟩

theorem test_meets_StepRunsTheTick :
    let s := { loaded with script := [.tick quiet] }
    s.params.wf = true ∧ s.script = .tick quiet :: [] ∧ quiet.rst = false := by decide

theorem test_meets_StepRunsReset :
    let pins : Pins := { quiet with rst := true }
    let s := { emitting .data 3 5 true with script := [.tick pins] }
    s.params.wf = true ∧ s.script = .tick pins :: [] ∧ pins.rst = true := by decide

theorem test_meets_StepRunsTheCodeWord :
    let s := { loaded with script := [.code ⟨.crccmd, 0x148⟩] }
    s.params.wf = true ∧ s.script = .code ⟨.crccmd, 0x148⟩ :: [] ∧ decode ⟨.crccmd, 0x148⟩ = .ok (.crcByte 0x48) := by
  decide

theorem test_meets_RxTickInvokesOrWaits : State.reset.wait = 0 ∧ { State.reset with wait := 1 }.wait ≠ 0 := by decide

theorem test_meets_IdleArmRunsTheCommand :
    let s := { loaded with pins := { quiet with txCmd := 0x3545854 } }
    s.tx.txPhase = .idle ∧ decode ⟨.txcmd, s.pins.txCmd.toNat⟩ = .ok (.txStart 0x545854) := by decide

theorem test_meets_StepAlwaysContinues :
    let s := { loaded with script := [.code ⟨.crccmd, 0x148⟩, .code ⟨.txphase, 5⟩, .tick quiet] }
    s.params.wf = true ∧ ∀ line ∈ s.script, line.decodes = true := by decide

theorem test_meets_command_statements : loaded.tx.txPhase = .idle ∧ (emitting .gap 0 7 false).tx.txPhase ≠ .idle := by
  decide

/-- The last free byte, and no free byte. -/
theorem test_meets_PushAppendsAByte :
    let last := { loaded with tx := { loaded.tx with txLen := 63 } }
    let full := { loaded with tx := { loaded.tx with txLen := 64 } }
    loaded.params.wf = true
      ∧ (last.tx.txPhase = .idle ∧ last.tx.txLen.toNat < last.params.txDepth)
      ∧ (full.tx.txPhase = .idle ∧ full.params.txDepth ≤ full.tx.txLen.toNat)
      ∧ (emitting .sof 0 7 false).tx.txPhase ≠ .idle := by decide

theorem test_meets_PushesBuildThePayload :
    let s := State.initial { Params.vector with txDepth := 2 }
    s.params.wf = true ∧ s.tx.txPhase = .idle ∧ [0x48#8, 0x49#8].length ≤ s.params.txDepth := by decide

/-- A sender at a position with `n` more ticks to hold it. -/
def holding (ph : TxPhase) (i b : Nat) (h : Bool) (n left : Nat) : State :=
  { emitting ph i b h with tx := { (emitting ph i b h).tx with txTimer := n, txEmitLeft := left } }

/-- Each clause of the arms' statements, at the last index of its range. -/
theorem test_meets_arm_statements :
    0 < (holding .preamble 15 7 false 1 0).tx.txTimer
      ∧ (let t := (holding .preamble 14 7 false 0 0).tx; t.txPhase = .preamble ∧ t.txTimer = 0 ∧ t.txIdx < 15)
      ∧ (let t := (holding .preamble 15 7 false 0 0).tx; t.txPhase = .preamble ∧ t.txTimer = 0 ∧ t.txIdx = 15)
      ∧ (let t := (holding .sof 6 7 false 0 0).tx; t.txPhase = .sof ∧ t.txTimer = 0 ∧ t.txIdx < 7)
      ∧ (let t := (holding .sof 7 7 false 0 0).tx; t.txPhase = .sof ∧ t.txTimer = 0 ∧ t.txIdx = 7)
      ∧ (let t := (holding .eof 6 7 false 0 0).tx; t.txPhase = .eof ∧ t.txTimer = 0 ∧ t.txIdx < 7)
      ∧ (let t := (holding .eof 7 7 false 0 1).tx; t.txPhase = .eof ∧ t.txTimer = 0 ∧ t.txIdx = 7 ∧ 0 < t.txEmitLeft)
      ∧ (let t := (holding .eof 7 7 false 0 0).tx; t.txPhase = .eof ∧ t.txTimer = 0 ∧ t.txIdx = 7 ∧ t.txEmitLeft = 0)
      ∧ (let t := (holding .gap 0 7 false 0 1).tx; t.txPhase = .gap ∧ t.txTimer = 0) := by decide

theorem test_meets_DataArm :
    (let t := (holding .data 10 0 true 1 0).tx; t.txPhase = .data ∧ 0 < t.txTimer)
      ∧ (let t := (holding .data 10 0 false 0 0).tx; t.txPhase = .data ∧ t.txTimer = 0 ∧ t.txHalf = false)
      ∧ (let t := (holding .data 10 1 true 0 0).tx; t.txPhase = .data ∧ t.txTimer = 0 ∧ t.txHalf = true ∧ 0 < t.txBit)
      ∧ (let t := (holding .data 9 0 true 0 0).tx;
          t.txPhase = .data ∧ t.txTimer = 0 ∧ t.txHalf = true ∧ t.txBit = 0 ∧ t.txIdx < 8 + t.txLen.toNat)
      ∧ (let t := (holding .data 10 0 true 0 0).tx;
          t.txPhase = .data ∧ t.txTimer = 0 ∧ t.txHalf = true ∧ t.txBit = 0 ∧ t.txIdx = 8 + t.txLen.toNat) := by decide

/-- The sender of V30b has registers in their ranges. -/
theorem loaded_ok : loaded.Ok := by
  refine ⟨by decide, by decide, by decide, Receiver.Ok.initial (by decide) rfl, ?_⟩
  exact
    { txLen_le := by decide, buf_wf := by decide, buf_filled := by decide, crc := by decide +kernel,
      timer_lt := by decide, emitLeft_lt := by decide, gap_emitLeft := fun h => (by cases h), pos := rfl,
      level := fun _ => rfl, done := fun h => (by cases h) }

/-- The emission of V32, 960 ticks. -/
theorem test_meets_EmissionWaveform :
    loaded.Ok ∧ loaded.tx.txPhase = .idle
      ∧ exec (.txStart 0x545854) loaded = .next (loaded.setTx (ifIdle loaded.tx (startEmission loaded.params 0x545854 loaded.tx)))
      ∧ (∀ x ∈ List.replicate 960 quiet, x.rst = false)
      ∧ (List.replicate 960 quiet).length
          = loaded.params.nEmit * ((104 + 8 * loaded.tx.txLen.toNat) * loaded.params.tBit)
            + (loaded.params.nEmit - 1) * loaded.params.tIdle :=
  ⟨loaded_ok, rfl, rfl, fun x hx => by rw [List.eq_of_mem_replicate hx]; rfl, by rw [List.length_replicate]; decide⟩

theorem test_meets_CalStepTracksExtremes :
    (let s := { State.reset with rx := { State.reset.rx with cal := { State.reset.rx.cal with calCount := 2 } } };
      s.rx.cal.calCount + 1 ≠ s.params.nCal)
      ∧ (let s := { State.reset with rx := { State.reset.rx with cal := { State.reset.rx.cal with calCount := 3 } } };
          s.rx.cal.calCount + 1 = s.params.nCal) := by decide

theorem test_meets_CalibrationFindsTheMidpoint :
    let xs := [(100, 0), (900, 1), (1023, 2)]
    Params.vector.wf = true ∧ xs.length + 1 = Params.vector.nCal
      ∧ ∀ x ∈ (0, 3) :: xs, x.1 < 2 ^ Params.vector.wS := by decide

/-- A level and the count it brings, one side and the other of each bound. -/
theorem test_meets_PreStepCountsFlips :
    let at_ (valid lastLv : Bool) (n smp now : Nat) :=
      inState .pre { Session.initial with phaseStart := 3, lastLevelValid := valid, lastLevel := lastLv, transCount := n } smp now
    let e (s : State) := elapsed s.params s.now s.rx.ses.phaseStart
    let lv (s : State) : Level := decide (s.rx.cal.threshold < s.sample)
    (let s := at_ true false 7 900 1004; s.params.toPre < e s)
      ∧ (let s := at_ false false 0 501 1003; e s ≤ s.params.toPre ∧ s.rx.ses.lastLevelValid = false)
      ∧ (let s := at_ true false 7 500 1003;
          e s ≤ s.params.toPre ∧ s.rx.ses.lastLevelValid = true ∧ lv s = s.rx.ses.lastLevel)
      ∧ (let s := at_ true false 6 501 1003;
          e s ≤ s.params.toPre ∧ s.rx.ses.lastLevelValid = true ∧ lv s ≠ s.rx.ses.lastLevel
            ∧ s.rx.ses.transCount + 1 < 8)
      ∧ (let s := at_ true false 7 501 1003;
          e s ≤ s.params.toPre ∧ s.rx.ses.lastLevelValid = true ∧ lv s ≠ s.rx.ses.lastLevel
            ∧ 8 ≤ s.rx.ses.transCount + 1) := by decide

/-- V40: seven flips, and an eighth or none; five after two counted before; and in a session with no sample observed yet,
whose first is no flip. -/
theorem test_meets_PreambleNeedsEightFlips :
    let xs := [(900, 4), (100, 6), (900, 8), (100, 10), (900, 12), (100, 14), (900, 16)]
    ∀ x ∈ [(true, 0, xs, 7), (true, 2, xs.take 5, 7), (false, 0, (100, 2) :: xs, 7), (false, 7, [], 7)],
      let r := (inState .pre { Session.initial with lastLevelValid := x.1, transCount := x.2.1 } 0 0).rx
      let levels := x.2.2.1.map fun y => slice r.cal.threshold y.1
      ∀ smp ∈ [100, 900],
        r.rxState = .pre
          ∧ (∀ y ∈ x.2.2.1 ++ [(smp, 1000)], elapsed .vector y.2 r.ses.phaseStart ≤ Params.vector.toPre)
          ∧ r.ses.transCount
              + flips (if r.ses.lastLevelValid then r.ses.lastLevel else levels.headD (slice r.cal.threshold smp)) levels
            = x.2.2.2 := by decide

/-- V57, V58, and V55. -/
theorem test_meets_SofStepSearchesTheDelimiter :
    let at_ (win : List Level) (now : Nat) := inState .sof { Session.initial with phaseStart := 100, win := win } 100 now
    let e (s : State) := elapsed s.params s.now s.rx.ses.phaseStart
    let found (s : State) :=
      let w := s.rx.ses.win ++ [decide (s.rx.cal.threshold < s.sample)]
      8 ≤ w.length ∧ lastN w 8 = [true, true, true, true, false, false, false, false]
    (let s := at_ [true, true, true, true, false, false, false] 1101; s.params.toSof < e s)
      ∧ (let s := at_ [true, true, true, true, false, false, false] 1100; e s ≤ s.params.toSof ∧ found s)
      ∧ (let s := at_ [false, true, true, true, false, false, false] 1100; e s ≤ s.params.toSof ∧ ¬ found s) := by decide

theorem test_meets_ShiftRegisterRefinesTheWindow :
    let win := List.replicate 16 true
    win.length ≤ 16 ∧ search win false 0xF0 = .window (List.replicate 15 true ++ [false])
      ∧ search (List.replicate 12 true ++ [false, false, false]) false 0xF0 = .isMatch := by decide

/-- V67, V69. -/
theorem test_meets_DecStepTimesOut :
    let at_ (b v now : Nat) := inState .data { matched with lastByteTime := b, lastValidTime := v, invRun := [true] } 900 now
    let eB (s : State) := elapsed s.params s.now s.rx.ses.lastByteTime
    let eV (s : State) := elapsed s.params s.now s.rx.ses.lastValidTime
    (let s := at_ 999 4990 5000; s.params.toGlobal < eB s)
      ∧ (let s := at_ 1000 4599 5000; eB s ≤ s.params.toGlobal ∧ s.params.toInact < eV s) := by decide

/-- Both timers at their bounds, the hypotheses that the branches of a symbol share. -/
def inSymbol (ses : Session) (smp : Nat) : State :=
  inState .data { ses with lastByteTime := 1000, lastValidTime := 4600 } smp 5000

theorem test_meets_symbol_timers :
    ∀ half : Bool, ∀ smp ∈ [500, 501],
      let s := inSymbol { matched with pairHalf := half } smp
      elapsed s.params s.now s.rx.ses.lastByteTime ≤ s.params.toGlobal
        ∧ elapsed s.params s.now s.rx.ses.lastValidTime ≤ s.params.toInact ∧ s.rx.ses.pairHalf = half := by decide

theorem test_meets_DecStepTakesAValidSymbol :
    let lv (s : State) : Level := decide (s.rx.cal.threshold < s.sample)
    (let s := inSymbol { matched with pairHalf := true, bitCnt := 6 } 501;
      s.rx.ses.firstLv ≠ lv s ∧ s.rx.ses.bitCnt + 1 ≠ 8)
      ∧ (let s := inSymbol { matched with pairHalf := true, bitCnt := 7, rxCount := 63 } 501;
          s.rx.ses.firstLv ≠ lv s ∧ s.rx.ses.bitCnt + 1 = 8 ∧ s.rx.ses.rxCount < s.params.rxDepth)
      ∧ (let s := inSymbol { matched with pairHalf := true, bitCnt := 7, rxCount := 64 } 501;
          s.rx.ses.firstLv ≠ lv s ∧ s.rx.ses.bitCnt + 1 = 8 ∧ s.params.rxDepth ≤ s.rx.ses.rxCount) := by decide

theorem test_meets_DecStepTakesAnInvalidSymbol :
    let lv (s : State) : Level := decide (s.rx.cal.threshold < s.sample)
    (let s := inSymbol { matched with pairHalf := true, invCount := 1, invRun := [true] } 500;
      s.rx.ses.firstLv = lv s ∧ s.rx.ses.invCount + 1 < s.params.invalidLimit)
      ∧ (let s := inSymbol { matched with pairHalf := true, invCount := 2, invRun := [true, false] } 500;
          s.rx.ses.firstLv = lv s ∧ s.params.invalidLimit ≤ s.rx.ses.invCount + 1) := by decide

/-- Timeouts just long enough for the byte 0x48 (premises at their bounds). -/
theorem test_meets_DataSymbolsDecode :
    let p := { Params.vector with toInact := 24, toGlobal := 68 }
    let samples := (bytesLevels [0x48] ++ List.replicate 6 false).map fun l => if l then 900 else 100
    p.wf = true ∧ p.invalidLimit = 3 ∧ p.efdSeed = true ∧ [0x48#8] ≠ [] ∧ [0x48#8].length ≤ p.rxDepth
      ∧ 2 ^ 32 - 1 < 2 ^ p.wT ∧ 3 * p.tBit ≤ p.toInact ∧ 8 * p.tBit + p.tHalf ≤ p.toGlobal
      ∧ (samples.map fun x => slice (calibrated p).rx.cal.threshold x)
          = bytesLevels [0x48] ++ List.replicate 6 false := by decide +kernel

/-- V73, V74, V70. -/
theorem test_meets_EofStepSearchesTheDelimiter :
    let at_ (win : List Level) (now : Nat) := inState .eofs { matched with phaseStart := 932, win := win } 900 now
    let e (s : State) := elapsed s.params s.now s.rx.ses.phaseStart
    let found (s : State) :=
      let w := s.rx.ses.win ++ [decide (s.rx.cal.threshold < s.sample)]
      8 ≤ w.length ∧ lastN w 8 = [false, false, false, false, true, true, true, true]
    (let s := at_ [] 1133; s.params.toEof < e s)
      ∧ (let s := at_ [false, false, false, false, true, true, true] 1132; e s ≤ s.params.toEof ∧ found s)
      ∧ (let s := at_ [false, false, false, true] 1132; e s ≤ s.params.toEof ∧ ¬ found s) := by decide

/-- Eight bytes are too short, nine are not (V81, V8A). -/
theorem test_meets_ValStepReportsTheFrame :
    (let s := received (List.replicate 8 0x54);
      s.rx.ses.rxCount < 9 ∧ ∀ k < s.rx.ses.rxCount, memRead s.params.rxDepth s.rx.buf k = some 0x54)
      ∧ (let s := received (List.replicate 9 0x54);
          9 ≤ s.rx.ses.rxCount ∧ ∀ k < s.rx.ses.rxCount, memRead s.params.rxDepth s.rx.buf k = some 0x54) := by decide

/-- V84. -/
theorem test_meets_ValidatorAcceptsAFrame :
    let payload : List Byte := [0x48, 0x49]
    let s := received (frameBytes 0x545854 payload)
    payload.length < 2 ^ 32 ∧ s.rx.ses.rxCount = 9 + payload.length ∧ s.rx.ses.rxOvf = false
      ∧ ∀ k < 9 + payload.length, memRead s.params.rxDepth s.rx.buf k = (frameBytes 0x545854 payload)[k]? := by
  decide +kernel

/-- One tick before `now` wraps, three ticks on. -/
theorem test_meets_ElapsedCountsTicks :
    let s := { State.reset with now := 2 ^ 32 - 1 }
    let inputs := List.replicate 3 quiet
    s.now < 2 ^ s.params.wT ∧ (∀ x ∈ inputs, x.rst = false) ∧ inputs.length < 2 ^ s.params.wT := by decide

/-- In step with the channel: what the statements about wire codes share. -/
theorem decoding_noiseless : decoding.Noiseless := ⟨by decide, by decide⟩

theorem test_meets_WireCodesTakeTheirTime :
    decoding.params.wf = true ∧ decoding.now < 2 ^ decoding.params.wT ∧ decoding.tx.txPhase = .idle := by decide

/-- The seventh and the eighth bit of a byte, with the last place of the buffer free and with none; the second and the
third invalid symbol; both timers at their bounds. -/
theorem test_meets_SymbolsReachTheDecoder :
    let p := { Params.vector with toGlobal := 13, toInact := 12 }
    let at_ (ses : Session) : State := { decoding with params := p, rx := { decoding.rx with ses := ses } }
    let room := at_ { matched with bitCnt := 7, rxCount := 63 }
    let full := at_ { matched with bitCnt := 7, rxCount := 64 }
    let limit := at_ { matched with bitCnt := 6, invCount := 2, invRun := [true, false] }
    let below := at_ { matched with bitCnt := 6, invCount := 1, invRun := [true] }
    (∀ s ∈ [room, full, limit, below],
        s.params.wf = true ∧ s.now < 2 ^ s.params.wT ∧ s.rx.rxState = .data ∧ s.wait = 0 ∧ s.rx.ses.pairHalf = false
          ∧ elapsed s.params s.now s.rx.ses.lastByteTime + s.params.tHalf ≤ s.params.toGlobal
          ∧ elapsed s.params s.now s.rx.ses.lastValidTime + s.params.tHalf ≤ s.params.toInact)
      ∧ (room.Noiseless ∧ full.Noiseless ∧ limit.Noiseless ∧ below.Noiseless)
      ∧ (room.rx.ses.bitCnt + 1 = 8 ∧ room.rx.ses.rxCount < p.rxDepth)
      ∧ (full.rx.ses.bitCnt + 1 = 8 ∧ p.rxDepth ≤ full.rx.ses.rxCount)
      ∧ p.invalidLimit ≤ limit.rx.ses.invCount + 1
      ∧ (below.rx.ses.bitCnt + 1 < 8 ∧ below.rx.ses.invCount + 1 < p.invalidLimit) :=
  ⟨by decide, ⟨⟨by decide, by decide⟩, ⟨by decide, by decide⟩, ⟨by decide, by decide⟩, ⟨by decide, by decide⟩⟩,
    by decide, by decide, by decide, by decide⟩

theorem test_meets_StartDelimiterIsMatched :
    let s := { inState .sof Session.initial 0 136 with params := { Params.vector with toSof := 136 + 56 } }
    (s.params.wf = true ∧ s.now < 2 ^ s.params.wT ∧ s.rx.rxState = .sof ∧ s.wait = 0) ∧ s.Noiseless
      ∧ elapsed s.params s.now s.rx.ses.phaseStart + 7 * s.params.tBit ≤ s.params.toSof :=
  ⟨by decide, ⟨by decide, by decide⟩, by decide⟩

theorem test_meets_EndDelimiterEndsTheFrame :
    let p := { Params.vector with toGlobal := 29, toInact := 28, toEof := 36 }
    let s := { decoding with params := p }
    (p.wf = true ∧ s.now < 2 ^ p.wT ∧ s.rx.rxState = .data ∧ s.wait = 0 ∧ s.rx.ses.pairHalf = false
        ∧ s.rx.ses.invCount = 0 ∧ s.rx.ses.invRun = [])
      ∧ s.Noiseless ∧ p.invalidLimit = 3 ∧ p.efdSeed = true
      ∧ elapsed p s.now s.rx.ses.lastByteTime + 2 * p.tBit + p.tHalf ≤ p.toGlobal
      ∧ elapsed p s.now s.rx.ses.lastValidTime + 2 * p.tBit + p.tHalf ≤ p.toInact
      ∧ 4 * p.tBit + p.tHalf ≤ p.toEof :=
  ⟨by decide, ⟨by decide, by decide⟩, by decide, by decide, by decide, by decide, by decide⟩

theorem test_meets_PreambleLocksTheReceiver :
    let p := { Params.vector with toPre := 12 + 64, toSof := 72, tPre := 8 }
    let s := { inState .pre { Session.initial with lastLevelValid := true } 0 12 with params := p, wait := 7 }
    (p.wf = true ∧ s.now < 2 ^ p.wT ∧ s.rx.rxState = .pre ∧ s.wait < p.tPre ∧ p.tPre ≤ p.tBit
        ∧ s.rx.ses.lastLevelValid = true ∧ s.rx.ses.lastLevel = false ∧ s.rx.ses.transCount = 0)
      ∧ s.Noiseless ∧ elapsed p s.now s.rx.ses.phaseStart + 8 * p.tBit ≤ p.toPre ∧ 9 * p.tBit ≤ p.toSof :=
  ⟨by decide, ⟨by decide, by decide⟩, by decide, by decide⟩

theorem test_meets_HeaderReachesTheBuffer :
    let p := { Params.vector with toGlobal := 68, toInact := 12 }
    let s := { decoding with params := p }
    (p.wf = true ∧ s.now < 2 ^ p.wT ∧ s.rx.rxState = .data ∧ s.wait = 0 ∧ s.rx.ses.pairHalf = false
        ∧ s.rx.ses.bitCnt = 0 ∧ s.rx.ses.rxCount = 0)
      ∧ s.Noiseless ∧ p.tBit ≤ p.toInact ∧ 8 * p.tBit ≤ p.toGlobal
      ∧ elapsed p s.now s.rx.ses.lastByteTime + 7 * p.tBit + p.tHalf ≤ p.toGlobal
      ∧ elapsed p s.now s.rx.ses.lastValidTime + p.tHalf ≤ p.toInact :=
  ⟨by decide, ⟨by decide, by decide⟩, by decide, by decide, by decide, by decide⟩

theorem test_meets_FrameOnTheChannelIsReceived :
    let p := { Params.vector with toSof := 192, toInact := 24, toGlobal := 68, toEof := 36, rxDepth := 11 }
    let s := { inState .sof Session.initial 0 136 with params := p }
    let payload : List Byte := [0x48, 0x49]
    (p.wf = true ∧ s.now < 2 ^ p.wT ∧ s.rx.rxState = .sof ∧ s.wait = 0) ∧ s.Noiseless
      ∧ (p.invalidLimit = 3 ∧ p.efdSeed = true ∧ 9 + payload.length ≤ p.rxDepth ∧ payload.length < 2 ^ 32)
      ∧ elapsed p s.now s.rx.ses.phaseStart + 7 * p.tBit ≤ p.toSof ∧ 3 * p.tBit ≤ p.toInact
      ∧ 8 * p.tBit + p.tHalf ≤ p.toGlobal ∧ 4 * p.tBit + p.tHalf ≤ p.toEof :=
  ⟨by decide, ⟨by decide, by decide⟩, by decide, by decide, by decide, by decide, by decide⟩

theorem test_meets_WholeFrameIsReceivedAtAnyPhase :
    let p := { Params.vector with toPre := 76, toSof := 194, toInact := 24, toGlobal := 68, toEof := 36, rxDepth := 11 }
    let s := { inState .pre { Session.initial with lastLevelValid := true } 0 12 with params := p, wait := 1 }
    let payload : List Byte := [0x48, 0x49]
    (p.wf = true ∧ s.now < 2 ^ p.wT ∧ s.rx.rxState = .pre ∧ s.wait < p.tPre ∧ s.rx.ses.lastLevelValid = true
        ∧ s.rx.ses.lastLevel = false ∧ s.rx.ses.transCount = 0)
      ∧ s.Noiseless ∧ 2 * p.tPre ≤ p.tHalf
      ∧ (p.invalidLimit = 3 ∧ p.efdSeed = true ∧ 9 + payload.length ≤ p.rxDepth ∧ payload.length < 2 ^ 32)
      ∧ elapsed p s.now s.rx.ses.phaseStart + 8 * p.tBit ≤ p.toPre ∧ p.tPre + 24 * p.tBit ≤ p.toSof
      ∧ 3 * p.tBit ≤ p.toInact ∧ 8 * p.tBit + p.tHalf ≤ p.toGlobal ∧ 4 * p.tBit + p.tHalf ≤ p.toEof :=
  ⟨by decide, ⟨by decide, by decide⟩, by decide, by decide, by decide, by decide, by decide, by decide, by decide⟩

theorem test_meets_ResetRestoresRegisters : ({ quiet with rst := true, txCmd := 0x3545854 } : Pins).rst = true := rfl

theorem test_meets_ResetStateIsOk : { Params.vector with wS := 1, tBit := 2, rxDepth := 9, txDepth := 0 }.wf = true := by
  decide

theorem test_meets_StepKeepsRegistersOk :
    let s := { loaded with script := [.chan 900 100, .tick quiet] }
    (∃ t, step s = .next t) ∧ (∀ line ∈ s.script, line.whole = true) ∧ s.Ok :=
  ⟨⟨_, rfl⟩, by decide, ⟨loaded_ok.params, loaded_ok.now_lt, loaded_ok.wait_lt, loaded_ok.rx, loaded_ok.tx⟩⟩

theorem test_meets_StepKeepsBuffersCanonical :
    let s := { loaded with script := [.code ⟨.rxstate, 3⟩] }
    Memory.wf s.params.rxDepth s.rx.buf = true ∧ Memory.wf s.params.txDepth s.tx.buf = true ∧ ∃ t, step s = .next t :=
  ⟨by decide, by decide, _, rfl⟩

theorem test_meets_TransitionsFollowTheTable :
    let s := received [1, 2]
    quiet.rst = false ∧ s.rx.rxState = .proc ∧ s.wait = 0 ∧ s.rx.rxState ≠ .cal := by decide

/-- The same sender beside two receivers, the same receiver beside two senders. -/
theorem test_meets_HalvesAreIndependent :
    (loaded.params = State.reset.params ∧ loaded.freeCtr = State.reset.freeCtr ∧ quiet.rst = quiet.rst)
      ∧ (loaded.rx = State.reset.rx ∧ loaded.now = State.reset.now ∧ loaded.wait = State.reset.wait)
      ∧ (received [1]).tx = State.reset.tx ∧ (received [1]).params = State.reset.params
      ∧ (received [1]).freeCtr = State.reset.freeCtr := by decide

theorem test_meets_SampleMattersOnlyAtInvocations :
    ({ quiet with rst := true } : Pins).rst = true ∧ { State.reset with wait := 1 }.wait ≠ 0
      ∧ (received [1]).rx.rxState = .proc := by decide

theorem test_meets_HostReadHasNoSideEffect :
    let s := received (List.replicate 64 7)
    63 < s.params.rxDepth ∧ memRead s.params.rxDepth s.rx.buf 63 = some 7 := by decide

end Sys2Proof.Tests
end

section
/-! PROOFS. The two halves of a tick (00_scope.md R15): what each half's next registers are as a function of its own
registers and inputs, reset ticks included. -/

namespace Sys2Proof.Machine

/-- The sender after a tick is a function of the sender, `rst` and `tx_cmd`, for the instance and the tick's free values
(R143, R200). -/
theorem tickWith_tx (pins : Pins) (s : State) :
    (tickWith pins s).tx =
      if pins.rst then Sender.initial s.tx.buf else txTick s.params s.freeCtr pins.txCmd s.tx := by
  cases h : pins.rst
  · simp [tickWith_run h]
  · simp [tickWith_rst h]

/-- The receiver after a tick is a function of the receiver, `now`, `wait`, `rst` and `adc_in`, for the instance and the
tick's free values (R201, R236). -/
theorem tickWith_rx (pins : Pins) (s : State) :
    (tickWith pins s).rx =
      if pins.rst then Receiver.initial s.params s.rx.buf
      else if s.wait = 0 then
        raiseEvent (handle s.params s.freeCtr s.now (portSample s.params pins.adcIn) s.rx)
      else { s.rx with evCode := .none } := by
  cases h : pins.rst
  · simp [tickWith_run h]
  · simp [tickWith_rst h]

/-- `now` after a tick (R200, R250). -/
theorem tickWith_now (pins : Pins) (s : State) :
    (tickWith pins s).now = if pins.rst then 0 else nextNow s.params s.now := by
  cases h : pins.rst
  · simp [tickWith_run h]
  · simp [tickWith_rst h]

/-- `wait` after a tick (R201, R250): the period is that of the receiver's old state. -/
theorem tickWith_wait (pins : Pins) (s : State) :
    (tickWith pins s).wait =
      if pins.rst then 0 else if s.wait = 0 then period s.params s.rx.rxState - 1 else s.wait - 1 := by
  cases h : pins.rst
  · simp [tickWith_run h]
  · simp [tickWith_rst h]

/-- Settles O58: each half's registers after a tick are an expression in its own registers and inputs alone. -/
theorem halvesAreIndependent : Obligations.HalvesAreIndependent := by
  intro s u a b hparams hfree hrst
  refine ⟨fun htx hcmd => ?sender, fun hrx hnow hwait hadc => ⟨?receiver, ?clock, ?countdown⟩⟩
  case sender => rw [tickWith_tx, tickWith_tx, hparams, hfree, hrst, htx, hcmd]
  case receiver => rw [tickWith_rx, tickWith_rx, hparams, hfree, hrst, hrx, hnow, hwait, hadc]
  case clock => rw [tickWith_now, tickWith_now, hparams, hrst, hnow]
  case countdown => rw [tickWith_wait, tickWith_wait, hparams, hrst, hrx, hwait]

end Sys2Proof.Machine
end

section
/-! PROOFS. What holds of the registers (10_state.md): it holds at reset (R57), and a step of a stimulus that runs the
whole hardware keeps it.  The ranges themselves are kept tick by tick (`State.Ok.tickWith`); what is left is that such a
line is nothing but ticks. -/

namespace Sys2Proof.Machine

/-! ## Reset -/

/-- Settles O53: the registers `resetRegisters` writes are the ones the statement writes out. -/
theorem resetRestoresRegisters : Obligations.ResetRestoresRegisters := by
  intro s t
  have hreset : resetRegisters s = t := rfl
  refine ⟨by rw [exec_reset, hreset], fun pins hrst => ?_⟩
  rw [tickWith_rst hrst]
  rfl

/-- No byte of a buffer is written yet and no tick is to wait for, whatever the instance. -/
theorem State.Ok.initial {p : Params} (hwf : p.wf = true) : (State.initial p).Ok where
  params := hwf
  now_lt := Nat.two_pow_pos _
  wait_lt := (period_pos hwf .cal).trans_le (period_le .cal hwf)
  rx := Receiver.Ok.initial hwf memWf_nil
  tx := Sender.Ok.initial hwf memWf_nil

/-- Settles O54: the vector instance is one of those that meet R8 and R9. -/
theorem resetStateIsOk : Obligations.ResetStateIsOk :=
  ⟨State.Ok.initial (by decide), fun _ hline => absurd hline List.not_mem_nil, fun _ => State.Ok.initial⟩

/-! ## Code words on the channel -/

theorem RxState.encode_handler_fmt (st : RxState) : (encode st.handler).fmt = .rxstate := by cases st <;> rfl

theorem TxPhase.encode_arm_fmt (ph : TxPhase) : (encode ph.arm).fmt = .txphase := by cases ph <;> rfl

theorem encode_decodeSymbol_fmt (v : Nat) : (encode (decodeSymbol v)).fmt = .symbol := by
  unfold decodeSymbol
  split_ifs <;> rfl

theorem encode_decodeTxCmd_fmt (v : Nat) : (encode (decodeTxCmd v)).fmt = .txcmd := by
  unfold decodeTxCmd
  split <;> rfl

theorem encode_decodeCrcCmd_fmt (v : Nat) : (encode (decodeCrcCmd v)).fmt = .crccmd := by
  unfold decodeCrcCmd
  split_ifs <;> rfl

/-- A code word is decoded to an operation of its own format (R80). -/
theorem encode_fmt_of_decode {w : CodeWord} {i : Instr} (h : decode w = .ok i) : (encode i).fmt = w.fmt := by
  obtain ⟨fmt, bits⟩ := w
  unfold decode at h
  by_cases hfits : CodeWord.wf ⟨fmt, bits⟩ = true
  swap
  · rw [if_neg hfits] at h; cases h
  rw [if_pos hfits] at h
  cases fmt <;> dsimp only at h ⊢
  case symbol => cases h; exact encode_decodeSymbol_fmt bits
  case delim => split_ifs at h <;> cases h <;> rfl
  case preamble => split_ifs at h; cases h; rfl
  case frame => cases h; rfl
  case txcmd => cases h; exact encode_decodeTxCmd_fmt bits
  case crccmd => cases h; exact encode_decodeCrcCmd_fmt bits
  case rxstate => split at h <;> cases h; exact RxState.encode_handler_fmt _
  case txphase => split at h <;> cases h; exact TxPhase.encode_arm_fmt _
  case rst => cases h; split_ifs <;> rfl

/-- An operation whose code passes on the channel is its levels passing there, tick by tick (R82, R85; log entry 9). -/
theorem exec_of_onChannel {i : Instr} (h : (encode i).fmt.onChannel = true) (s : State) :
    ∃ d ls, exec i s = .next (driveLevels d ls s) := by
  cases i
  case sym1 => exact ⟨_, _, exec_sym1 s⟩
  case sym0 => exact ⟨_, _, exec_sym0 s⟩
  case symInv0 => exact ⟨_, _, exec_symInv0 s⟩
  case symInv1 => exact ⟨_, _, exec_symInv1 s⟩
  case delimSof => exact ⟨_, _, exec_delimSof s⟩
  case delimEof => exact ⟨_, _, exec_delimEof s⟩
  case preamble => exact ⟨_, _, exec_preamble s⟩
  case frame ty n c => exact ⟨_, _, exec_frame s ty n c⟩
  all_goals exact absurd h Bool.false_ne_true

/-! ## One step of the whole hardware -/

/-- All that a line which runs the whole hardware can do: a tick, a run of ticks, or new intensities on the channel
(R102). -/
theorem runLine_cases_of_whole {line : Line} {s t : State} (hwhole : line.whole = true)
    (h : runLine line s = .next t) :
    (∃ pins, t = tickWith pins s) ∨ (∃ d ls, t = driveLevels d ls s) ∨ ∃ light dark, t = s.setChan light dark := by
  cases line with
  | tick pins => cases h; exact .inl ⟨pins, rfl⟩
  | loopback cmd => cases h; exact .inl ⟨loopbackPins cmd s, rfl⟩
  | levels bits d => cases h; exact .inr (.inl ⟨d, bits, rfl⟩)
  | chan light dark => cases h; exact .inr (.inr ⟨light, dark, rfl⟩)
  | invoke smp now => exact absurd hwhole Bool.false_ne_true
  | code w =>
    unfold runLine runCode at h
    cases hdec : decode w with
    | error e => simp [hdec] at h
    | ok i =>
      have hch : (encode i).fmt.onChannel = true := by rw [encode_fmt_of_decode hdec]; exact hwhole
      obtain ⟨d, ls, hexec⟩ := exec_of_onChannel hch s
      simp only [hdec, hexec, Host.Outcome.next.injEq] at h
      exact .inr (.inl ⟨d, ls, h.symm⟩)

theorem State.Ok.setScript {s : State} (h : s.Ok) (lines : List Line) : (s.setScript lines).Ok :=
  ⟨h.params, h.now_lt, h.wait_lt, h.rx, h.tx⟩

theorem State.Ok.setChan {s : State} (h : s.Ok) (light dark : Nat) : (s.setChan light dark).Ok :=
  ⟨h.params, h.now_lt, h.wait_lt, h.rx, h.tx⟩

/-- A line that runs the whole hardware keeps what holds of the registers, and leaves the lines to come alone. -/
theorem State.Ok.runLine {line : Line} {s t : State} (hok : s.Ok) (hwhole : line.whole = true)
    (h : runLine line s = .next t) : t.Ok ∧ t.script = s.script := by
  obtain ⟨pins, rfl⟩ | ⟨d, ls, rfl⟩ | ⟨light, dark, rfl⟩ := runLine_cases_of_whole hwhole h
  · exact ⟨hok.tickWith pins, tickWith_script pins s⟩
  · exact ⟨hok.driveLevels d ls, driveLevels_script d ls s⟩
  · exact ⟨hok.setChan light dark, State.setChan_script s light dark⟩

/-- A step of an instance that meets its constraints runs the script (U4). -/
theorem step_of_wf {s : State} (h : s.params.wf = true) : step s = runScript s := if_pos h

/-- Settles O55: a step is a tick with free inputs when the stimulus is used up, and its next line otherwise. -/
theorem stepKeepsRegistersOk : Obligations.StepKeepsRegistersOk := by
  intro s t hok hwhole hstep
  rw [step_of_wf hok.params] at hstep
  unfold runScript at hstep
  split at hstep
  next hscript =>
    cases hstep
    exact ⟨hok.tickWith _, by simp [hscript]⟩
  next line rest hscript =>
    rw [hscript] at hwhole
    obtain ⟨hline, hrest⟩ := List.forall_mem_cons.mp hwhole
    obtain ⟨htok, hscript'⟩ := (hok.setScript rest).runLine hline hstep
    exact ⟨htok, by rw [hscript']; exact hrest⟩

end Sys2Proof.Machine
end

section
/-! PROOFS. The two buffers (20_memory.md R60 to R66). The only writes are `DEC.STEP`'s to `RXBUF` and `TX.PUSH`'s to
`TXBUF` (R61), each by `memWrite`, so every operation keeps the canonical form, and hence every step does; and what the
host's read port shows. -/

namespace Sys2Proof.Machine

/-! ## The receiver's handlers and `RXBUF` -/

section
variable {p : Params} {ctr now smp : Nat} {r : Receiver} {b lv : Level} {byte : Byte}

@[simp] theorem calHandler_buf : (calHandler p now smp r).1.buf = r.buf := by
  unfold calHandler
  dsimp only
  split_ifs <;> rfl

@[simp] theorem preHandler_buf : (preHandler p now smp r).1.buf = r.buf := by
  unfold preHandler
  dsimp only
  split_ifs <;> rfl

@[simp] theorem sofHandler_buf : (sofHandler p now smp r).1.buf = r.buf := by
  unfold sofHandler
  split_ifs
  · rfl
  · split <;> rfl

@[simp] theorem eofHandler_buf : (eofHandler p now smp r).1.buf = r.buf := by
  unfold eofHandler
  split_ifs
  · rfl
  · split <;> rfl

@[simp] theorem invalidSymbol_buf : (invalidSymbol p now lv r).1.buf = r.buf := by
  unfold invalidSymbol
  dsimp only
  split_ifs <;> rfl

/-- The one write to `RXBUF` (R61, R65). -/
theorem completeByte_buf_wf (h : Memory.wf p.rxDepth r.buf = true) :
    Memory.wf p.rxDepth (completeByte p now byte r).1.buf = true := by
  unfold completeByte
  dsimp only
  split_ifs
  · exact memWrite_wf h
  · exact h

theorem validSymbol_buf_wf (h : Memory.wf p.rxDepth r.buf = true) :
    Memory.wf p.rxDepth (validSymbol p now b r).1.buf = true := by
  unfold validSymbol
  dsimp only
  split_ifs
  · exact completeByte_buf_wf h
  · exact h

theorem decHandler_buf_wf (h : Memory.wf p.rxDepth r.buf = true) :
    Memory.wf p.rxDepth (decHandler p now smp r).1.buf = true := by
  unfold decHandler
  dsimp only
  split_ifs
  · exact h
  · exact h
  · exact h
  · exact validSymbol_buf_wf h
  · rwa [invalidSymbol_buf]

/-- An invocation in any state keeps the canonical form of `RXBUF`. -/
theorem handle_buf_wf (h : Memory.wf p.rxDepth r.buf = true) :
    Memory.wf p.rxDepth (handle p ctr now smp r).1.buf = true := by
  obtain ⟨hbuf, -⟩ | ⟨-, -, -, _, hbuf⟩ := handle_buf (p := p) (ctr := ctr) (now := now) (smp := smp) (r := r)
  · rwa [hbuf]
  · rw [hbuf]
    exact memWrite_wf h

end

/-! ## The sender's commands and arms and `TXBUF` -/

section
variable {p : Params} {ctr : Nat} {cmd : BitVec 26} {b : Byte} {ph : TxPhase} {pos : TxPos} {t c : Sender}

@[simp] theorem moveTo_buf : (moveTo p ctr t pos).buf = t.buf := by
  unfold moveTo
  split_ifs <;> rfl

@[simp] theorem emitTick_buf : (emitTick p ctr ph t).buf = t.buf := by
  unfold emitTick
  split_ifs
  · rfl
  · exact moveTo_buf

@[simp] theorem gapTick_buf : (gapTick p ctr t).buf = t.buf := by
  unfold gapTick
  split_ifs <;> exact emitTick_buf

/-- The one write to `TXBUF` (R61, R64). -/
theorem pushByte_buf_wf (h : Memory.wf p.txDepth t.buf = true) : Memory.wf p.txDepth (pushByte p b t).buf = true := by
  unfold pushByte
  split_ifs
  · exact memWrite_wf h
  · exact h

theorem ifIdle_buf_wf (h : Memory.wf p.txDepth t.buf = true) (hc : Memory.wf p.txDepth c.buf = true) :
    Memory.wf p.txDepth (ifIdle t c).buf = true := by
  unfold ifIdle
  split_ifs
  · exact hc
  · exact h

theorem hostCommand_buf_wf (h : Memory.wf p.txDepth t.buf = true) :
    Memory.wf p.txDepth (hostCommand p cmd t).buf = true := by
  by_cases hidle : t.txPhase = .idle
  · obtain hcmd | hcmd | hcmd | hcmd := hostCommand_cases (p := p) (cmd := cmd) hidle <;> rw [hcmd]
    · exact h
    · exact h
    · exact pushByte_buf_wf h
    · exact h
  · rwa [hostCommand, ifIdle_of_busy hidle]

theorem idleTick_buf_wf (h : Memory.wf p.txDepth t.buf = true) :
    Memory.wf p.txDepth (idleTick p cmd t).buf = true :=
  hostCommand_buf_wf h

/-- A tick of the sender in any phase keeps the canonical form of `TXBUF`. -/
theorem txTick_buf_wf (h : Memory.wf p.txDepth t.buf = true) :
    Memory.wf p.txDepth (txTick p ctr cmd t).buf = true := by
  unfold txTick
  split
  next => exact idleTick_buf_wf h
  next => rwa [emitTick_buf]
  next => rwa [emitTick_buf]
  next => rwa [emitTick_buf]
  next => rwa [emitTick_buf]
  next => rwa [gapTick_buf]

end

/-! ## What keeps the buffers -/

/-- The state `t` is of the same instance as `s`, and each of its buffers is canonical if that of `s` is: what one
operation, and so any run of operations, keeps. -/
structure State.KeepsBuffers (s t : State) : Prop where
  params : t.params = s.params
  rxBuf : Memory.wf s.params.rxDepth s.rx.buf = true → Memory.wf s.params.rxDepth t.rx.buf = true
  txBuf : Memory.wf s.params.txDepth s.tx.buf = true → Memory.wf s.params.txDepth t.tx.buf = true

namespace State.KeepsBuffers

variable {s t u : State}

theorem refl (s : State) : s.KeepsBuffers s := ⟨rfl, id, id⟩

theorem trans (hst : s.KeepsBuffers t) (htu : t.KeepsBuffers u) : s.KeepsBuffers u where
  params := htu.params.trans hst.params
  rxBuf h := hst.params ▸ htu.rxBuf (hst.params.symm ▸ hst.rxBuf h)
  txBuf h := hst.params ▸ htu.txBuf (hst.params.symm ▸ hst.txBuf h)

theorem setRx {r : Receiver}
    (h : Memory.wf s.params.rxDepth s.rx.buf = true → Memory.wf s.params.rxDepth r.buf = true) :
    s.KeepsBuffers (s.setRx r) :=
  ⟨rfl, h, id⟩

theorem setRx_of_buf_eq {r : Receiver} (h : r.buf = s.rx.buf) : s.KeepsBuffers (s.setRx r) :=
  setRx fun hwf => by rwa [h]

theorem setTx {x : Sender}
    (h : Memory.wf s.params.txDepth s.tx.buf = true → Memory.wf s.params.txDepth x.buf = true) :
    s.KeepsBuffers (s.setTx x) :=
  ⟨rfl, id, h⟩

theorem setTx_of_buf_eq {x : Sender} (h : x.buf = s.tx.buf) : s.KeepsBuffers (s.setTx x) :=
  setTx fun hwf => by rwa [h]

theorem setScript (s : State) (lines : List Line) : s.KeepsBuffers (s.setScript lines) := ⟨rfl, id, id⟩

theorem setChan (s : State) (light dark : Nat) : s.KeepsBuffers (s.setChan light dark) := ⟨rfl, id, id⟩

/-- Reset leaves the bytes of both buffers (R62, R250). -/
theorem resetRegisters (s : State) : s.KeepsBuffers (resetRegisters s) := ⟨rfl, id, id⟩

theorem rxTick (s : State) : s.KeepsBuffers (rxTick s) := by
  unfold Machine.rxTick
  split_ifs
  · exact ⟨rfl, handle_buf_wf, id⟩
  · exact ⟨rfl, id, id⟩

theorem invokeAt (smp now : Nat) (s : State) : s.KeepsBuffers (invokeAt smp now s) := ⟨rfl, handle_buf_wf, id⟩

theorem tickWith (pins : Pins) (s : State) : s.KeepsBuffers (tickWith pins s) where
  params := tickWith_params pins s
  rxBuf h := by
    rw [tickWith_rx]
    split_ifs
    · exact h
    · exact handle_buf_wf h
    · exact h
  txBuf h := by
    rw [tickWith_tx]
    split_ifs
    · exact h
    · exact txTick_buf_wf h

theorem holdLevel (lv : Level) (d : Nat) (s : State) : s.KeepsBuffers (holdLevel lv d s) := by
  induction d generalizing s with
  | zero => exact refl s
  | succ d ih => exact (tickWith _ s).trans (ih _)

theorem driveLevels (d : Nat) (ls : List Level) (s : State) : s.KeepsBuffers (driveLevels d ls s) := by
  induction ls generalizing s with
  | nil => exact refl s
  | cons lv ls ih => exact (holdLevel lv d s).trans (ih _)

end State.KeepsBuffers

/-! ## Every operation, line and step -/

theorem exec_keepsBuffers_of_onChannel {i : Instr} (h : (encode i).fmt.onChannel = true) (s : State) :
    ∃ t, exec i s = .next t ∧ s.KeepsBuffers t := by
  obtain ⟨d, ls, hexec⟩ := exec_of_onChannel h s
  exact ⟨_, hexec, .driveLevels d ls s⟩

/-- Every operation keeps the buffers' canonical form and the instance (R8, R61). -/
theorem exec_keepsBuffers (i : Instr) (s : State) : ∃ t, exec i s = .next t ∧ s.KeepsBuffers t := by
  cases i with
  | sym1 | sym0 | symInv0 | symInv1 | delimSof | delimEof | preamble | frame =>
    exact exec_keepsBuffers_of_onChannel rfl s
  | txNop arg => exact ⟨_, exec_txNop s arg, .refl s⟩
  | txClear arg => exact ⟨_, exec_txClear s arg, .setTx fun h => ifIdle_buf_wf h h⟩
  | txPush hi byte => exact ⟨_, exec_txPush s hi byte, .setTx fun h => ifIdle_buf_wf h (pushByte_buf_wf h)⟩
  | txStart type => exact ⟨_, exec_txStart s type, .setTx fun h => ifIdle_buf_wf h h⟩
  | crcInit en din => exact ⟨_, exec_crcInit s en din, .setTx_of_buf_eq rfl⟩
  | crcByte din => exact ⟨_, exec_crcByte s din, .setTx_of_buf_eq rfl⟩
  | crcHold din => exact ⟨_, exec_crcHold s din, .refl s⟩
  | calStep => exact ⟨_, exec_calStep s, .setRx_of_buf_eq calHandler_buf⟩
  | preStep => exact ⟨_, exec_preStep s, .setRx_of_buf_eq preHandler_buf⟩
  | sofStep => exact ⟨_, exec_sofStep s, .setRx_of_buf_eq sofHandler_buf⟩
  | decStep => exact ⟨_, exec_decStep s, .setRx decHandler_buf_wf⟩
  | eofStep => exact ⟨_, exec_eofStep s, .setRx_of_buf_eq eofHandler_buf⟩
  | valStep => exact ⟨_, exec_valStep s, .setRx_of_buf_eq rfl⟩
  | txIdle => exact ⟨_, exec_txIdle s, .setTx idleTick_buf_wf⟩
  | txPreamble => exact ⟨_, exec_txPreamble s, .setTx_of_buf_eq emitTick_buf⟩
  | txSof => exact ⟨_, exec_txSof s, .setTx_of_buf_eq emitTick_buf⟩
  | txData => exact ⟨_, exec_txData s, .setTx_of_buf_eq emitTick_buf⟩
  | txEof => exact ⟨_, exec_txEof s, .setTx_of_buf_eq emitTick_buf⟩
  | txGap => exact ⟨_, exec_txGap s, .setTx_of_buf_eq gapTick_buf⟩
  | rxTick => exact ⟨_, exec_rxTick s, .rxTick s⟩
  | reset => exact ⟨_, exec_reset s, .resetRegisters s⟩

/-- A line that runs at all runs ticks, new intensities, one handler, or one operation (R102, R207). -/
theorem runLine_keepsBuffers {line : Line} {s t : State} (h : runLine line s = .next t) : s.KeepsBuffers t := by
  cases line with
  | tick pins => cases h; exact .tickWith pins s
  | loopback cmd => cases h; exact .tickWith _ s
  | levels bits d => cases h; exact .driveLevels d bits s
  | chan light dark => cases h; exact .setChan s light dark
  | invoke smp now => cases h; exact .invokeAt smp now s
  | code w =>
    unfold runLine runCode at h
    cases hdec : decode w with
    | error e => simp [hdec] at h
    | ok i =>
      obtain ⟨u, hexec, hkeeps⟩ := exec_keepsBuffers i s
      simp only [hdec, hexec, Host.Outcome.next.injEq] at h
      exact h ▸ hkeeps

theorem runScript_keepsBuffers {s t : State} (h : runScript s = .next t) : s.KeepsBuffers t := by
  unfold runScript at h
  split at h
  next => cases h; exact .tickWith _ s
  next line rest _ => exact (State.KeepsBuffers.setScript s rest).trans (runLine_keepsBuffers h)

theorem step_keepsBuffers {s t : State} (h : step s = .next t) : s.KeepsBuffers t := by
  unfold step at h
  split_ifs at h
  exact runScript_keepsBuffers h

/-- Settles O56: every operation keeps the buffers, so every line and every step does. -/
theorem stepKeepsBuffersCanonical : Obligations.StepKeepsBuffersCanonical := by
  intro s t hrx htx hstep
  have hkeeps := step_keepsBuffers hstep
  rw [hkeeps.params]
  exact ⟨rfl, hkeeps.rxBuf hrx, hkeeps.txBuf htx⟩

/-! ## The host's read port -/

/-- An offset within the buffer fits the port (R21). -/
theorem portRaddr_of_lt {p : Params} {a : Nat} (h : a < p.rxDepth) : portRaddr p a = a :=
  Nat.mod_eq_of_lt (h.trans Nat.lt_log2_self)

/-- The port shows the byte an offset holds (R66). -/
theorem rxRdata_of_memRead {s : State} {a : Nat} {b : Byte} (h : memRead s.params.rxDepth s.rx.buf a = some b) :
    rxRdata s a = b := by
  rw [rxRdata, portRaddr_of_lt (memRead_isSome_lt h), rxByte, h, Option.getD_some]

/-- Up to the ports' values, a tick depends on `rst`, `adc_in` and `tx_cmd` alone (R200). -/
theorem tickWith_setPins {a b : Pins} (hrst : a.rst = b.rst) (hadc : a.adcIn = b.adcIn) (hcmd : a.txCmd = b.txCmd)
    (s : State) : (tickWith a s).setPins b = tickWith b s := by
  cases hb : b.rst
  · rw [tickWith_run hb, tickWith_run (hrst.trans hb), hadc, hcmd]
    rfl
  · rw [tickWith_rst hb, tickWith_rst (hrst.trans hb)]
    rfl

/-- Settles O60: the port's address is none of the inputs a tick depends on. -/
theorem hostReadHasNoSideEffect : Obligations.HostReadHasNoSideEffect := by
  intro s pins a b
  refine ⟨fun _ hread => ?shows, ?noEffect⟩
  case shows => exact rxRdata_of_memRead hread
  case noEffect => apply tickWith_setPins <;> rfl

end Sys2Proof.Machine
end

section
/-! PROOFS. Codes (30_encoding.md R80 to R101): decoding inverts encoding and encoding inverts decoding.  The formats
with operands are cut into their bit fields by `decode` and put together from them by `encode`; the other formats are
finite tables. -/

namespace Sys2Proof.Machine

/-! ## The decoder, format by format -/

/-- The code word of an operation fits its format (R80). -/
theorem encode_wf (i : Instr) : (encode i).wf = true := by
  refine decide_eq_true (?_ : Laws.EncodeFits.Statement i)
  cases i with
  | sym1 => exact Laws.EncodeFits.sym1
  | sym0 => exact Laws.EncodeFits.sym0
  | symInv0 => exact Laws.EncodeFits.symInv0
  | symInv1 => exact Laws.EncodeFits.symInv1
  | delimSof => exact Laws.EncodeFits.delimSof
  | delimEof => exact Laws.EncodeFits.delimEof
  | preamble => exact Laws.EncodeFits.preamble
  | frame ty n c => exact Laws.EncodeFits.frame ty n c
  | txNop a => exact Laws.EncodeFits.txNop a
  | txClear a => exact Laws.EncodeFits.txClear a
  | txPush h b => exact Laws.EncodeFits.txPush h b
  | txStart a => exact Laws.EncodeFits.txStart a
  | crcInit e b => exact Laws.EncodeFits.crcInit e b
  | crcByte b => exact Laws.EncodeFits.crcByte b
  | crcHold b => exact Laws.EncodeFits.crcHold b
  | calStep => exact Laws.EncodeFits.calStep
  | preStep => exact Laws.EncodeFits.preStep
  | sofStep => exact Laws.EncodeFits.sofStep
  | decStep => exact Laws.EncodeFits.decStep
  | eofStep => exact Laws.EncodeFits.eofStep
  | valStep => exact Laws.EncodeFits.valStep
  | txIdle => exact Laws.EncodeFits.txIdle
  | txPreamble => exact Laws.EncodeFits.txPreamble
  | txSof => exact Laws.EncodeFits.txSof
  | txData => exact Laws.EncodeFits.txData
  | txEof => exact Laws.EncodeFits.txEof
  | txGap => exact Laws.EncodeFits.txGap
  | rxTick => exact Laws.EncodeFits.rxTick
  | reset => exact Laws.EncodeFits.reset

section
variable {v : Nat}

theorem decode_txcmd (h : CodeWord.wf ⟨.txcmd, v⟩ = true) : decode ⟨.txcmd, v⟩ = .ok (decodeTxCmd v) := if_pos h

theorem decode_crccmd (h : CodeWord.wf ⟨.crccmd, v⟩ = true) : decode ⟨.crccmd, v⟩ = .ok (decodeCrcCmd v) :=
  if_pos h

theorem decode_frame (h : CodeWord.wf ⟨.frame, v⟩ = true) : decode ⟨.frame, v⟩ = .ok (decodeFrame v) := if_pos h

/-- A word of a format has no bit above the format's width. -/
theorem lt_of_wf {fmt : Format} (h : CodeWord.wf ⟨fmt, v⟩ = true) : v < 2 ^ fmt.width := of_decide_eq_true h

end

/-! ## Bit fields -/

theorem ofNat_bitField {v lo n : Nat} {x : BitVec n} (h : bitField v lo n = x.toNat) :
    BitVec.ofNat n (bitField v lo n) = x := by
  rw [h, BitVec.ofNat_toNat, BitVec.setWidth_eq]

@[simp] theorem toNat_ofNat_bitField (v lo n : Nat) : (BitVec.ofNat n (bitField v lo n)).toNat = bitField v lo n :=
  Nat.mod_eq_of_lt (Nat.mod_lt _ (Nat.two_pow_pos n))

/-! ### `TXCMD`: its fields `op` and `arg`, and what `op` selects (R96) -/

theorem bitField_op_cases (v : Nat) :
    bitField v 24 2 = 0 ∨ bitField v 24 2 = 1 ∨ bitField v 24 2 = 2 ∨ bitField v 24 2 = 3 := by
  unfold bitField
  omega

theorem bitField_op_arg {v : Nat} (hv : v < 2 ^ 26) : bitField v 24 2 * 2 ^ 24 + bitField v 0 24 = v := by
  unfold bitField
  omega

theorem bitField_arg (v : Nat) : bitField v 8 16 * 2 ^ 8 + bitField v 0 8 = bitField v 0 24 := by
  unfold bitField
  omega

section
variable {v : Nat}

theorem decodeTxCmd_of_op_zero (h : bitField v 24 2 = 0) :
    decodeTxCmd v = .txNop (BitVec.ofNat 24 (bitField v 0 24)) := by simp only [decodeTxCmd, h]

theorem decodeTxCmd_of_op_one (h : bitField v 24 2 = 1) :
    decodeTxCmd v = .txClear (BitVec.ofNat 24 (bitField v 0 24)) := by simp only [decodeTxCmd, h]

theorem decodeTxCmd_of_op_two (h : bitField v 24 2 = 2) :
    decodeTxCmd v = .txPush (BitVec.ofNat 16 (bitField v 8 16)) (BitVec.ofNat 8 (bitField v 0 8)) := by
  simp only [decodeTxCmd, h]

theorem decodeTxCmd_of_op_three (h : bitField v 24 2 = 3) :
    decodeTxCmd v = .txStart (BitVec.ofNat 24 (bitField v 0 24)) := by simp only [decodeTxCmd, h]

/-! ### `CRCCMD`: what its fields `init` and `en` select (R97) -/

theorem decodeCrcCmd_of_init (h : bitField v 9 1 = 1) :
    decodeCrcCmd v = .crcInit (BitVec.ofNat 1 (bitField v 8 1)) (BitVec.ofNat 8 (bitField v 0 8)) := if_pos h

theorem decodeCrcCmd_of_en (hinit : bitField v 9 1 = 0) (hen : bitField v 8 1 = 1) :
    decodeCrcCmd v = .crcByte (BitVec.ofNat 8 (bitField v 0 8)) := by simp [decodeCrcCmd, hinit, hen]

theorem decodeCrcCmd_of_hold (hinit : bitField v 9 1 = 0) (hen : bitField v 8 1 = 0) :
    decodeCrcCmd v = .crcHold (BitVec.ofNat 8 (bitField v 0 8)) := by simp [decodeCrcCmd, hinit, hen]

end

/-! ## Decoding a code -/

theorem decodeTxCmd_encode_txNop (arg : BitVec 24) : decodeTxCmd (encode (.txNop arg)).bits = .txNop arg := by
  have harg := arg.isLt
  rw [decodeTxCmd_of_op_zero, ofNat_bitField (x := arg)] <;> simp only [encode, bitField] <;> omega

theorem decodeTxCmd_encode_txClear (arg : BitVec 24) : decodeTxCmd (encode (.txClear arg)).bits = .txClear arg := by
  have harg := arg.isLt
  rw [decodeTxCmd_of_op_one, ofNat_bitField (x := arg)] <;> simp only [encode, bitField] <;> omega

theorem decodeTxCmd_encode_txPush (hi : BitVec 16) (byte : Byte) :
    decodeTxCmd (encode (.txPush hi byte)).bits = .txPush hi byte := by
  have hhi := hi.isLt
  have hbyte := byte.isLt
  rw [decodeTxCmd_of_op_two, ofNat_bitField (x := hi), ofNat_bitField (x := byte)] <;>
    simp only [encode, bitField] <;> omega

theorem decodeTxCmd_encode_txStart (type : BitVec 24) :
    decodeTxCmd (encode (.txStart type)).bits = .txStart type := by
  have htype := type.isLt
  rw [decodeTxCmd_of_op_three, ofNat_bitField (x := type)] <;> simp only [encode, bitField] <;> omega

theorem decodeCrcCmd_encode_crcInit (en : BitVec 1) (din : Byte) :
    decodeCrcCmd (encode (.crcInit en din)).bits = .crcInit en din := by
  have hen := en.isLt
  have hdin := din.isLt
  rw [decodeCrcCmd_of_init, ofNat_bitField (x := en), ofNat_bitField (x := din)] <;>
    simp only [encode, bitField] <;> omega

theorem decodeCrcCmd_encode_crcByte (din : Byte) : decodeCrcCmd (encode (.crcByte din)).bits = .crcByte din := by
  have hdin := din.isLt
  rw [decodeCrcCmd_of_en, ofNat_bitField (x := din)] <;> simp only [encode, bitField] <;> omega

theorem decodeCrcCmd_encode_crcHold (din : Byte) : decodeCrcCmd (encode (.crcHold din)).bits = .crcHold din := by
  have hdin := din.isLt
  rw [decodeCrcCmd_of_hold, ofNat_bitField (x := din)] <;> simp only [encode, bitField] <;> omega

theorem decodeFrame_encode_frame (type : BitVec 24) (length : BitVec 32) (crc : BitVec 16) :
    decodeFrame (encode (.frame type length crc)).bits = .frame type length crc := by
  have htype := type.isLt
  have hlength := length.isLt
  have hcrc := crc.isLt
  rw [decodeFrame, ofNat_bitField (x := type), ofNat_bitField (x := length), ofNat_bitField (x := crc)] <;>
    simp only [encode, bitField] <;> omega

/-- Settles O1: the rows without operands are a table; in the others every field comes back. -/
theorem decodeEncodeIsIdentity : Obligations.DecodeEncodeIsIdentity := by
  intro i
  have hwf := encode_wf i
  cases i with
  | sym1 | sym0 | symInv0 | symInv1 => rfl
  | delimSof | delimEof => rfl
  | preamble => rfl
  | frame ty n c => exact (decode_frame hwf).trans (congrArg _ (decodeFrame_encode_frame ty n c))
  | txNop a => exact (decode_txcmd hwf).trans (congrArg _ (decodeTxCmd_encode_txNop a))
  | txClear a => exact (decode_txcmd hwf).trans (congrArg _ (decodeTxCmd_encode_txClear a))
  | txPush h b => exact (decode_txcmd hwf).trans (congrArg _ (decodeTxCmd_encode_txPush h b))
  | txStart a => exact (decode_txcmd hwf).trans (congrArg _ (decodeTxCmd_encode_txStart a))
  | crcInit e b => exact (decode_crccmd hwf).trans (congrArg _ (decodeCrcCmd_encode_crcInit e b))
  | crcByte b => exact (decode_crccmd hwf).trans (congrArg _ (decodeCrcCmd_encode_crcByte b))
  | crcHold b => exact (decode_crccmd hwf).trans (congrArg _ (decodeCrcCmd_encode_crcHold b))
  | calStep | preStep | sofStep | decStep | eofStep | valStep => rfl
  | txIdle | txPreamble | txSof | txData | txEof | txGap => rfl
  | rxTick | reset => rfl

/-! ## Encoding what was decoded -/

theorem encode_decodeSymbol {v : Nat} (hv : v < 2 ^ 2) : encode (decodeSymbol v) = ⟨.symbol, v⟩ := by
  obtain rfl | rfl | rfl | rfl : v = 0 ∨ v = 1 ∨ v = 2 ∨ v = 3 := by omega
  all_goals rfl

theorem encode_decodeTxCmd {v : Nat} (hv : v < 2 ^ 26) : encode (decodeTxCmd v) = ⟨.txcmd, v⟩ := by
  have hfields := bitField_op_arg hv
  obtain h | h | h | h := bitField_op_cases v
  · rw [h, Nat.zero_mul, Nat.zero_add] at hfields
    rw [decodeTxCmd_of_op_zero h, encode, toNat_ofNat_bitField, hfields]
  · rw [h] at hfields
    rw [decodeTxCmd_of_op_one h, encode, toNat_ofNat_bitField, hfields]
  · rw [h, ← bitField_arg v, ← Nat.add_assoc] at hfields
    rw [decodeTxCmd_of_op_two h, encode, toNat_ofNat_bitField, toNat_ofNat_bitField, hfields]
  · rw [h] at hfields
    rw [decodeTxCmd_of_op_three h, encode, toNat_ofNat_bitField, hfields]

theorem encode_decodeCrcCmd {v : Nat} (hv : v < 2 ^ 10) : encode (decodeCrcCmd v) = ⟨.crccmd, v⟩ := by
  have hfields : bitField v 9 1 * 2 ^ 9 + bitField v 8 1 * 2 ^ 8 + bitField v 0 8 = v := by unfold bitField; omega
  have hbit : ∀ lo, bitField v lo 1 = 0 ∨ bitField v lo 1 = 1 := fun lo => Nat.mod_two_eq_zero_or_one _
  obtain hinit | hinit := hbit 9
  · obtain hen | hen := hbit 8
    · rw [decodeCrcCmd_of_hold hinit hen, encode, toNat_ofNat_bitField]
      exact congrArg _ (by omega)
    · rw [decodeCrcCmd_of_en hinit hen, encode, toNat_ofNat_bitField]
      exact congrArg _ (by omega)
  · rw [decodeCrcCmd_of_init hinit, encode, toNat_ofNat_bitField, toNat_ofNat_bitField]
    exact congrArg _ (by omega)

theorem encode_decodeFrame {v : Nat} (hv : v < 2 ^ 72) : encode (decodeFrame v) = ⟨.frame, v⟩ := by
  have hfields : bitField v 48 24 * 2 ^ 48 + bitField v 16 32 * 2 ^ 16 + bitField v 0 16 = v := by
    unfold bitField
    omega
  rw [decodeFrame, encode, toNat_ofNat_bitField, toNat_ofNat_bitField, toNat_ofNat_bitField, hfields]

theorem encode_handler_of_ofCode {v : Nat} {st : RxState} (h : RxState.ofCode v = some st) :
    encode st.handler = ⟨.rxstate, v⟩ := by
  unfold RxState.ofCode at h
  split at h <;> cases h <;> rfl

theorem encode_arm_of_ofCode {v : Nat} {ph : TxPhase} (h : TxPhase.ofCode v = some ph) :
    encode ph.arm = ⟨.txphase, v⟩ := by
  unfold TxPhase.ofCode at h
  split at h <;> cases h <;> rfl

/-- Settles O2: format by format, encoding puts back together what the decoder took apart. -/
theorem encodeDecodeIsIdentity : Obligations.EncodeDecodeIsIdentity := by
  rintro ⟨fmt, v⟩ i hdec
  unfold decode at hdec
  split at hdec
  swap
  · cases hdec
  next hwf =>
  have hv := lt_of_wf hwf
  cases fmt <;> dsimp only at hdec
  case symbol => cases hdec; exact encode_decodeSymbol hv
  case delim =>
    split_ifs at hdec with hsof heof <;> cases hdec
    · exact congrArg _ hsof.symm
    · exact congrArg _ heof.symm
  case preamble =>
    split_ifs at hdec with hpre
    cases hdec
    exact congrArg _ hpre.symm
  case frame => cases hdec; exact encode_decodeFrame hv
  case txcmd => cases hdec; exact encode_decodeTxCmd hv
  case crccmd => cases hdec; exact encode_decodeCrcCmd hv
  case rxstate =>
    split at hdec <;> cases hdec
    next hcode => exact encode_handler_of_ofCode hcode
  case txphase =>
    split at hdec <;> cases hdec
    next hcode => exact encode_arm_of_ofCode hcode
  case rst =>
    cases hdec
    obtain rfl | rfl : v = 0 ∨ v = 1 := by simp only [Format.width] at hv; omega
    all_goals rfl

/-! ## Words of the spec -/

/-- Settles O3: each word is the code of the operation beside it, and a code decodes to its operation. -/
theorem specWordsDecode : Obligations.SpecWordsDecode :=
  ⟨decodeEncodeIsIdentity .sym1, decodeEncodeIsIdentity .sym0, decodeEncodeIsIdentity .delimSof,
    decodeEncodeIsIdentity .delimEof, decodeEncodeIsIdentity .preamble,
    decodeEncodeIsIdentity (.frame 0x545854 2 0x46F6), decodeEncodeIsIdentity (.txPush 0 0x48),
    decodeEncodeIsIdentity (.txStart 0x545854), decodeEncodeIsIdentity (.crcInit 1 0x48),
    decodeEncodeIsIdentity (.crcByte 0x48), decodeEncodeIsIdentity .decStep, decodeEncodeIsIdentity .txGap,
    decodeEncodeIsIdentity .reset⟩

/-- The code of a receiver state is the code of its handler (R98). -/
theorem encode_handler (st : RxState) : encode st.handler = ⟨.rxstate, st.code.toNat⟩ := by cases st <;> rfl

/-- The code of a sender phase is the code of its arm (R99). -/
theorem encode_arm (ph : TxPhase) : encode ph.arm = ⟨.txphase, ph.code.toNat⟩ := by cases ph <;> rfl

theorem decode_rxState_code (st : RxState) : decode ⟨.rxstate, st.code.toNat⟩ = .ok st.handler :=
  encode_handler st ▸ decodeEncodeIsIdentity st.handler

theorem decode_txPhase_code (ph : TxPhase) : decode ⟨.txphase, ph.code.toNat⟩ = .ok ph.arm :=
  encode_arm ph ▸ decodeEncodeIsIdentity ph.arm

theorem decode_unreachable {fmt : Format} (hfmt : fmt = .rxstate ∨ fmt = .txphase) {v : Nat} (hv : v = 6 ∨ v = 7) :
    decode ⟨fmt, v⟩ = .error .unreachableCode := by
  obtain rfl | rfl := hfmt <;> obtain rfl | rfl := hv <;> rfl

/-- Settles O4: a state's code selects the state's own handler, a phase's its arm; `110` and `111` select none. -/
theorem stateCodesSelectOperations : Obligations.StateCodesSelectOperations := by
  refine ⟨?rxState, ?txPhase, fun fmt hfmt v hv => decode_unreachable hfmt hv, rfl, fun s pins => ⟨rfl, rfl⟩⟩
  case rxState =>
    simp only [decode_rxState_code]
    rfl
  case txPhase =>
    simp only [decode_txPhase_code]
    rfl

/-! ## The command word -/

/-- `tx_cmd` as a number: `op` above bit 24, `arg` below (R96). -/
theorem toNat_commandWord (op : BitVec 2) (arg : BitVec 24) :
    (op ++ arg).toNat = op.toNat * 2 ^ 24 + arg.toNat := by
  rw [BitVec.toNat_append, ← Nat.shiftLeft_add_eq_or_of_lt arg.isLt, Nat.shiftLeft_eq]

/-- A 24-bit argument as the bytes `TX.PUSH` sees: `arg[23:8]`, ignored, and `arg[7:0]` (R96). -/
theorem toNat_pushArgument (arg : BitVec 24) :
    (arg.extractLsb' 8 16).toNat * 2 ^ 8 + (arg.extractLsb' 0 8).toNat = arg.toNat := by
  have harg := arg.isLt
  simp only [BitVec.extractLsb'_toNat, Nat.shiftRight_eq_div_pow]
  omega

/-- Settles O5: the word with `op` and `arg` in their fields is the code of the command the statement names. -/
theorem commandWordFields : Obligations.CommandWordFields := by
  intro op arg
  have hdecode : ∀ i, encode i = ⟨.txcmd, op.toNat * 2 ^ 24 + arg.toNat⟩ →
      decode ⟨.txcmd, (op ++ arg).toNat⟩ = .ok i := fun i hcode => by
    rw [toNat_commandWord, ← hcode, decodeEncodeIsIdentity]
  refine ⟨?nop, ?clear, ?push, ?start⟩ <;> rintro rfl <;> apply hdecode
  case nop => simp [encode]
  case clear => rfl
  case push =>
    rw [encode, Nat.add_assoc, toNat_pushArgument]
    rfl
  case start => rfl

/-! ## A code word as a stimulus line -/

/-- Settles O8: the line is taken off the script, then the word is decoded and run. -/
theorem stepRunsTheCodeWord : Obligations.StepRunsTheCodeWord := by
  intro s w i rest hwf hscript hdec
  rw [step_of_wf hwf, runScript, hscript]
  simp only [runLine, runCode, hdec]

end Sys2Proof.Machine
end

section
/-! PROOFS. Levels on the channel (30_encoding.md R81 to R87, R102): how long they take, what they leave alone, and what
a receiver that hears them makes of one level.  Everything the receiver does is at its invocations, so times are
counted from the next one. -/

namespace Sys2Proof.Machine

/-! ## The clock and the channel -/

@[simp] theorem holdLevel_freeCtr (lv : Level) (d : Nat) (s : State) :
    (holdLevel lv d s).freeCtr = s.freeCtr + d := by
  induction d generalizing s with
  | zero => rfl
  | succ d ih => rw [holdLevel, ih, tickWith_freeCtr]; omega

@[simp] theorem driveLevels_freeCtr (d : Nat) (ls : List Level) (s : State) :
    (driveLevels d ls s).freeCtr = s.freeCtr + ls.length * d := by
  induction ls generalizing s with
  | nil => simp [driveLevels]
  | cons lv ls ih => rw [driveLevels, ih, holdLevel_freeCtr, List.length_cons, Nat.succ_mul]; omega

@[simp] theorem driveLevels_chanLight (d : Nat) (ls : List Level) (s : State) :
    (driveLevels d ls s).chanLight = s.chanLight := by
  induction ls generalizing s with
  | nil => rfl
  | cons lv ls ih => rw [driveLevels, ih, holdLevel_chanLight]

@[simp] theorem driveLevels_chanDark (d : Nat) (ls : List Level) (s : State) :
    (driveLevels d ls s).chanDark = s.chanDark := by
  induction ls generalizing s with
  | nil => rfl
  | cons lv ls ih => rw [driveLevels, ih, holdLevel_chanDark]

theorem holdLevel_now_lt (lv : Level) (d : Nat) {s : State} (h : s.now < 2 ^ s.params.wT) :
    (holdLevel lv d s).now < 2 ^ s.params.wT := by
  rw [holdLevel_now lv d s h]
  exact Nat.mod_lt _ (Nat.two_pow_pos _)

theorem driveLevels_now (d : Nat) (ls : List Level) (s : State) (h : s.now < 2 ^ s.params.wT) :
    (driveLevels d ls s).now = (s.now + ls.length * d) % 2 ^ s.params.wT := by
  induction ls generalizing s with
  | nil => simpa [driveLevels] using (Nat.mod_eq_of_lt h).symm
  | cons lv ls ih =>
    rw [driveLevels, ih _ (by simpa using holdLevel_now_lt lv d h), holdLevel_now lv d s h, holdLevel_params,
      Nat.mod_add_mod, List.length_cons, Nat.succ_mul, Nat.add_assoc, Nat.add_comm d]

/-- Two equal levels in turn are one level held as long as both. -/
theorem holdLevel_eq_driveLevels_pair (lv : Level) (d : Nat) (s : State) :
    holdLevel lv (d + d) s = driveLevels d [lv, lv] s := holdLevel_append lv d d s

/-! ## The sender meanwhile -/

/-- An idle sender to which nothing is commanded (R135). -/
def Sender.rest (t : Sender) : Sender := { t with txOut := false, txDone := false }

/-- A tick with `TX.NOP` leaves an idle sender at rest (R130, R135). -/
theorem txTick_of_idle {p : Params} {ctr : Nat} {t : Sender} (h : t.txPhase = .idle) :
    txTick p ctr 0 t = t.rest := by
  simp [txTick, h, idleTick, hostCommand, ifIdle, cmdOp, Sender.rest]

theorem holdLevel_tx_of_idle (lv : Level) {d : Nat} (hd : 0 < d) {s : State} (h : s.tx.txPhase = .idle) :
    (holdLevel lv d s).tx = s.tx.rest := by
  induction d generalizing s with
  | zero => exact absurd hd (Nat.lt_irrefl 0)
  | succ d ih =>
    have htick : (tickWith (channelPins lv s) s).tx = s.tx.rest := by
      rw [tickWith_tx, channelPins_rst]
      exact txTick_of_idle h
    obtain rfl | hd' := Nat.eq_zero_or_pos d
    · exact htick
    · rw [holdLevel, ih hd' (by rw [htick]; exact h), htick]
      rfl

theorem driveLevels_tx_of_idle {d : Nat} {ls : List Level} (htime : 0 < ls.length * d) {s : State}
    (h : s.tx.txPhase = .idle) : (driveLevels d ls s).tx = s.tx.rest := by
  have hd : 0 < d := Nat.pos_of_mul_pos_left htime
  induction ls generalizing s with
  | nil => simp at htime
  | cons lv ls ih =>
    have hhold := holdLevel_tx_of_idle lv hd h
    rw [driveLevels]
    obtain rfl | hls := eq_or_ne ls []
    · exact hhold
    · have hidle : (holdLevel lv d s).tx.txPhase = .idle := by rw [hhold]; exact h
      rw [ih (Nat.mul_pos (List.length_pos_iff.mpr hls) hd) hidle, hhold]
      rfl

/-! ## The wire codes' time -/

/-- An operation that is levels on the channel for `n` bit periods takes just that time (R85). -/
theorem exec_takes_of_driveLevels {s : State} (hwf : s.params.wf = true) (hnow : s.now < 2 ^ s.params.wT)
    {i : Instr} {d n : Nat} {ls : List Level} (hexec : exec i s = .next (driveLevels d ls s)) (hn : 0 < n)
    (htime : ls.length * d = n * s.params.tBit) :
    ∃ t, exec i s = .next t ∧ t.now = (s.now + n * s.params.tBit) % 2 ^ s.params.wT
      ∧ t.freeCtr = s.freeCtr + n * s.params.tBit ∧ t.params = s.params ∧ t.script = s.script
      ∧ t.chanLight = s.chanLight ∧ t.chanDark = s.chanDark
      ∧ (s.tx.txPhase = .idle → t.tx = { s.tx with txOut := false, txDone := false }) := by
  have hpos : 0 < ls.length * d := by
    rw [htime]
    exact Nat.mul_pos hn (period_pos hwf .sof)
  refine ⟨_, hexec, ?_, ?_, driveLevels_params d ls s, driveLevels_script d ls s, driveLevels_chanLight d ls s,
    driveLevels_chanDark d ls s, driveLevels_tx_of_idle hpos⟩
  · rw [driveLevels_now d ls s hnow, htime]
  · rw [driveLevels_freeCtr, htime]

/-- Half a symbol twice is one bit period (R8). -/
theorem Params.two_mul_tHalf {p : Params} (h : p.wf = true) : 2 * p.tHalf = p.tBit := by
  have hp := Params.wf_facts h
  unfold Params.tHalf
  omega

/-- Settles O45: the levels of each code, times their duration, make up the bit periods of R85. -/
theorem wireCodesTakeTheirTime : Obligations.WireCodesTakeTheirTime := by
  intro s ty len c hwf hnow
  have hhalf := Params.two_mul_tHalf hwf
  have hsymbol : 2 * s.params.tHalf = 1 * s.params.tBit := by rw [hhalf, Nat.one_mul]
  have hheader : 144 * s.params.tHalf = 72 * s.params.tBit := by omega
  simp only [List.forall_mem_cons, List.not_mem_nil, false_imp_iff, implies_true, and_true]
  refine ⟨?sym1, ?sym0, ?symInv0, ?symInv1, ?delimSof, ?delimEof, ?preamble, ?frame⟩
  case sym1 => exact exec_takes_of_driveLevels hwf hnow (exec_sym1 s) (by decide) hsymbol
  case sym0 => exact exec_takes_of_driveLevels hwf hnow (exec_sym0 s) (by decide) hsymbol
  case symInv0 => exact exec_takes_of_driveLevels hwf hnow (exec_symInv0 s) (by decide) hsymbol
  case symInv1 => exact exec_takes_of_driveLevels hwf hnow (exec_symInv1 s) (by decide) hsymbol
  case delimSof => exact exec_takes_of_driveLevels hwf hnow (exec_delimSof s) (by decide) rfl
  case delimEof => exact exec_takes_of_driveLevels hwf hnow (exec_delimEof s) (by decide) rfl
  case preamble => exact exec_takes_of_driveLevels hwf hnow (exec_preamble s) (by decide) rfl
  case frame =>
    refine exec_takes_of_driveLevels hwf hnow (exec_frame s ty len c) (by decide) ?_
    rw [length_bytesLevels, length_headerBytes, hheader]

/-! ## A receiver that hears the channel -/

/-- A calibrated receiver on a noiseless channel, with parameters that meet the constraints of R8 and R9 (R235,
R262). -/
structure State.Hears (s : State) : Prop where
  wf : s.params.wf = true
  now_lt : s.now < 2 ^ s.params.wT
  calibrated : s.rx.rxState ≠ .cal
  noiseless : s.Noiseless

theorem State.Hears.tick {s : State} (h : s.Hears) (lv : Level) : (tickWith (channelPins lv s) s).Hears := by
  have hrx : (tickWith (channelPins lv s) s).rx.cal = s.rx.cal
      ∧ (tickWith (channelPins lv s) s).rx.rxState ≠ .cal := by
    rw [(hold_one lv s).2.2]
    split_ifs
    · exact ⟨handle_cal h.calibrated, handle_rxState_ne_cal h.calibrated⟩
    · exact ⟨rfl, h.calibrated⟩
  refine ⟨?_, ?_, hrx.2, ?_⟩
  · rw [tickWith_params]
    exact h.wf
  · rw [(hold_one lv s).1, tickWith_params]
    exact nextNow_lt
  · have hnoise := h.noiseless
    unfold State.Noiseless Receiver.level at *
    rwa [tickWith_params, tickWith_chanLight, tickWith_chanDark, hrx.1]

theorem State.Hears.holdLevel {s : State} (h : s.Hears) (lv : Level) (d : Nat) : (holdLevel lv d s).Hears := by
  induction d generalizing s with
  | zero => exact h
  | succ d ih => exact ih (h.tick lv)

theorem State.Hears.driveLevels {s : State} (h : s.Hears) (d : Nat) (ls : List Level) : (driveLevels d ls s).Hears := by
  induction ls generalizing s with
  | nil => exact h
  | cons lv ls ih => exact ih (h.holdLevel lv d)

/-! ## One invocation -/

/-- The time `k` ticks after the next invocation (R200, R201). -/
def State.dueIn (s : State) (k : Nat) : Nat := (s.now + s.wait + k) % 2 ^ s.params.wT

/-- The event an invocation leaves on the port for the rest of `d` ticks: it stands for one tick (R42). -/
def State.shown (s : State) (d : Nat) (e : Event) : Event := if d = s.wait + 1 then e else .none

/-- No handler reads the event port. -/
theorem raiseEvent_handle_evCode (p : Params) (ctr now smp : Nat) (r : Receiver) (e : Event) :
    raiseEvent (handle p ctr now smp { r with evCode := e }) = raiseEvent (handle p ctr now smp r) := by
  obtain ⟨st, cal, ses, res, ev, buf⟩ := r
  cases st <;> dsimp only [handle]
  case cal => unfold calHandler; dsimp only; split_ifs <;> rfl
  case pre => unfold preHandler Receiver.level; dsimp only; split_ifs <;> rfl
  case sof =>
    unfold sofHandler Receiver.level
    dsimp only
    split_ifs
    · rfl
    · split <;> rfl
  case data =>
    unfold decHandler validSymbol invalidSymbol completeByte Receiver.level
    dsimp only
    split_ifs <;> rfl
  case eofs =>
    unfold eofHandler Receiver.level
    dsimp only
    split_ifs
    · rfl
    · split <;> rfl
  case proc => rfl

/-- The receiver after its next invocation, if that one hears the level `lv`. -/
def State.heard (s : State) (lv : Level) : Receiver :=
  raiseEvent (handle s.params (s.freeCtr + s.wait) (s.dueIn 0) (portSample s.params (s.intensity lv)) s.rx)

/-- A level that is held from an invocation on, and not beyond the next, is heard once. -/
theorem holdLevel_of_due (lv : Level) {s : State} {e : Nat} (hwait : s.wait = 0)
    (he : e < period s.params s.rx.rxState) :
    (holdLevel lv (e + 1) s).wait = period s.params s.rx.rxState - (e + 1)
      ∧ (holdLevel lv (e + 1) s).rx =
        (let r := raiseEvent (handle s.params s.freeCtr s.now (portSample s.params (s.intensity lv)) s.rx)
         { r with evCode := if e = 0 then r.evCode else .none }) := by
  obtain ⟨-, htwait, htrx⟩ := hold_one lv s
  rw [if_pos hwait] at htwait htrx
  obtain ⟨hwait', hrx'⟩ := holdLevel_wait lv e (tickWith (channelPins lv s) s) (by omega)
  refine ⟨by rw [holdLevel, hwait']; omega, ?_⟩
  rw [holdLevel, hrx', htrx]
  by_cases h0 : e = 0
  · simp only [h0, if_true]
  · simp only [h0, if_false]

/-- A level that is held until an invocation, and not beyond the next, is heard once. -/
theorem holdLevel_invocation (lv : Level) {s : State} {d : Nat} (hnow : s.now < 2 ^ s.params.wT) (hwait : s.wait < d)
    (hd : d ≤ s.wait + period s.params s.rx.rxState) :
    (holdLevel lv d s).wait = s.wait + period s.params s.rx.rxState - d
      ∧ (holdLevel lv d s).rx = { s.heard lv with evCode := s.shown d (s.heard lv).evCode } := by
  obtain ⟨e, rfl⟩ := Nat.exists_eq_add_of_lt hwait
  obtain ⟨huwait, hurx⟩ := holdLevel_wait lv s.wait s (le_refl _)
  rw [Nat.sub_self] at huwait
  have hust : (holdLevel lv s.wait s).rx.rxState = s.rx.rxState := by rw [hurx]; split_ifs <;> rfl
  have hheard : raiseEvent (handle s.params (s.freeCtr + s.wait) ((s.now + s.wait) % 2 ^ s.params.wT)
      (portSample s.params (s.intensity lv)) (holdLevel lv s.wait s).rx) = s.heard lv := by
    rw [hurx]
    split_ifs
    · rfl
    · exact raiseEvent_handle_evCode _ _ _ _ _ _
  obtain ⟨hwait', hrx'⟩ := holdLevel_of_due lv (e := e) huwait (by rw [hust, holdLevel_params]; omega)
  rw [Nat.add_assoc, holdLevel_append]
  refine ⟨?_, ?_⟩
  · rw [hwait', hust, holdLevel_params]
    omega
  · rw [hrx', holdLevel_params, holdLevel_freeCtr, holdLevel_intensity, holdLevel_now lv s.wait s hnow]
    dsimp only
    rw [hheard]
    simp [State.shown]

@[simp] theorem State.shown_none (s : State) (d : Nat) : s.shown d .none = .none := ite_self _

/-! ## Time from the next invocation on -/

theorem State.dueIn_eq_of_wait {s : State} (hwait : s.wait = 0) (k : Nat) :
    s.dueIn k = (s.now + k) % 2 ^ s.params.wT := by
  rw [State.dueIn, hwait, Nat.add_zero]

theorem State.dueIn_zero_of_wait {s : State} (hnow : s.now < 2 ^ s.params.wT) (hwait : s.wait = 0) :
    s.dueIn 0 = s.now := by
  rw [State.dueIn_eq_of_wait hwait, Nat.add_zero, Nat.mod_eq_of_lt hnow]

theorem elapsed_dueIn_dueIn (s : State) (j : Nat) {k : Nat} (hk : k < 2 ^ s.params.wT) :
    elapsed s.params (s.dueIn (j + k)) (s.dueIn j) = k := by
  rw [State.dueIn, State.dueIn, ← Nat.add_assoc]
  exact elapsed_add hk

/-- A timer started at `t0` has not expired `k` ticks after the next invocation, nor wrapped (R206). -/
structure State.InTime (s : State) (t0 k timeout : Nat) : Prop where
  fits : timeout < 2 ^ s.params.wT
  le : elapsed s.params (s.dueIn 0) t0 + k ≤ timeout

namespace State.InTime

variable {s : State} {t0 j k timeout : Nat}

theorem mono (h : s.InTime t0 k timeout) (hjk : j ≤ k) : s.InTime t0 j timeout :=
  ⟨h.fits, (Nat.add_le_add_left hjk _).trans h.le⟩

/-- A timer at a state whose next invocation is due. -/
theorem of_due (hnow : s.now < 2 ^ s.params.wT) (hwait : s.wait = 0) (hfits : timeout < 2 ^ s.params.wT)
    (hle : elapsed s.params s.now t0 + k ≤ timeout) : s.InTime t0 k timeout :=
  ⟨hfits, by rwa [State.dueIn_zero_of_wait hnow hwait]⟩

theorem elapsed_le (h : s.InTime t0 k timeout) : elapsed s.params (s.dueIn 0) t0 ≤ timeout :=
  (Nat.le_add_right _ _).trans h.le

end State.InTime

/-- The state `t` is reached from `s` in `n` ticks; its receiver is `r`, and its invocations are in the phase of those
of `s`. -/
structure State.After (s : State) (n : Nat) (r : Receiver) (t : State) : Prop where
  hears : t.Hears
  params : t.params = s.params
  now : t.now = (s.now + n) % 2 ^ s.params.wT
  wait : t.wait = s.wait
  rx : t.rx = r

namespace State.After

variable {s t u : State} {m n : Nat} {r r' : Receiver}

theorem refl (h : s.Hears) : s.After 0 s.rx s := ⟨h, rfl, (Nat.mod_eq_of_lt h.now_lt).symm, rfl, rfl⟩

theorem trans (hst : s.After m r t) (htu : t.After n r' u) : s.After (m + n) r' u where
  hears := htu.hears
  params := htu.params.trans hst.params
  now := by rw [htu.now, hst.params, hst.now, Nat.mod_add_mod, Nat.add_assoc]
  wait := htu.wait.trans hst.wait
  rx := htu.rx

theorem dueIn (h : s.After n r t) (k : Nat) : t.dueIn k = s.dueIn (n + k) := by
  rw [State.dueIn, State.dueIn, h.params, h.now, h.wait, Nat.add_assoc, Nat.mod_add_mod]
  congr 1
  omega

/-- A timer that runs on. -/
theorem inTime {t0 k timeout : Nat} (h : s.After n r t) (hs : s.InTime t0 (n + k) timeout) : t.InTime t0 k timeout where
  fits := by rw [h.params]; exact hs.fits
  le := by
    have hle := hs.le
    have hfits := hs.fits
    have hrun : elapsed s.params (s.dueIn n) t0 = elapsed s.params (s.dueIn 0) t0 + n := by
      rw [← elapsed_advance (by omega), State.dueIn, State.dueIn, Nat.mod_add_mod, Nat.add_zero]
    rw [h.params, h.dueIn, Nat.add_zero, hrun]
    omega

/-- A timer started on the way. -/
theorem inTime_dueIn {j i k timeout : Nat} (h : s.After n r t) (hn : n = j + i) (hfits : timeout < 2 ^ s.params.wT)
    (hle : i + k ≤ timeout) : t.InTime (s.dueIn j) k timeout where
  fits := by rw [h.params]; exact hfits
  le := by rwa [h.params, h.dueIn, Nat.add_zero, hn, elapsed_dueIn_dueIn s j (by omega)]

end State.After

/-- A level held for one period is heard once, and the next invocation is a period later. -/
theorem State.Hears.after_holdLevel {s : State} (h : s.Hears) (lv : Level) {d : Nat} (hwait : s.wait < d)
    (hd : period s.params s.rx.rxState = d) :
    s.After d { s.heard lv with evCode := s.shown d (s.heard lv).evCode } (Machine.holdLevel lv d s) := by
  obtain ⟨hwait', hrx'⟩ := holdLevel_invocation lv h.now_lt hwait (by omega)
  exact ⟨h.holdLevel lv d, holdLevel_params lv d s, holdLevel_now lv d s h.now_lt, by omega, hrx'⟩

theorem State.Hears.after_holdLevel_of_quiet {s : State} (h : s.Hears) {lv : Level} {d : Nat} (hwait : s.wait < d)
    (hd : period s.params s.rx.rxState = d) {r : Receiver} (hheard : s.heard lv = r) (hquiet : r.evCode = .none) :
    s.After d r (Machine.holdLevel lv d s) := by
  have hafter := h.after_holdLevel lv hwait hd
  rw [hheard, hquiet, State.shown_none] at hafter
  rwa [← hquiet] at hafter

end Sys2Proof.Machine
end

section
/-! PROOFS. The two pattern searches on the channel (43_sync_detector.md R154 to R156, 45_end_frame_detector.md R180 to
R184): raw bits that end in no match only move the window, and `DELIM.SOF` is matched at its last raw bit. -/

namespace Sys2Proof.Machine

/-! ## Searching a history of levels -/

/-- Cutting a history to its last `m` levels changes no shorter suffix of what it grows to. -/
theorem lastN_lastN_append (xs ys : List Level) {m n : Nat} (h : n ≤ m) :
    lastN (lastN xs m ++ ys) n = lastN (xs ++ ys) n := by
  induction ys using List.reverseRecOn with
  | nil => simpa using lastN_lastN xs h
  | append_singleton ys lv ih =>
    rw [← List.append_assoc, ← List.append_assoc, ← lastN_append_singleton (lastN xs m ++ ys) lv (le_refl n), ih,
      lastN_append_singleton _ _ (le_refl n)]

/-- A window of 16 levels finds what the whole history holds (R155, R156). -/
theorem search_lastN_append_isMatch_iff {history ys : List Level} {lv : Level} {pat : Byte} :
    search (lastN history 16 ++ ys) lv pat = .isMatch ↔ search (history ++ ys) lv pat = .isMatch := by
  simp only [search_isMatch_iff, List.append_assoc, List.length_append, length_lastN]
  rw [lastN_lastN_append _ _ (by decide)]
  exact and_congr_left fun _ => by omega

/-- Levels that are not the end of a pattern end no match, whatever came before them. -/
theorem search_ne_isMatch_of_suffix {history ys : List Level} {lv : Level} {pat : Byte} (hlen : ys.length < 8)
    (hne : ys ++ [lv] ≠ lastN (bitsMsbFirst 8 pat.toNat) (ys.length + 1)) :
    search (history ++ ys) lv pat ≠ .isMatch := by
  intro h
  obtain ⟨-, hlast⟩ := search_isMatch_iff.mp h
  refine hne ?_
  calc ys ++ [lv] = lastN (history ++ (ys ++ [lv])) (ys.length + 1) := by
        simpa using (lastN_append history (ys ++ [lv])).symm
    _ = lastN (lastN (history ++ (ys ++ [lv])) 8) (ys.length + 1) := (lastN_lastN _ hlen).symm
    _ = lastN (bitsMsbFirst 8 pat.toNat) (ys.length + 1) := by rw [← List.append_assoc, hlast]

/-- The whole pattern ends in a match, whatever came before it (R156). -/
theorem search_append_isMatch {history ys : List Level} {lv : Level} {pat : Byte}
    (h : ys ++ [lv] = bitsMsbFirst 8 pat.toNat) : search (history ++ ys) lv pat = .isMatch := by
  have hlen : ys.length + 1 = 8 := by simpa using congrArg List.length h
  rw [search_isMatch_iff, List.append_assoc, h]
  refine ⟨by rw [List.length_append]; omega, ?_⟩
  simpa using lastN_append history (bitsMsbFirst 8 pat.toNat)

/-- The pattern ends nowhere in the levels `ls` that follow a history. -/
def Misses (pat : Byte) : List Level → List Level → Prop
  | _, [] => True
  | history, lv :: ls => search history lv pat ≠ .isMatch ∧ Misses pat (history ++ [lv]) ls

/-- Levels none of whose beginnings is an end of the pattern, after any history. -/
theorem misses_of_suffix_ne {pat : Byte} {history ys ls : List Level} (hlen : ys.length + ls.length ≤ 8)
    (hne : ∀ k < ls.length,
      ys ++ ls.take (k + 1) ≠ lastN (bitsMsbFirst 8 pat.toNat) (ys.length + (k + 1))) :
    Misses pat (history ++ ys) ls := by
  induction ls generalizing ys with
  | nil => trivial
  | cons lv ls ih =>
    rw [List.length_cons] at hlen hne
    refine ⟨search_ne_isMatch_of_suffix (by omega) (hne 0 (Nat.succ_pos _)), ?_⟩
    rw [List.append_assoc]
    refine ih (by simpa using by omega) fun k hk => ?_
    have := hne (k + 1) (by omega)
    simpa [Nat.add_assoc, Nat.add_comm 1] using this

theorem misses_lastN_append_iff {pat : Byte} {history ys ls : List Level} :
    Misses pat (lastN history 16 ++ ys) ls ↔ Misses pat (history ++ ys) ls := by
  induction ls generalizing ys with
  | nil => exact Iff.rfl
  | cons lv ls ih =>
    simp only [Misses, List.append_assoc]
    exact and_congr (not_congr search_lastN_append_isMatch_iff) ih

/-- A level that ends no match moves the window. -/
theorem search_eq_window {win : List Level} {lv : Level} {pat : Byte} (h : search win lv pat ≠ .isMatch) :
    search win lv pat = .window (lastN (win ++ [lv]) 16) :=
  (search_cases win lv pat).elim (fun hm => absurd hm.1 h) fun hw => hw.1

/-! ## The searching handlers -/

section
variable {p : Params} {ctr now smp : Nat} {r : Receiver} {w : List Level}

theorem sofHandler_isMatch (htime : elapsed p now r.ses.phaseStart ≤ p.toSof)
    (h : search r.ses.win (r.level smp) Config.patSof = .isMatch) :
    sofHandler p now smp r = (startFrame now r, .sofMatch) := by
  simp [sofHandler, not_expired_iff.mpr htime, h]

theorem sofHandler_window (htime : elapsed p now r.ses.phaseStart ≤ p.toSof)
    (h : search r.ses.win (r.level smp) Config.patSof = .window w) :
    sofHandler p now smp r = ({ r with ses := { r.ses with win := w } }, .none) := by
  simp [sofHandler, not_expired_iff.mpr htime, h]

theorem eofHandler_isMatch (htime : elapsed p now r.ses.phaseStart ≤ p.toEof)
    (h : search r.ses.win (r.level smp) Config.patEof = .isMatch) :
    eofHandler p now smp r = ({ r with rxState := .proc, ses := { r.ses with win := [] } }, .eofMatch) := by
  simp [eofHandler, not_expired_iff.mpr htime, h]

theorem eofHandler_window (htime : elapsed p now r.ses.phaseStart ≤ p.toEof)
    (h : search r.ses.win (r.level smp) Config.patEof = .window w) :
    eofHandler p now smp r = ({ r with ses := { r.ses with win := w } }, .none) := by
  simp [eofHandler, not_expired_iff.mpr htime, h]

end

/-! ## Searches on the channel -/

/-- The receiver hears the channel and searches for a pattern, with a timeout (R154, R182). -/
structure State.Searches (s : State) (pat : Byte) (timeout : Nat) : Prop where
  hears : s.Hears
  search : s.rx.rxState = .sof ∧ pat = Config.patSof ∧ timeout = s.params.toSof ∨
    s.rx.rxState = .eofs ∧ pat = Config.patEof ∧ timeout = s.params.toEof

/-- What a match makes of a searching receiver, and its event (R154, R182). -/
def Receiver.found (now : Nat) (r : Receiver) : Receiver × Event :=
  if r.rxState = .sof then (startFrame now r, .sofMatch)
  else ({ r with rxState := .proc, ses := { r.ses with win := [] } }, .eofMatch)

/-- A match does away with the window. -/
theorem raiseEvent_found_win (now : Nat) (r : Receiver) (w : List Level) (e : Event) :
    raiseEvent (Receiver.found now { r with ses := { r.ses with win := w }, evCode := e })
      = raiseEvent (r.found now) := by
  unfold Receiver.found
  dsimp only
  split_ifs <;> rfl

namespace State.Searches

variable {s : State} {pat : Byte} {timeout : Nat}

/-- Both searches take one level each bit period (R203). -/
theorem period_eq (h : s.Searches pat timeout) : period s.params s.rx.rxState = s.params.tBit := by
  obtain ⟨hst, -⟩ | ⟨hst, -⟩ := h.search <;> rw [hst] <;> rfl

theorem heard_window (h : s.Searches pat timeout) (htime : s.InTime s.rx.ses.phaseStart 0 timeout) {lv : Level}
    (hmiss : Machine.search s.rx.ses.win lv pat ≠ .isMatch) :
    s.heard lv = { s.rx with ses := { s.rx.ses with win := lastN (s.rx.ses.win ++ [lv]) 16 }, evCode := .none } := by
  have hwin := search_eq_window hmiss
  rw [← h.hears.noiseless.level_intensity lv] at hwin
  obtain ⟨hst, rfl, rfl⟩ | ⟨hst, rfl, rfl⟩ := h.search
  · rw [State.heard, handle, hst]
    dsimp only
    rw [sofHandler_window htime.elapsed_le hwin, h.hears.noiseless.level_intensity lv]
    rfl
  · rw [State.heard, handle, hst]
    dsimp only
    rw [eofHandler_window htime.elapsed_le hwin, h.hears.noiseless.level_intensity lv]
    rfl

theorem heard_isMatch (h : s.Searches pat timeout) (htime : s.InTime s.rx.ses.phaseStart 0 timeout) {lv : Level}
    (hmatch : Machine.search s.rx.ses.win lv pat = .isMatch) :
    s.heard lv = raiseEvent (s.rx.found (s.dueIn 0)) := by
  rw [← h.hears.noiseless.level_intensity lv] at hmatch
  obtain ⟨hst, rfl, rfl⟩ | ⟨hst, rfl, rfl⟩ := h.search
  · rw [State.heard, handle, Receiver.found, if_pos hst, hst]
    dsimp only
    rw [sofHandler_isMatch htime.elapsed_le hmatch]
  · rw [State.heard, handle, Receiver.found, if_neg (by simp [hst]), hst]
    dsimp only
    rw [eofHandler_isMatch htime.elapsed_le hmatch]

theorem of_after {t : State} {n : Nat} {r : Receiver} (h : s.Searches pat timeout) (ht : s.After n r t)
    (hr : r.rxState = s.rx.rxState) : t.Searches pat timeout :=
  ⟨ht.hears, by rw [ht.rx, ht.params, hr]; exact h.search⟩

/-- Raw bits that end no match leave the search as it was, but for a window that finds what the whole history holds. -/
theorem after_driveLevels {ls : List Level} (h : s.Searches pat timeout) (hwait : s.wait < s.params.tBit)
    (htime : s.InTime s.rx.ses.phaseStart (ls.length * s.params.tBit) timeout)
    (hmiss : Misses pat s.rx.ses.win ls) :
    ∃ w e, s.After (ls.length * s.params.tBit) { s.rx with ses := { s.rx.ses with win := w }, evCode := e }
        (driveLevels s.params.tBit ls s)
      ∧ ∀ lv, Machine.search w lv pat = .isMatch ↔ Machine.search (s.rx.ses.win ++ ls) lv pat = .isMatch := by
  induction ls generalizing s with
  | nil =>
    refine ⟨s.rx.ses.win, s.rx.evCode, ?_, by simp⟩
    simpa [driveLevels] using State.After.refl h.hears
  | cons lv ls ih =>
    obtain ⟨hfirst, hrest⟩ := hmiss
    have hheard := h.heard_window (htime.mono (Nat.zero_le _)) hfirst
    have hstep := h.hears.after_holdLevel_of_quiet hwait h.period_eq hheard rfl
    have htime' := hstep.inTime (k := ls.length * s.params.tBit) (htime.mono (by simp [Nat.succ_mul, Nat.add_comm]))
    have hrest' : Misses pat (lastN (s.rx.ses.win ++ [lv]) 16) ls := by
      simpa using misses_lastN_append_iff (ys := []).mpr (by simpa using hrest)
    obtain ⟨w, e, hafter, hw⟩ := ih (h.of_after hstep rfl) (by rw [hstep.wait, hstep.params]; exact hwait)
      (by rw [hstep.rx, hstep.params]; exact htime') (by rw [hstep.rx]; exact hrest')
    rw [hstep.rx, hstep.params] at hafter
    rw [hstep.rx] at hw
    refine ⟨w, e, ?_, fun x => (hw x).trans ?_⟩
    · rw [List.length_cons, Nat.succ_mul, Nat.add_comm]
      exact hstep.trans hafter
    · rw [search_lastN_append_isMatch_iff, List.append_assoc, List.singleton_append]

/-- A search whose pattern ends at the last of these raw bits, and not before, finds it there. -/
theorem after_driveLevels_isMatch {ls : List Level} {lv : Level} (h : s.Searches pat timeout)
    (hwait : s.wait < s.params.tBit) (htime : s.InTime s.rx.ses.phaseStart (ls.length * s.params.tBit) timeout)
    (hmiss : Misses pat s.rx.ses.win ls) (hmatch : Machine.search (s.rx.ses.win ++ ls) lv pat = .isMatch) :
    s.After (ls.length * s.params.tBit + s.params.tBit)
      (let r := raiseEvent (s.rx.found (s.dueIn (ls.length * s.params.tBit)))
       { r with evCode := s.shown s.params.tBit r.evCode })
      (driveLevels s.params.tBit (ls ++ [lv]) s) := by
  obtain ⟨w, e, hafter, hw⟩ := h.after_driveLevels hwait htime hmiss
  have hsearch := h.of_after hafter rfl
  have hlast := hsearch.hears.after_holdLevel lv (d := s.params.tBit) (by rw [hafter.wait]; exact hwait)
    (by rw [hsearch.period_eq, hafter.params])
  rw [hsearch.heard_isMatch (by rw [hafter.rx]; exact hafter.inTime htime)
      (by rw [hafter.rx]; exact (hw lv).mpr hmatch), hafter.rx, hafter.dueIn, Nat.add_zero, raiseEvent_found_win, State.shown, hafter.wait] at hlast
  rw [driveLevels_append]
  exact hafter.trans hlast

end State.Searches

/-! ## The start delimiter -/

/-- Settles O47: no beginning of `PAT_SOF` is an end of it, so the match comes with its last raw bit. -/
theorem startDelimiterIsMatched : Obligations.StartDelimiterIsMatched := by
  intro s hwf hnow hst hwait hnoise htime last
  have hp := Params.wf_facts hwf
  have hsearch : s.Searches Config.patSof s.params.toSof :=
    ⟨⟨hwf, hnow, by simp [hst], hnoise⟩, .inl ⟨hst, rfl, rfl⟩⟩
  have hin : s.InTime s.rx.ses.phaseStart (7 * s.params.tBit) s.params.toSof :=
    .of_due hnow hwait (by omega) htime
  have hmiss : Misses Config.patSof s.rx.ses.win [true, true, true, true, false, false, false] := by
    simpa using misses_of_suffix_ne (history := s.rx.ses.win) (ys := []) (by decide) (by decide)
  have hafter := hsearch.after_driveLevels_isMatch (ls := [true, true, true, true, false, false, false]) (lv := false)
    (by omega) hin hmiss (search_append_isMatch rfl)
  refine ⟨_, exec_delimSof s, hafter.wait.trans hwait, hafter.rx.trans ?_⟩
  have hshown : s.params.tBit ≠ 1 := by omega
  simp [Receiver.found, hst, State.shown, hwait, hshown, State.dueIn_eq_of_wait hwait, raiseEvent, startFrame, last]

end Sys2Proof.Machine
end

section
/-! PROOFS. Symbols on the channel (30_encoding.md R81, R87) at a decoder in step with them (44_manchester_decoder.md
R160 to R167): what one symbol does, whole bytes, and the end delimiter, whose first half is three invalid symbols and
whose second half the end-frame search hears. -/

namespace Sys2Proof.Machine

/-! ## The decoder's branches -/

section
variable {p : Params} {now smp : Nat} {r : Receiver} {b lv : Level} {byte : Byte}

theorem decHandler_firstHalf (hglobal : elapsed p now r.ses.lastByteTime ≤ p.toGlobal)
    (hinact : elapsed p now r.ses.lastValidTime ≤ p.toInact) (hhalf : r.ses.pairHalf = false) :
    decHandler p now smp r = ({ r with ses := { r.ses with firstLv := r.level smp, pairHalf := true } }, .none) := by
  simp [decHandler, not_expired_iff.mpr hglobal, not_expired_iff.mpr hinact, hhalf]

theorem decHandler_secondHalf (hglobal : elapsed p now r.ses.lastByteTime ≤ p.toGlobal)
    (hinact : elapsed p now r.ses.lastValidTime ≤ p.toInact) (hhalf : r.ses.pairHalf = true) :
    decHandler p now smp r =
      if r.ses.firstLv ≠ r.level smp then validSymbol p now r.ses.firstLv r
      else invalidSymbol p now (r.level smp) r := by
  simp [decHandler, not_expired_iff.mpr hglobal, not_expired_iff.mpr hinact, hhalf]

/-- A bit that is not the eighth (R164). -/
theorem validSymbol_of_lt (h : r.ses.bitCnt + 1 < 8) :
    validSymbol p now b r =
      ({ r with ses := { r.ses with
          pairHalf := false, invCount := 0, invRun := [], lastValidTime := now,
          bitAcc := shiftIn r.ses.bitAcc b, bitCnt := r.ses.bitCnt + 1 } }, .none) := by
  simp [validSymbol, h.ne]

/-- The eighth bit completes a byte, which is stored where there is room (R166). -/
theorem validSymbol_of_room (h : r.ses.bitCnt + 1 = 8) (hroom : r.ses.rxCount < p.rxDepth) :
    validSymbol p now b r =
      ({ r with
          ses := { r.ses with
            pairHalf := false, invCount := 0, invRun := [], lastValidTime := now, bitAcc := 0, bitCnt := 0,
            lastByteTime := now, rxCount := r.ses.rxCount + 1 }
          buf := memWrite p.rxDepth r.buf r.ses.rxCount (shiftIn r.ses.bitAcc b) }, .none) := by
  simp [validSymbol, h, completeByte, hroom]

/-- The eighth bit completes a byte, which is dropped where there is none (R166). -/
theorem validSymbol_of_full (h : r.ses.bitCnt + 1 = 8) (hfull : p.rxDepth ≤ r.ses.rxCount) :
    validSymbol p now b r =
      ({ r with ses := { r.ses with
          pairHalf := false, invCount := 0, invRun := [], lastValidTime := now, bitAcc := 0, bitCnt := 0,
          lastByteTime := now, rxOvf := true } }, .rxOverflow) := by
  simp [validSymbol, h, completeByte, hfull.not_gt]

/-- An invalid symbol below the limit (R165). -/
theorem invalidSymbol_of_lt (h : r.ses.invCount + 1 < p.invalidLimit) :
    invalidSymbol p now lv r =
      ({ r with ses := { r.ses with
          pairHalf := false, invCount := r.ses.invCount + 1, invRun := r.ses.invRun ++ [lv] } }, .none) := by
  simp [invalidSymbol, h.not_ge]

/-- The invalid symbol that reaches the limit (R165, R167). -/
theorem invalidSymbol_of_le (h : p.invalidLimit ≤ r.ses.invCount + 1) :
    invalidSymbol p now lv r =
      (enterEofs p now (r.ses.invRun ++ [lv]) { r with ses := { r.ses with pairHalf := false } }, .invalidLimit) := by
  simp [invalidSymbol, h]

end

/-! ## One symbol -/

/-- A decoder between two symbols, which hears each half of a symbol once (R160, R203). -/
structure State.Decodes (s : State) : Prop where
  hears : s.Hears
  state : s.rx.rxState = .data
  pairHalf : s.rx.ses.pairHalf = false
  wait_lt : s.wait < s.params.tHalf

/-- The receiver after the first half of a symbol (R163). -/
def Receiver.halfHeard (r : Receiver) (a : Level) : Receiver :=
  { r with ses := { r.ses with firstLv := a, pairHalf := true }, evCode := .none }

theorem shiftIn_eq_ofNat (acc : Byte) (b : Level) : shiftIn acc b = BitVec.ofNat 8 (2 * acc.toNat + b.toNat) :=
  BitVec.eq_of_toNat_eq (shiftIn_toNat acc b)

section
variable {s : State}

theorem State.Hears.heard_firstHalf (h : s.Hears) (hst : s.rx.rxState = .data)
    (hglobal : s.InTime s.rx.ses.lastByteTime 0 s.params.toGlobal)
    (hinact : s.InTime s.rx.ses.lastValidTime 0 s.params.toInact) (hhalf : s.rx.ses.pairHalf = false) (a : Level) :
    s.heard a = s.rx.halfHeard a := by
  rw [State.heard, handle, hst]
  dsimp only
  rw [decHandler_firstHalf hglobal.elapsed_le hinact.elapsed_le hhalf, h.noiseless.level_intensity]
  rfl

/-- A symbol is valid where its halves differ, and invalid where they do not (R164, R165). -/
theorem State.Hears.heard_secondHalf (h : s.Hears) (hst : s.rx.rxState = .data)
    (hglobal : s.InTime s.rx.ses.lastByteTime 0 s.params.toGlobal)
    (hinact : s.InTime s.rx.ses.lastValidTime 0 s.params.toInact) (hhalf : s.rx.ses.pairHalf = true) (b : Level) :
    s.heard b = raiseEvent
      (if s.rx.ses.firstLv ≠ b then validSymbol s.params (s.dueIn 0) s.rx.ses.firstLv s.rx
       else invalidSymbol s.params (s.dueIn 0) b s.rx) := by
  rw [State.heard, handle, hst]
  dsimp only
  rw [decHandler_secondHalf hglobal.elapsed_le hinact.elapsed_le hhalf, h.noiseless.level_intensity]

end

namespace State.Decodes

variable {s : State}

theorem period_eq (h : s.Decodes) : period s.params s.rx.rxState = s.params.tHalf := by rw [h.state]; rfl

/-- A decoder at a state whose next invocation is due. -/
theorem of_due (hwf : s.params.wf = true) (hnow : s.now < 2 ^ s.params.wT) (hst : s.rx.rxState = .data)
    (hwait : s.wait = 0) (hhalf : s.rx.ses.pairHalf = false) (hnoise : s.Noiseless) : s.Decodes :=
  ⟨⟨hwf, hnow, by simp [hst], hnoise⟩, hst, hhalf, hwait ▸ period_pos hwf .data⟩

theorem of_after {t : State} {n : Nat} {r : Receiver} (h : s.Decodes) (ht : s.After n r t) (hst : r.rxState = .data)
    (hhalf : r.ses.pairHalf = false) : t.Decodes where
  hears := ht.hears
  state := by rw [ht.rx, hst]
  pairHalf := by rw [ht.rx, hhalf]
  wait_lt := by rw [ht.wait, ht.params]; exact h.wait_lt

section
variable (h : s.Decodes) (hglobal : s.InTime s.rx.ses.lastByteTime s.params.tHalf s.params.toGlobal)
  (hinact : s.InTime s.rx.ses.lastValidTime s.params.tHalf s.params.toInact)
include h hglobal hinact

/-- The two halves of a symbol (R163 to R165). -/
theorem after_pair (a b : Level) :
    s.After s.params.tBit
      (let r := raiseEvent
          (if a ≠ b then validSymbol s.params (s.dueIn s.params.tHalf) a (s.rx.halfHeard a)
           else invalidSymbol s.params (s.dueIn s.params.tHalf) b (s.rx.halfHeard a))
       { r with evCode := s.shown s.params.tHalf r.evCode })
      (driveLevels s.params.tHalf [a, b] s) := by
  have hfirst := h.hears.after_holdLevel_of_quiet h.wait_lt h.period_eq
    (h.hears.heard_firstHalf h.state (hglobal.mono (Nat.zero_le _)) (hinact.mono (Nat.zero_le _)) h.pairHalf a) rfl
  rw [driveLevels, driveLevels, driveLevels]
  generalize holdLevel a s.params.tHalf s = t at hfirst ⊢
  have hst : t.rx.rxState = .data := by rw [hfirst.rx]; exact h.state
  have hglobal' : t.InTime t.rx.ses.lastByteTime 0 t.params.toGlobal := by
    rw [hfirst.rx, hfirst.params]; exact hfirst.inTime hglobal
  have hinact' : t.InTime t.rx.ses.lastValidTime 0 t.params.toInact := by
    rw [hfirst.rx, hfirst.params]; exact hfirst.inTime hinact
  have hsecond := hfirst.hears.after_holdLevel b (d := s.params.tHalf) (by rw [hfirst.wait]; exact h.wait_lt)
    (by rw [hst, hfirst.params]; rfl)
  rw [hfirst.hears.heard_secondHalf hst hglobal' hinact' (by rw [hfirst.rx]; rfl), State.shown, hfirst.wait,
    hfirst.params, hfirst.dueIn, hfirst.rx] at hsecond
  rw [← Params.two_mul_tHalf h.hears.wf, Nat.two_mul]
  exact hfirst.trans hsecond

/-- A bit that is not the eighth of its byte (R164). -/
theorem after_bit (b : Level) (hbit : s.rx.ses.bitCnt + 1 < 8) :
    s.After s.params.tBit
      { s.rx with
        ses := { s.rx.ses with
          firstLv := b, invCount := 0, invRun := [], lastValidTime := s.dueIn s.params.tHalf,
          bitAcc := shiftIn s.rx.ses.bitAcc b, bitCnt := s.rx.ses.bitCnt + 1 }
        evCode := .none }
      (driveLevels s.params.tHalf (symbolLevels b) s) := by
  have hpair := h.after_pair hglobal hinact b (!b)
  rw [if_pos (by simp), validSymbol_of_lt (r := s.rx.halfHeard b) hbit] at hpair
  simpa [raiseEvent, Receiver.halfHeard, symbolLevels, h.pairHalf] using hpair

/-- The eighth bit, where `RXBUF` has room (R166). -/
theorem after_eighthBit (b : Level) (hbit : s.rx.ses.bitCnt + 1 = 8) (hroom : s.rx.ses.rxCount < s.params.rxDepth) :
    s.After s.params.tBit
      { s.rx with
        ses := { s.rx.ses with
          firstLv := b, invCount := 0, invRun := [], lastValidTime := s.dueIn s.params.tHalf, bitAcc := 0, bitCnt := 0,
          rxCount := s.rx.ses.rxCount + 1, lastByteTime := s.dueIn s.params.tHalf }
        buf := memWrite s.params.rxDepth s.rx.buf s.rx.ses.rxCount (shiftIn s.rx.ses.bitAcc b)
        evCode := .none }
      (driveLevels s.params.tHalf (symbolLevels b) s) := by
  have hpair := h.after_pair hglobal hinact b (!b)
  rw [if_pos (by simp), validSymbol_of_room (r := s.rx.halfHeard b) hbit hroom] at hpair
  simpa [raiseEvent, Receiver.halfHeard, symbolLevels, h.pairHalf] using hpair

/-- The eighth bit, where `RXBUF` is full (R166). -/
theorem after_droppedBit (b : Level) (hbit : s.rx.ses.bitCnt + 1 = 8) (hfull : s.params.rxDepth ≤ s.rx.ses.rxCount) :
    s.After s.params.tBit
      { s.rx with
        ses := { s.rx.ses with
          firstLv := b, invCount := 0, invRun := [], lastValidTime := s.dueIn s.params.tHalf, bitAcc := 0, bitCnt := 0,
          rxOvf := true, lastByteTime := s.dueIn s.params.tHalf }
        evCode := s.shown s.params.tHalf .rxOverflow }
      (driveLevels s.params.tHalf (symbolLevels b) s) := by
  have hpair := h.after_pair hglobal hinact b (!b)
  rw [if_pos (by simp), validSymbol_of_full (r := s.rx.halfHeard b) hbit hfull] at hpair
  simpa [raiseEvent, Receiver.halfHeard, symbolLevels, h.pairHalf] using hpair

/-- An invalid symbol below the limit (R165). -/
theorem after_invalid (b : Level) (hlimit : s.rx.ses.invCount + 1 < s.params.invalidLimit) :
    s.After s.params.tBit
      { s.rx with
        ses := { s.rx.ses with
          firstLv := b, invCount := s.rx.ses.invCount + 1, invRun := s.rx.ses.invRun ++ [b] }
        evCode := .none }
      (driveLevels s.params.tHalf [b, b] s) := by
  have hpair := h.after_pair hglobal hinact b b
  rw [if_neg (by simp), invalidSymbol_of_lt (r := s.rx.halfHeard b) hlimit] at hpair
  simpa [raiseEvent, Receiver.halfHeard, h.pairHalf] using hpair

/-- The invalid symbol that reaches the limit (R165, R167). -/
theorem after_lastInvalid (b : Level) (hlimit : s.params.invalidLimit ≤ s.rx.ses.invCount + 1) :
    s.After s.params.tBit
      { s.rx with
        rxState := .eofs
        ses := { s.rx.ses with
          firstLv := b, win := if s.params.efdSeed then lastN (s.rx.ses.invRun ++ [b]) 16 else [], invCount := 0,
          invRun := [], phaseStart := s.dueIn s.params.tHalf }
        evCode := s.shown s.params.tHalf .invalidLimit }
      (driveLevels s.params.tHalf [b, b] s) := by
  have hpair := h.after_pair hglobal hinact b b
  rw [if_neg (by simp), invalidSymbol_of_le (r := s.rx.halfHeard b) hlimit] at hpair
  simpa [raiseEvent, Receiver.halfHeard, enterEofs, Config.winMax, h.pairHalf] using hpair

end

end State.Decodes

theorem exec_symbol (s : State) (b : Level) :
    exec (if b then .sym1 else .sym0) s = .next (driveLevels s.params.tHalf (symbolLevels b) s) := by
  cases b <;> rfl

theorem exec_invalidSymbol (s : State) (b : Level) :
    exec (if b then .symInv1 else .symInv0) s = .next (driveLevels s.params.tHalf [b, b] s) := by
  cases b <;> rfl

/-- Settles O46: the decoder hears the two halves of the symbol, once each. -/
theorem symbolsReachTheDecoder : Obligations.SymbolsReachTheDecoder := by
  intro s b hwf hnow hst hwait hhalf hnoise hglobal hinact later shown acc valid run
  have hp := Params.wf_facts hwf
  have hdec := State.Decodes.of_due hwf hnow hst hwait hhalf hnoise
  have hglobal' : s.InTime s.rx.ses.lastByteTime s.params.tHalf s.params.toGlobal :=
    .of_due hnow hwait (by omega) hglobal
  have hinact' : s.InTime s.rx.ses.lastValidTime s.params.tHalf s.params.toInact :=
    .of_due hnow hwait (by omega) hinact
  have hlater : s.dueIn s.params.tHalf = later := State.dueIn_eq_of_wait hwait _
  have hshown : ∀ e, s.shown s.params.tHalf e = shown e := fun e => by simp [State.shown, shown, hwait]
  rw [exec_symbol, exec_invalidSymbol]
  refine ⟨fun hbit => ?bit, fun hbit hroom => ?stored, fun hbit hfull => ?dropped, fun hlimit => ?counted,
    fun hlimit => ?limit⟩
  case bit =>
    have hafter := hdec.after_bit hglobal' hinact' b hbit
    rw [hlater, shiftIn_eq_ofNat] at hafter
    exact ⟨_, rfl, hafter.wait.trans hwait, hafter.rx⟩
  case stored =>
    have hafter := hdec.after_eighthBit hglobal' hinact' b hbit hroom
    rw [hlater, shiftIn_eq_ofNat] at hafter
    refine ⟨_, rfl, hafter.wait.trans hwait, ?_, ?_, fun a ha => ?_⟩
    · rw [hafter.rx]
    · rw [hafter.rx]
      exact memRead_memWrite_same hroom
    · rw [hafter.rx]
      exact memRead_memWrite_other ha.symm
  case dropped =>
    have hafter := hdec.after_droppedBit hglobal' hinact' b hbit hfull
    rw [hlater, hshown] at hafter
    exact ⟨_, rfl, hafter.wait.trans hwait, hafter.rx⟩
  case counted =>
    have hafter := hdec.after_invalid hglobal' hinact' b hlimit
    exact ⟨_, rfl, hafter.wait.trans hwait, hafter.rx⟩
  case limit =>
    have hafter := hdec.after_lastInvalid hglobal' hinact' b hlimit
    rw [hlater, hshown] at hafter
    exact ⟨_, rfl, hafter.wait.trans hwait, hafter.rx⟩

/-! ## The end delimiter -/

/-- A raw bit is two halves of a symbol (R8). -/
theorem holdLevel_tBit {s : State} (hwf : s.params.wf = true) (lv : Level) :
    holdLevel lv s.params.tBit s = driveLevels s.params.tHalf [lv, lv] s := by
  rw [← holdLevel_eq_driveLevels_pair, ← Nat.two_mul, Params.two_mul_tHalf hwf]

/-- Three raw LOW bits at a decoder that has just counted no invalid symbol end the data phase (R165, R167). -/
theorem State.Decodes.after_threeLow {s : State} (h : s.Decodes) (hcount : s.rx.ses.invCount = 0)
    (hrun : s.rx.ses.invRun = []) (hlimit : s.params.invalidLimit = 3) (hseed : s.params.efdSeed = true)
    (hglobal : s.InTime s.rx.ses.lastByteTime (2 * s.params.tBit + s.params.tHalf) s.params.toGlobal)
    (hinact : s.InTime s.rx.ses.lastValidTime (2 * s.params.tBit + s.params.tHalf) s.params.toInact) :
    s.After (3 * s.params.tBit)
      { s.rx with
        rxState := .eofs
        ses := { s.rx.ses with
          firstLv := false, win := [false, false, false], invCount := 0, invRun := [],
          phaseStart := s.dueIn (2 * s.params.tBit + s.params.tHalf) }
        evCode := s.shown s.params.tHalf .invalidLimit }
      (driveLevels s.params.tBit [false, false, false] s) := by
  have htwo := Params.two_mul_tHalf h.hears.wf
  have h1 := h.after_invalid (hglobal.mono (by omega)) (hinact.mono (by omega)) false (by omega)
  rw [← holdLevel_tBit h.hears.wf, hcount, hrun] at h1
  have hdec1 := h.of_after h1 h.state h.pairHalf
  rw [driveLevels, driveLevels, driveLevels, driveLevels]
  generalize holdLevel false s.params.tBit s = t at h1 hdec1 ⊢
  have h2 := hdec1.after_invalid
    (by rw [h1.rx, h1.params]; exact h1.inTime (hglobal.mono (by omega)))
    (by rw [h1.rx, h1.params]; exact h1.inTime (hinact.mono (by omega))) false
    (by rw [h1.rx, h1.params, hlimit]; simp)
  rw [← holdLevel_tBit hdec1.hears.wf, h1.rx, h1.params] at h2
  replace h2 := h1.trans h2
  have hdec2 := h.of_after h2 h.state h.pairHalf
  generalize holdLevel false s.params.tBit t = u at h2 hdec2 ⊢
  have h3 := hdec2.after_lastInvalid
    (by rw [h2.rx, h2.params]; exact h2.inTime (hglobal.mono (by omega)))
    (by rw [h2.rx, h2.params]; exact h2.inTime (hinact.mono (by omega))) false
    (by rw [h2.rx, h2.params, hlimit])
  rw [← holdLevel_tBit hdec2.hears.wf, h2.rx, h2.params, h2.dueIn, ← Nat.two_mul s.params.tBit, State.shown,
    h2.wait, hseed] at h3
  rw [show 3 * s.params.tBit = s.params.tBit + s.params.tBit + s.params.tBit by omega]
  exact h2.trans h3

/-- From the window with which the search begins, `PAT_EOF` ends nowhere before its last bit (R169). -/
theorem misses_patEof : Misses Config.patEof [false, false, false] [false, true, true, true] :=
  ⟨by decide, by decide, by decide, by decide, trivial⟩

theorem search_patEof : search ([false, false, false] ++ [false, true, true, true]) true Config.patEof = .isMatch := by
  decide

/-- Settles O48: the decoder hears the first three raw bits as three invalid symbols, and the search the other five. -/
theorem endDelimiterEndsTheFrame : Obligations.EndDelimiterEndsTheFrame := by
  intro s hwf hnow hst hwait hhalf hcount hrun hnoise hlimit hseed hglobal hinact htoEof
  have hp := Params.wf_facts hwf
  have htwo := Params.two_mul_tHalf hwf
  have hdec := State.Decodes.of_due hwf hnow hst hwait hhalf hnoise
  have hsymbols := hdec.after_threeLow hcount hrun hlimit hseed
    (.of_due hnow hwait (by omega) (by omega)) (.of_due hnow hwait (by omega) (by omega))
  rw [exec_delimEof, show [false, false, false, false, true, true, true, true]
    = [false, false, false] ++ ([false, true, true, true] ++ [true]) from rfl, driveLevels_append]
  generalize driveLevels s.params.tBit [false, false, false] s = t at hsymbols ⊢
  have hsearch : t.Searches Config.patEof s.params.toEof :=
    ⟨hsymbols.hears, .inr ⟨by rw [hsymbols.rx], rfl, by rw [hsymbols.params]⟩⟩
  have hfound := hsearch.after_driveLevels_isMatch (ls := [false, true, true, true]) (lv := true)
    (by rw [hsymbols.wait, hwait, hsymbols.params]; omega)
    (by
      rw [hsymbols.rx, hsymbols.params]
      exact hsymbols.inTime_dueIn (i := s.params.tHalf) (by omega) (by omega) (by simp; omega))
    (by rw [hsymbols.rx]; exact misses_patEof) (by rw [hsymbols.rx]; exact search_patEof)
  rw [hsymbols.rx, hsymbols.params] at hfound
  refine ⟨_, rfl, (hsymbols.trans hfound).wait.trans hwait, hfound.rx.trans ?_⟩
  have hshown : s.params.tBit ≠ 1 := by omega
  simp [Receiver.found, State.shown, hsymbols.wait, hwait, hshown, State.dueIn_eq_of_wait hwait, raiseEvent, hcount,
    hrun, Nat.add_assoc]

end Sys2Proof.Machine
end

section
/-! PROOFS. Bytes on the channel (30_encoding.md R86, R87) at a decoder in step with them (44_manchester_decoder.md R164
to R166): eight symbols are a byte, which is stored where `rxCount` says, and so is a sequence of bytes. -/

namespace Sys2Proof.Machine

/-! ## The bits of a byte -/

/-- The accumulator keeps the last eight bits (R164). -/
theorem toNat_foldl_shiftIn (n v : Nat) (acc : Byte) :
    ((bitsMsbFirst n v).foldl shiftIn acc).toNat = (acc.toNat * 2 ^ n + v % 2 ^ n) % 256 := by
  induction n generalizing acc with
  | zero => simpa [bitsMsbFirst, Nat.mod_one] using (Nat.mod_eq_of_lt acc.isLt).symm
  | succ n ih =>
    rw [bitsMsbFirst, List.foldl_cons, ih, shiftIn_toNat, Nat.toNat_testBit, Nat.mod_pow_succ]
    calc ((2 * acc.toNat + v / 2 ^ n % 2) % 256 * 2 ^ n + v % 2 ^ n) % 256
        = ((2 * acc.toNat + v / 2 ^ n % 2) * 2 ^ n + v % 2 ^ n) % 256 :=
          ((Nat.mod_modEq _ 256).mul_right _).add_right _
      _ = (acc.toNat * 2 ^ (n + 1) + (v % 2 ^ n + 2 ^ n * (v / 2 ^ n % 2))) % 256 := by congr 1; ring

/-- The last bit in time is the least significant one (R10). -/
theorem bitsMsbFirst_succ (n v : Nat) : bitsMsbFirst (n + 1) v = bitsMsbFirst n (v / 2) ++ [v.testBit 0] := by
  induction n with
  | zero => rfl
  | succ n ih => rw [bitsMsbFirst, ih, Nat.testBit_add_one, bitsMsbFirst, List.cons_append]

/-- Eight bits shifted in are the byte, whatever stood in the accumulator. -/
theorem foldl_shiftIn_byte (acc byte : Byte) : (bitsMsbFirst 8 byte.toNat).foldl shiftIn acc = byte := by
  apply BitVec.eq_of_toNat_eq
  have hbyte := byte.isLt
  rw [toNat_foldl_shiftIn]
  omega

/-! ## One byte -/

namespace State.Decodes

variable {s : State}

/-- The bits that complete a byte, where `RXBUF` has room for it (R164, R166). -/
theorem after_bits (bs : List Level) (b : Level) (h : s.Decodes) (hbits : s.rx.ses.bitCnt + bs.length = 7)
    (hroom : s.rx.ses.rxCount < s.params.rxDepth) (hbit : s.params.tBit ≤ s.params.toInact)
    (hglobal : s.InTime s.rx.ses.lastByteTime (bs.length * s.params.tBit + s.params.tHalf) s.params.toGlobal)
    (hinact : s.InTime s.rx.ses.lastValidTime s.params.tHalf s.params.toInact) :
    s.After (bs.length * s.params.tBit + s.params.tBit)
      (let last := s.dueIn (bs.length * s.params.tBit + s.params.tHalf)
       { s.rx with
        ses := { s.rx.ses with
          firstLv := b, invCount := 0, invRun := [], lastValidTime := last, bitAcc := 0, bitCnt := 0,
          rxCount := s.rx.ses.rxCount + 1, lastByteTime := last }
        buf := memWrite s.params.rxDepth s.rx.buf s.rx.ses.rxCount (shiftIn (bs.foldl shiftIn s.rx.ses.bitAcc) b)
        evCode := .none })
      (driveLevels s.params.tHalf ((bs ++ [b]).flatMap symbolLevels) s) := by
  induction bs generalizing s with
  | nil => simpa using h.after_eighthBit (hglobal.mono (by simp)) hinact b (by simpa using hbits) hroom
  | cons b' bs ih =>
    have htwo := Params.two_mul_tHalf h.hears.wf
    rw [List.length_cons, Nat.succ_mul] at *
    have hstep := h.after_bit (hglobal.mono (by omega)) hinact b' (by omega)
    have hdec := h.of_after hstep h.state h.pairHalf
    rw [List.cons_append, List.flatMap_cons, driveLevels_append]
    generalize driveLevels s.params.tHalf (symbolLevels b') s = t at hstep hdec ⊢
    have hrest := ih hdec (by rw [hstep.rx]; simp; omega) (by rw [hstep.rx, hstep.params]; exact hroom)
      (by rw [hstep.params]; exact hbit)
      (by rw [hstep.rx, hstep.params]; exact hstep.inTime (hglobal.mono (by omega)))
      (by
        rw [hstep.rx, hstep.params]
        exact hstep.inTime_dueIn (i := s.params.tHalf) (by omega) hinact.fits (by omega))
    rw [hstep.rx, hstep.params, hstep.dueIn, ← Nat.add_assoc, Nat.add_comm s.params.tBit] at hrest
    rw [Nat.add_comm _ s.params.tBit]
    exact hstep.trans hrest

/-- Eight symbols are a byte, most significant bit first (R87, R166). -/
theorem after_byte (byte : Byte) (h : s.Decodes) (hbits : s.rx.ses.bitCnt = 0)
    (hroom : s.rx.ses.rxCount < s.params.rxDepth) (hbit : s.params.tBit ≤ s.params.toInact)
    (hglobal : s.InTime s.rx.ses.lastByteTime (7 * s.params.tBit + s.params.tHalf) s.params.toGlobal)
    (hinact : s.InTime s.rx.ses.lastValidTime s.params.tHalf s.params.toInact) :
    s.After (8 * s.params.tBit)
      (let last := s.dueIn (7 * s.params.tBit + s.params.tHalf)
       { s.rx with
        ses := { s.rx.ses with
          firstLv := byte.getLsbD 0, invCount := 0, invRun := [], lastValidTime := last, bitAcc := 0, bitCnt := 0,
          rxCount := s.rx.ses.rxCount + 1, lastByteTime := last }
        buf := memWrite s.params.rxDepth s.rx.buf s.rx.ses.rxCount byte
        evCode := .none })
      (driveLevels s.params.tHalf (byteLevels byte) s) := by
  have hsplit : bitsMsbFirst 8 byte.toNat = bitsMsbFirst 7 (byte.toNat / 2) ++ [byte.getLsbD 0] :=
    bitsMsbFirst_succ 7 byte.toNat
  have hvalue := foldl_shiftIn_byte s.rx.ses.bitAcc byte
  rw [hsplit, List.foldl_append] at hvalue
  have hafter := h.after_bits (bitsMsbFirst 7 (byte.toNat / 2)) (byte.getLsbD 0) (by simp [hbits]) hroom hbit
    (by simpa using hglobal) hinact
  rw [← hsplit, length_bitsMsbFirst, ← Nat.succ_mul] at hafter
  rw [List.foldl_cons, List.foldl_nil] at hvalue
  rw [hvalue] at hafter
  exact hafter

end State.Decodes

/-! ## A sequence of bytes -/

/-- The buffer after bytes are stored at successive offsets (R166). -/
def storeBytes (depth : Nat) (m : Memory) (a : Nat) : List Byte → Memory
  | [] => m
  | b :: bs => storeBytes depth (memWrite depth m a b) (a + 1) bs

/-- What the buffer then holds. -/
theorem memRead_storeBytes {depth a : Nat} {m : Memory} {bs : List Byte} (h : a + bs.length ≤ depth) (k : Nat) :
    memRead depth (storeBytes depth m a bs) k =
      if a ≤ k ∧ k < a + bs.length then bs[k - a]? else memRead depth m k := by
  induction bs generalizing a m with
  | nil => simp [storeBytes]
  | cons b bs ih =>
    rw [List.length_cons] at *
    rw [storeBytes, ih (by omega), memRead_memWrite]
    obtain hk | rfl | hk := Nat.lt_trichotomy k a
    · rw [if_neg (by omega), if_neg (by omega), if_neg (by omega)]
    · rw [if_neg (by omega), if_pos (by omega), if_pos (by omega), Nat.sub_self]
      rfl
    · obtain ⟨j, rfl⟩ : ∃ j, k = a + 1 + j := ⟨k - (a + 1), by omega⟩
      by_cases hj : j < bs.length
      · rw [if_pos (by omega), if_pos (by omega), Nat.add_sub_cancel_left, Nat.add_assoc, Nat.add_sub_cancel_left,
          Nat.add_comm 1, List.getElem?_cons_succ]
      · rw [if_neg (by omega), if_neg (by omega), if_neg (by omega)]

/-- A sequence of bytes, where `RXBUF` has room for all of them (R166). -/
theorem State.Decodes.after_bytes (bs : List Byte) (b : Byte) {s : State} (h : s.Decodes)
    (hbits : s.rx.ses.bitCnt = 0) (hroom : s.rx.ses.rxCount + bs.length < s.params.rxDepth)
    (hbit : s.params.tBit ≤ s.params.toInact) (hbyte : 8 * s.params.tBit ≤ s.params.toGlobal)
    (hglobal : s.InTime s.rx.ses.lastByteTime (7 * s.params.tBit + s.params.tHalf) s.params.toGlobal)
    (hinact : s.InTime s.rx.ses.lastValidTime s.params.tHalf s.params.toInact) :
    s.After (bs.length * (8 * s.params.tBit) + 8 * s.params.tBit)
      (let last := s.dueIn (bs.length * (8 * s.params.tBit) + (7 * s.params.tBit + s.params.tHalf))
       { s.rx with
        ses := { s.rx.ses with
          firstLv := b.getLsbD 0, invCount := 0, invRun := [], lastValidTime := last, bitAcc := 0, bitCnt := 0,
          rxCount := s.rx.ses.rxCount + bs.length + 1, lastByteTime := last }
        buf := storeBytes s.params.rxDepth s.rx.buf s.rx.ses.rxCount (bs ++ [b])
        evCode := .none })
      (driveLevels s.params.tHalf (bytesLevels (bs ++ [b])) s) := by
  induction bs generalizing s with
  | nil => simpa [bytesLevels, storeBytes] using h.after_byte b hbits hroom hbit hglobal hinact
  | cons b' bs ih =>
    have htwo := Params.two_mul_tHalf h.hears.wf
    rw [List.length_cons] at hroom
    rw [List.length_cons, Nat.succ_mul bs.length]
    have hstep := h.after_byte b' hbits (by omega) hbit hglobal hinact
    have hdec := h.of_after hstep h.state h.pairHalf
    rw [List.cons_append, bytesLevels, List.flatMap_cons, driveLevels_append]
    generalize driveLevels s.params.tHalf (byteLevels b') s = t at hstep hdec ⊢
    have hrest := ih hdec (by rw [hstep.rx]) (by rw [hstep.rx, hstep.params]; simp; omega)
      (by rw [hstep.params]; exact hbit) (by rw [hstep.params]; exact hbyte)
      (by
        rw [hstep.rx, hstep.params]
        exact hstep.inTime_dueIn (i := s.params.tHalf) (by omega) hglobal.fits (by omega))
      (by
        rw [hstep.rx, hstep.params]
        exact hstep.inTime_dueIn (i := s.params.tHalf) (by omega) hinact.fits (by omega))
    rw [hstep.rx, hstep.params, hstep.dueIn] at hrest
    have hcount : s.rx.ses.rxCount + (bs.length + 1) + 1 = s.rx.ses.rxCount + 1 + bs.length + 1 := by omega
    have hlast : bs.length * (8 * s.params.tBit) + 8 * s.params.tBit + (7 * s.params.tBit + s.params.tHalf)
        = 8 * s.params.tBit + (bs.length * (8 * s.params.tBit) + (7 * s.params.tBit + s.params.tHalf)) := by omega
    rw [hcount, hlast, Nat.add_comm (bs.length * _ + _)]
    exact hstep.trans hrest

/-! ## The frame header -/

/-- Settles O50: the header is nine bytes, stored from offset 0 on. -/
theorem headerReachesTheBuffer : Obligations.HeaderReachesTheBuffer := by
  intro s ty len c hwf hnow hst hwait hhalf hbits hcount hnoise hbit hbyte hglobal hinact last
  have hp := Params.wf_facts hwf
  have hdec := State.Decodes.of_due hwf hnow hst hwait hhalf hnoise
  obtain ⟨bs, hlength, hheader⟩ : ∃ bs, bs.length = 8 ∧ headerBytes ty len c = bs ++ [c.extractLsb' 0 8] :=
    ⟨(headerBytes ty len c).dropLast, rfl, rfl⟩
  have hafter := hdec.after_bytes bs (c.extractLsb' 0 8) hbits (by omega) hbit hbyte
    (.of_due hnow hwait (by omega) (by omega)) (.of_due hnow hwait (by omega) hinact)
  rw [← hheader, hlength] at hafter
  have hread := memRead_storeBytes (m := s.rx.buf) (a := s.rx.ses.rxCount) (bs := headerBytes ty len c)
    (depth := s.params.rxDepth) (by rw [length_headerBytes]; omega)
  have hlast : s.dueIn (8 * (8 * s.params.tBit) + (7 * s.params.tBit + s.params.tHalf)) = last := by
    rw [State.dueIn_eq_of_wait hwait]
    congr 1
    omega
  refine ⟨_, exec_frame s ty len c, hafter.wait.trans hwait, ?_, fun k hk => ?_, fun k hk => ?_⟩
  · rw [hafter.rx]
    simp [hlast, hcount]
  · rw [hafter.rx]
    dsimp only
    rw [hread, hcount, length_headerBytes, if_pos (by omega), Nat.sub_zero]
  · rw [hafter.rx]
    dsimp only
    rw [hread, hcount, length_headerBytes, if_neg (by omega)]

end Sys2Proof.Machine
end

section
/-! PROOFS. The preamble on the channel (30_encoding.md R83) at a receiver in PRE that samples every raw bit at least
once, in any phase (43_sync_detector.md R150, R151, R156): each of the first eight raw bits is one flip, the eighth locks, and
what is left of the preamble is alternating levels, which end in no delimiter. -/

namespace Sys2Proof.Machine

/-! ## The branches of `PRE.STEP` -/

section
variable {p : Params} {now smp : Nat} {r : Receiver}

theorem preHandler_same (htime : elapsed p now r.ses.phaseStart ≤ p.toPre) (hvalid : r.ses.lastLevelValid = true)
    (hlv : r.level smp = r.ses.lastLevel) : preHandler p now smp r = (r, .none) := by
  simp [preHandler, not_expired_iff.mpr htime, hvalid, hlv]

theorem preHandler_flip (htime : elapsed p now r.ses.phaseStart ≤ p.toPre) (hvalid : r.ses.lastLevelValid = true)
    (hlv : r.level smp ≠ r.ses.lastLevel) (hcount : r.ses.transCount + 1 < 8) :
    preHandler p now smp r =
      ({ r with ses := { r.ses with
          lastLevel := r.level smp, lastTransTime := now, transCount := r.ses.transCount + 1 } }, .none) := by
  simp [preHandler, not_expired_iff.mpr htime, hvalid, hlv, Config.preTrans, hcount.not_ge]

theorem preHandler_lock (htime : elapsed p now r.ses.phaseStart ≤ p.toPre) (hvalid : r.ses.lastLevelValid = true)
    (hlv : r.level smp ≠ r.ses.lastLevel) (hcount : 8 ≤ r.ses.transCount + 1) :
    preHandler p now smp r =
      ({ r with
          rxState := .sof
          ses := { r.ses with
            lastLevel := r.level smp, lastTransTime := now, transCount := 0, win := [], phaseStart := now } },
        .preLock) := by
  simp [preHandler, not_expired_iff.mpr htime, hvalid, hlv, Config.preTrans, hcount]

end

/-! ## Flips on the channel -/

/-- What a receiver holds besides its session and its event, and no sample before the data phase writes. -/
structure Receiver.SameData (r r' : Receiver) : Prop where
  cal : r'.cal = r.cal
  res : r'.res = r.res
  buf : r'.buf = r.buf

/-- A receiver in PRE, with the data of `r`, that has recorded the level `lv` and counted `n` flips, samples at least
every `T_PRE` ticks and does not time out in the next `k` (R150, R203). -/
structure State.Counts (s : State) (r : Receiver) (lv : Level) (n k : Nat) : Prop where
  hears : s.Hears
  state : s.rx.rxState = .pre
  wait_lt : s.wait < s.params.tPre
  valid : s.rx.ses.lastLevelValid = true
  level : s.rx.ses.lastLevel = lv
  count : s.rx.ses.transCount = n
  time : elapsed s.params s.now s.rx.ses.phaseStart + k ≤ s.params.toPre
  data : r.SameData s.rx

/-- A receiver in SOF, with the data of `r`, whose window does not end in the level `lv`, and which does not time out in
the next `k` ticks (R154). -/
structure State.Drifts (s : State) (r : Receiver) (lv : Level) (k : Nat) : Prop where
  hears : s.Hears
  state : s.rx.rxState = .sof
  wait_lt : s.wait < s.params.tBit
  count : s.rx.ses.transCount = 0
  last : s.rx.ses.win.getLast? ≠ some lv
  time : elapsed s.params s.now s.rx.ses.phaseStart + k ≤ s.params.toSof
  data : r.SameData s.rx

/-- A timer that does not run out in `k + d` ticks has `k` left after `d` of them (R206). -/
theorem elapsed_add_le {p : Params} {now t0 d k timeout : Nat} (hfits : timeout < 2 ^ p.wT)
    (h : elapsed p now t0 + (k + d) ≤ timeout) : elapsed p ((now + d) % 2 ^ p.wT) t0 + k ≤ timeout := by
  rw [elapsed_advance (by omega)]
  omega

theorem Params.toPre_lt {p : Params} (h : p.wf = true) : p.toPre < 2 ^ p.wT := by
  have := Params.wf_facts h
  omega

theorem Params.toSof_lt {p : Params} (h : p.wf = true) : p.toSof < 2 ^ p.wT := by
  have := Params.wf_facts h
  omega

namespace State.Counts

variable {s : State} {r : Receiver} {lv : Level} {n k d : Nat}

/-- The next invocation, if it comes within the time left, is in time. -/
theorem inTime (h : s.Counts r lv n k) (hk : s.wait ≤ k) : s.InTime s.rx.ses.phaseStart 0 s.params.toPre where
  fits := Params.toPre_lt h.hears.wf
  le := elapsed_add_le (d := s.wait) (Params.toPre_lt h.hears.wf) (by have htime := h.time; omega)

/-- A sample of the recorded level changes nothing. -/
theorem heard_same (h : s.Counts r lv n k) (hk : s.wait ≤ k) : s.heard lv = { s.rx with evCode := .none } := by
  have hlevel := h.hears.noiseless.level_intensity lv
  rw [State.heard, handle, h.state]
  dsimp only
  rw [preHandler_same (h.inTime hk).elapsed_le h.valid (hlevel.trans h.level.symm)]
  rfl

/-- A sample of the other level is a flip (R150). -/
theorem heard_flip (h : s.Counts r lv n k) (hk : s.wait ≤ k) (hn : n + 1 < 8) :
    s.heard (!lv) =
      { s.rx with
        ses := { s.rx.ses with lastLevel := !lv, lastTransTime := s.dueIn 0, transCount := n + 1 }
        evCode := .none } := by
  have hlevel := h.hears.noiseless.level_intensity (!lv)
  rw [State.heard, handle, h.state]
  dsimp only
  rw [preHandler_flip (h.inTime hk).elapsed_le h.valid (by rw [hlevel, h.level]; simp) (by rwa [h.count]), hlevel,
    h.count]
  rfl

/-- The eighth flip locks (R151). -/
theorem heard_lock (h : s.Counts r lv 7 k) (hk : s.wait ≤ k) :
    s.heard (!lv) =
      { s.rx with
        rxState := .sof
        ses := { s.rx.ses with
          lastLevel := !lv, lastTransTime := s.dueIn 0, transCount := 0, win := [], phaseStart := s.dueIn 0 }
        evCode := .preLock } := by
  have hlevel := h.hears.noiseless.level_intensity (!lv)
  rw [State.heard, handle, h.state]
  dsimp only
  rw [preHandler_lock (h.inTime hk).elapsed_le h.valid (by rw [hlevel, h.level]; simp) (by rw [h.count]), hlevel]
  rfl

/-- Ticks in which no more of the session changes than a flip writes. -/
theorem of_rx (h : s.Counts r lv n (k + d)) {x lv' : Level} {n' t0 : Nat} {e : Event}
    (hwait : (holdLevel x d s).wait < s.params.tPre)
    (hrx : (holdLevel x d s).rx =
      { s.rx with
        ses := { s.rx.ses with lastLevel := lv', lastTransTime := t0, transCount := n' }
        evCode := e }) :
    (holdLevel x d s).Counts r lv' n' k where
  hears := h.hears.holdLevel x d
  state := by rw [hrx]; exact h.state
  wait_lt := by rwa [holdLevel_params]
  valid := by rw [hrx]; exact h.valid
  level := by rw [hrx]
  count := by rw [hrx]
  time := by
    rw [hrx, holdLevel_params, holdLevel_now x d s h.hears.now_lt]
    exact elapsed_add_le (Params.toPre_lt h.hears.wf) h.time
  data := by rw [hrx]; exact ⟨h.data.cal, h.data.res, h.data.buf⟩

/-- Ticks in which nothing of the session changes. -/
theorem of_rx_same (h : s.Counts r lv n (k + d)) {x : Level} {e : Event}
    (hwait : (holdLevel x d s).wait < s.params.tPre) (hrx : (holdLevel x d s).rx = { s.rx with evCode := e }) :
    (holdLevel x d s).Counts r lv n k := by
  have hsame := h.of_rx (lv' := s.rx.ses.lastLevel) (n' := s.rx.ses.transCount) (t0 := s.rx.ses.lastTransTime) hwait hrx
  rwa [h.level, h.count] at hsame

/-- The recorded level, held on (R151). -/
theorem holdLevel_same (h : s.Counts r lv n (k + d)) : (holdLevel lv d s).Counts r lv n k := by
  induction d generalizing s with
  | zero => exact h
  | succ d ih =>
    have hwait := h.wait_lt
    have hpre := period_pos h.hears.wf .pre
    rw [period] at hpre
    refine ih (s := holdLevel lv 1 s) ?_
    obtain hzero | hlater := Nat.eq_zero_or_pos s.wait
    · obtain ⟨hwait', hrx⟩ := holdLevel_invocation lv (d := 1) h.hears.now_lt (by omega)
        (by rw [h.state, period]; omega)
      rw [h.heard_same (by omega)] at hrx
      exact of_rx_same (d := 1) h (by rw [hwait', h.state, period]; omega) hrx
    · obtain ⟨hwait', hrx⟩ := holdLevel_wait lv 1 s hlater
      exact of_rx_same (d := 1) h (by omega) hrx

/-- The other level, held until it is sampled and on: one flip (R150). -/
theorem holdLevel_flip (h : s.Counts r lv n (k + d)) (hd : s.wait < d) (hn : n + 1 < 8) :
    (holdLevel (!lv) d s).Counts r (!lv) (n + 1) k := by
  have hpre := period_pos h.hears.wf .pre
  rw [period] at hpre
  obtain ⟨m, rfl⟩ : ∃ m, d = s.wait + 1 + m := ⟨d - (s.wait + 1), by omega⟩
  obtain ⟨hwait', hrx⟩ := holdLevel_invocation (!lv) (d := s.wait + 1) h.hears.now_lt (by omega)
    (by rw [h.state, period]; omega)
  rw [h.heard_flip (by omega) hn] at hrx
  have hflip : (holdLevel (!lv) (s.wait + 1) s).Counts r (!lv) (n + 1) (k + m) :=
    of_rx (by rwa [Nat.add_assoc, Nat.add_comm m]) (by rw [hwait', h.state, period]; omega) hrx
  rw [holdLevel_append]
  exact hflip.holdLevel_same

end State.Counts

/-- Levels that alternate, from `lv` on. -/
def alternating : Level → Nat → List Level
  | _, 0 => []
  | lv, n + 1 => lv :: alternating (!lv) n

/-- Raw bits that alternate, each sampled: one flip each (R151). -/
theorem State.Counts.driveLevels_alternating {s : State} {r : Receiver} {lv : Level} {n m k : Nat}
    (h : s.Counts r lv n (k + m * s.params.tBit)) (hpre : s.params.tPre ≤ s.params.tBit) (hm : n + m < 8) :
    (driveLevels s.params.tBit (alternating (!lv) m) s).Counts r (not^[m] lv) (n + m) k := by
  induction m generalizing s lv n with
  | zero => simpa [alternating, driveLevels] using h
  | succ m ih =>
    have hwait := h.wait_lt
    rw [Nat.succ_mul, ← Nat.add_assoc] at h
    have hflip := h.holdLevel_flip (by omega) (by omega)
    have hrest := ih (s := holdLevel (!lv) s.params.tBit s) (by rwa [holdLevel_params]) (by rwa [holdLevel_params])
      (by omega)
    rw [holdLevel_params] at hrest
    rw [Nat.add_comm m, ← Nat.add_assoc, Nat.add_comm 1 m]
    exact hrest

/-! ## The rest of the preamble -/

theorem getLast?_lastN_append (xs : List Level) (lv : Level) (n : Nat) :
    (lastN (xs ++ [lv]) (n + 1)).getLast? = some lv := by
  rw [lastN, List.length_append, List.length_singleton, List.drop_append_of_le_length (by omega), List.getLast?_append]
  rfl

/-- `PAT_SOF` ends in two equal levels, so a level unlike the one before it ends no match (R156). -/
theorem search_patSof_ne_isMatch {win : List Level} {lv : Level} (h : win.getLast? ≠ some lv) :
    search win lv Config.patSof ≠ .isMatch := by
  intro hmatch
  obtain ⟨hlen, hlast⟩ := search_isMatch_iff.mp hmatch
  obtain ⟨xs, x, rfl⟩ : ∃ xs x, win = xs ++ [x] := by
    refine ⟨win.dropLast, win.getLast (by rintro rfl; simp at hlen), (List.dropLast_append_getLast _).symm⟩
  have htwo : [x, lv] = [false, false] :=
    calc [x, lv] = lastN (xs ++ [x] ++ [lv]) 2 := by simpa using (lastN_append xs [x, lv]).symm
      _ = lastN (lastN (xs ++ [x] ++ [lv]) 8) 2 := (lastN_lastN _ (by decide)).symm
      _ = lastN (bitsMsbFirst 8 Config.patSof.toNat) 2 := by rw [hlast]
      _ = [false, false] := by decide
  obtain ⟨rfl, rfl⟩ : x = false ∧ lv = false := by simpa using htwo
  simp at h

namespace State.Drifts

variable {s : State} {r : Receiver} {lv x : Level} {k d : Nat}

/-- Ticks in which no more of the session changes than the window. -/
theorem of_rx (h : s.Drifts r lv (k + d)) {lv' : Level} {w : List Level} {e : Event}
    (hwait : (holdLevel x d s).wait < s.params.tBit)
    (hrx : (holdLevel x d s).rx = { s.rx with ses := { s.rx.ses with win := w }, evCode := e })
    (hlast : w.getLast? ≠ some lv') : (holdLevel x d s).Drifts r lv' k where
  hears := h.hears.holdLevel x d
  state := by rw [hrx]; exact h.state
  wait_lt := by rwa [holdLevel_params]
  count := by rw [hrx]; exact h.count
  last := by rwa [hrx]
  time := by
    rw [hrx, holdLevel_params, holdLevel_now x d s h.hears.now_lt]
    exact elapsed_add_le (Params.toSof_lt h.hears.wf) h.time
  data := by rw [hrx]; exact ⟨h.data.cal, h.data.res, h.data.buf⟩

/-- Before the next sample nothing happens, whatever the channel shows. -/
theorem holdLevel_unheard (h : s.Drifts r lv (k + d)) (hd : d ≤ s.wait) : (holdLevel x d s).Drifts r lv k := by
  have hwait := h.wait_lt
  obtain ⟨hwait', hrx⟩ := holdLevel_wait x d s hd
  refine h.of_rx (w := s.rx.ses.win) (e := if d = 0 then s.rx.evCode else .none) (by omega) ?_ h.last
  rw [hrx]
  split_ifs <;> rfl

/-- A sample of the level that cannot match moves the window, which then ends in it (R155). -/
theorem holdLevel_heard (h : s.Drifts r lv (k + d)) (hwait : s.wait < d) (hd : d ≤ s.params.tBit) :
    (holdLevel lv d s).Drifts r (!lv) k := by
  have htime := h.time
  have hperiod : period s.params s.rx.rxState = s.params.tBit := by rw [h.state]; rfl
  have hsearch : s.Searches Config.patSof s.params.toSof := ⟨h.hears, .inl ⟨h.state, rfl, rfl⟩⟩
  have hin : s.InTime s.rx.ses.phaseStart 0 s.params.toSof :=
    ⟨Params.toSof_lt h.hears.wf, elapsed_add_le (d := s.wait) (Params.toSof_lt h.hears.wf) (by omega)⟩
  obtain ⟨hwait', hrx⟩ := holdLevel_invocation lv h.hears.now_lt hwait (by omega)
  rw [hsearch.heard_window hin (search_patSof_ne_isMatch h.last)] at hrx
  refine h.of_rx (by omega) hrx ?_
  rw [getLast?_lastN_append]
  simp

/-- Alternating raw bits end in no match, however many there are (R156). -/
theorem driveLevels_alternating {m : Nat} (h : s.Drifts r lv (k + m * s.params.tBit)) :
    (driveLevels s.params.tBit (alternating lv m) s).Drifts r (not^[m] lv) k := by
  induction m generalizing s lv with
  | zero => simpa [alternating, driveLevels] using h
  | succ m ih =>
    rw [Nat.succ_mul, ← Nat.add_assoc] at h
    have hheard := h.holdLevel_heard h.wait_lt (le_refl _)
    have hrest := ih (s := holdLevel lv s.params.tBit s) (by rwa [holdLevel_params])
    rwa [holdLevel_params] at hrest

end State.Drifts

/-- The raw bit of the eighth flip: the receiver locks, and hears the rest of that bit, if at all, as the search's first
level (R150, R156). -/
theorem State.Counts.holdLevel_lock {s : State} {r : Receiver} {lv : Level} {k : Nat}
    (h : s.Counts r lv 7 s.params.tBit) (hpre : s.params.tPre ≤ s.params.tBit)
    (htoSof : s.params.tBit + k ≤ s.params.toSof) :
    (holdLevel (!lv) s.params.tBit s).Drifts r lv k := by
  have hwait := h.wait_lt
  have hpos := period_pos h.hears.wf .pre
  rw [period] at hpos
  have hfits := Params.toSof_lt h.hears.wf
  obtain ⟨m, hm⟩ : ∃ m, s.params.tBit = s.wait + 1 + m := ⟨s.params.tBit - (s.wait + 1), by omega⟩
  obtain ⟨hwait', hrx⟩ := holdLevel_invocation (!lv) (d := s.wait + 1) h.hears.now_lt (by omega)
    (by rw [h.state, period]; omega)
  rw [h.heard_lock (by omega)] at hrx
  rw [h.state, period] at hwait'
  have hlocked : ∀ lv', (holdLevel (!lv) (s.wait + 1) s).Drifts r lv' (k + m) := fun lv' =>
    { hears := h.hears.holdLevel _ _
      state := by rw [hrx]
      wait_lt := by rw [holdLevel_params]; omega
      count := by rw [hrx]
      last := by rw [hrx]; simp
      time := by
        have hone : elapsed s.params ((s.now + (s.wait + 1)) % 2 ^ s.params.wT) (s.dueIn 0) = 1 :=
          elapsed_add (t0 := s.now + s.wait) (k := 1) (by omega)
        rw [hrx, holdLevel_params, holdLevel_now _ _ s h.hears.now_lt, hone]
        omega
      data := by rw [hrx]; exact ⟨h.data.cal, h.data.res, h.data.buf⟩ }
  rw [hm, holdLevel_append]
  obtain hheard | hunheard := Nat.lt_or_ge (s.wait + s.params.tPre - (s.wait + 1)) m
  · have hrest := (hlocked (!lv)).holdLevel_heard (by omega) (by rw [holdLevel_params]; omega)
    rwa [Bool.not_not] at hrest
  · exact (hlocked lv).holdLevel_unheard (by omega)

/-- Settles O49: seven flips, the lock in the eighth raw bit, and eight more alternating bits. -/
theorem preambleLocksTheReceiver : Obligations.PreambleLocksTheReceiver := by
  intro s hwf hnow hst hwait hpre hvalid hlevel hcount hnoise htoPre htoSof
  have hstart : s.Counts s.rx false 0 (s.params.tBit + 7 * s.params.tBit) :=
    ⟨⟨hwf, hnow, by simp [hst], hnoise⟩, hst, hwait, hvalid, hlevel, hcount, by omega, ⟨rfl, rfl, rfl⟩⟩
  have hseven : (driveLevels s.params.tBit (alternating true 7) s).Counts s.rx true 7 s.params.tBit :=
    hstart.driveLevels_alternating hpre (by decide)
  have hsplit : List.flatten (List.replicate 8 [true, false])
      = alternating true 7 ++ [false] ++ alternating true 8 := rfl
  have hparams := driveLevels_params s.params.tBit (alternating true 7) s
  rw [exec_preamble, hsplit, driveLevels_append, driveLevels_append]
  generalize driveLevels s.params.tBit (alternating true 7) s = t at hseven hparams ⊢
  rw [← hparams] at hseven hpre htoSof ⊢
  have hlocked := hseven.holdLevel_lock (k := 0 + 8 * t.params.tBit) hpre (by omega)
  have hend := State.Drifts.driveLevels_alternating (by rwa [holdLevel_params])
  rw [holdLevel_params] at hend
  exact ⟨_, rfl, hend.state, hend.data.cal, hend.data.res, hend.data.buf, hend.count⟩

end Sys2Proof.Machine
end

section
/-! PROOFS. The CRC unit (40_crc16.md R110 to R114): the word that selects each of its operations, the update one
input bit at a time, its bijectivity and the residue law.  Both laws rest on what one shift does: it moves the register
right and adds a feedback that only the bit shifted out decides. -/

namespace Sys2Proof.Machine

/-! ## The word of the CRC unit -/

/-- `CRCCMD` as a number: `init` in bit 9, `en` in bit 8, `din` below (R97). -/
theorem toNat_crcCommandWord (init en : BitVec 1) (din : Byte) :
    (init ++ en ++ din).toNat = init.toNat * 2 ^ 9 + en.toNat * 2 ^ 8 + din.toNat := by
  rw [BitVec.toNat_append, ← Nat.shiftLeft_add_eq_or_of_lt din.isLt, BitVec.toNat_append,
    ← Nat.shiftLeft_add_eq_or_of_lt en.isLt]
  simp only [Nat.shiftLeft_eq]
  omega

/-- A word of the CRC unit selects the operation whose code has these fields. -/
theorem decode_crcCommandWord {i : Instr} {init en : BitVec 1} {din : Byte}
    (hcode : encode i = ⟨.crccmd, init.toNat * 2 ^ 9 + en.toNat * 2 ^ 8 + din.toNat⟩) :
    decode ⟨.crccmd, (init ++ en ++ din).toNat⟩ = .ok i := by
  rw [toNat_crcCommandWord, ← hcode, decodeEncodeIsIdentity]

/-- Settles O12: the word is the code of `CRC.INIT` with the same `en` and `din`, neither of which its effect reads. -/
theorem crcInitLoadsInitialValue : Obligations.CrcInitLoadsInitialValue := fun en din s =>
  ⟨decode_crcCommandWord rfl, exec_crcInit s en din⟩

/-- Settles O13: with `init` and `en` 0 the word is `din` alone, the code of `CRC.HOLD`. -/
theorem crcHoldKeepsValue : Obligations.CrcHoldKeepsValue := fun din s =>
  ⟨decode_crcCommandWord (by simp [encode]), exec_crcHold s din⟩

/-! ## One shift -/

/-- The feedback of R111: the polynomial where the bit shifted out is 1. -/
def crcFeedback (b : Bool) : BitVec 16 := if b then 0xA001 else 0

/-- The top bit of the polynomial is 1. -/
theorem getLsbD_crcFeedback_top (b : Bool) : (crcFeedback b).getLsbD 15 = b := by cases b <;> rfl

theorem crcShift_eq (c : BitVec 16) : crcShift c = (c >>> 1) ^^^ crcFeedback (c.getLsbD 0) := by
  unfold crcShift crcFeedback
  split <;> simp [Config.crcPoly]

/-- The feedback depends on bit 0 of both terms; the rest of `x` only moves right. -/
theorem crcShift_xor (c x : BitVec 16) :
    crcShift (c ^^^ x) = (c >>> 1) ^^^ crcFeedback (c.getLsbD 0 ^^ x.getLsbD 0) ^^^ x >>> 1 := by
  rw [crcShift_eq, BitVec.getLsbD_xor, BitVec.ushiftRight_xor_distrib]
  ac_rfl

theorem crcShift_of_even {c : BitVec 16} (h : c.getLsbD 0 = false) : crcShift c = c >>> 1 := by
  rw [crcShift_eq, h]
  exact BitVec.xor_zero

/-- The bit shifted out is not lost: the feedback puts it in the top bit. -/
theorem getLsbD_crcShift_top (c : BitVec 16) : (crcShift c).getLsbD 15 = c.getLsbD 0 := by
  rw [crcShift_eq, BitVec.getLsbD_xor, getLsbD_crcFeedback_top, BitVec.getLsbD_ushiftRight,
    BitVec.getLsbD_of_ge c _ le_rfl, Bool.false_xor]

theorem crcShift_injective : Function.Injective crcShift := by
  intro c d h
  have hbit : c.getLsbD 0 = d.getLsbD 0 := by rw [← getLsbD_crcShift_top, h, getLsbD_crcShift_top]
  have hrest : c >>> 1 = d >>> 1 := by
    rw [crcShift_eq, crcShift_eq, hbit] at h
    exact (BitVec.xor_left_inj _).mp h
  apply BitVec.eq_of_getLsbD_eq
  intro i hi
  cases i with
  | zero => exact hbit
  | succ i =>
    have hshifted := congrArg (·.getLsbD i) hrest
    simpa only [BitVec.getLsbD_ushiftRight, Nat.add_comm 1 i] using hshifted

/-! ## Several shifts -/

theorem crcShifts_injective (n : Nat) : Function.Injective (crcShifts n) := by
  induction n with
  | zero => exact Function.injective_id
  | succ n ih => exact ih.comp crcShift_injective

/-- As long as only zeros are shifted out there is no feedback. -/
theorem crcShifts_of_low_zero {n : Nat} {c : BitVec 16} (h : ∀ i < n, c.getLsbD i = false) :
    crcShifts n c = c >>> n := by
  induction n generalizing c with
  | zero => simp [crcShifts]
  | succ n ih =>
    rw [crcShifts, crcShift_of_even (h 0 n.succ_pos), ih, ← BitVec.shiftRight_add, Nat.add_comm]
    intro i hi
    rw [BitVec.getLsbD_ushiftRight]
    exact h (1 + i) (by omega)

/-- The two forms of R111 after `n` bits from bit `k` on: what the bit-serial form has not consumed yet, the other form
holds in the register. -/
theorem crcShifts_xor_eq_crcBitSerial (b : Byte) (n k : Nat) (c : BitVec 16) :
    crcShifts n (c ^^^ b.setWidth 16 >>> k)
      = Spec.crcBitSerial b (List.range' k n) c ^^^ b.setWidth 16 >>> (k + n) := by
  induction n generalizing k c with
  | zero => rfl
  | succ n ih =>
    have hbit : (b.setWidth 16 >>> k).getLsbD 0 = b.getLsbD k := by
      simpa using fun hk => (BitVec.lt_of_getLsbD hk).trans (by decide : 8 < 16)
    rw [crcShifts, crcShift_xor, hbit, ← BitVec.shiftRight_add, ih, List.range'_succ, Nat.add_right_comm]
    rfl

/-! ## The update with a byte -/

/-- After eight shifts nothing of the byte is left. -/
theorem setWidth_byte_ushiftRight (b : Byte) : b.setWidth 16 >>> 8 = 0#16 := by
  rw [← BitVec.setWidth_ushiftRight (by decide), BitVec.ushiftRight_eq_zero le_rfl]
  rfl

theorem crcUpdate_eq_crcBitSerial (c : BitVec 16) (b : Byte) :
    crcUpdate c b = Spec.crcBitSerial b [0, 1, 2, 3, 4, 5, 6, 7] c := by
  have hserial := crcShifts_xor_eq_crcBitSerial b 8 0 c
  rw [setWidth_byte_ushiftRight, BitVec.xor_zero] at hserial
  exact hserial

/-- Settles O14: the register's two forms of R111 agree once the whole byte is consumed. -/
theorem crcByteIsBitSerial : Obligations.CrcByteIsBitSerial := fun din s =>
  ⟨decode_crcCommandWord (by simp [encode]), by rw [exec_crcByte, crcUpdate_eq_crcBitSerial]; rfl⟩

theorem crcUpdate_injective (b : Byte) : Function.Injective fun c => crcUpdate c b :=
  (crcShifts_injective 8).comp fun _ _ => (BitVec.xor_left_inj _).mp

/-- Settles O16: the register has finitely many values, so an injective update is a bijection. -/
theorem crcUpdateIsBijective : Obligations.CrcUpdateIsBijective := fun b =>
  (crcUpdate_injective b).bijective_of_finite

/-- A byte equal to the register's low half cancels it, and the high half moves down. -/
theorem crcUpdate_lowByte (c : BitVec 16) : crcUpdate c (c.extractLsb' 0 8) = (c.extractLsb' 8 8).setWidth 16 := by
  have hlow : ∀ i < 8, (c ^^^ (c.extractLsb' 0 8).setWidth 16).getLsbD i = false := by
    intro i hi
    simp [hi, hi.trans (by decide : 8 < 16)]
  have hhigh : c >>> 8 = (c.extractLsb' 8 8).setWidth 16 := by
    apply BitVec.eq_of_toNat_eq
    rw [BitVec.toNat_ushiftRight, BitVec.toNat_setWidth, BitVec.extractLsb'_toNat]
    omega
  rw [crcUpdate, crcShifts_of_low_zero hlow, BitVec.ushiftRight_xor_distrib, setWidth_byte_ushiftRight,
    BitVec.xor_zero, hhigh]

/-- The byte cancels the register, and nothing feeds back into a register that is 0. -/
theorem crcUpdate_self (b : Byte) : crcUpdate (b.setWidth 16) b = 0 := by
  rw [crcUpdate, BitVec.xor_self, crcShifts_of_low_zero fun _ _ => BitVec.getLsbD_zero, BitVec.zero_ushiftRight]
  rfl

/-- Settles O15: the CRC's low byte leaves its high byte in the register, and that byte leaves nothing. -/
theorem crcResidueIsZero : Obligations.CrcResidueIsZero := by
  intro bs
  rw [crc16_append, List.foldl_cons, List.foldl_cons, List.foldl_nil, crcUpdate_lowByte, crcUpdate_self]

end Sys2Proof.Machine
end

section
/-! PROOFS. Calibration (41_calibrator.md R121 to R123): one invocation of `CAL.STEP` below and at the `N_CAL`-th
sample, and what the run of all of them from reset has found.  The registers are a fold of the samples: each starts at the
end of the range of a sample, which no sample passes, so the fold ends at an extreme of the samples themselves. -/

namespace Sys2Proof.Machine

/-! ## One invocation -/

/-- The working registers after one more sample (R121). -/
def Calibration.observe (c : Calibration) (smp : Nat) : Calibration :=
  { c with calMin := min c.calMin smp, calMax := max c.calMax smp, calCount := c.calCount + 1 }

/-- The CalibrationResult that the working registers give (R122). -/
def Calibration.complete (c : Calibration) : Calibration :=
  { c with
    darkValue := c.calMin, lightValue := c.calMax, threshold := midpoint c.calMin c.calMax, calDone := true }

/-- The event at the end of a calibration (R123). -/
def Calibration.completion (c : Calibration) : Event := if c.calMin = c.calMax then .calDegenerate else .calDone

section
variable {p : Params} {ctr now smp : Nat} {r : Receiver}

theorem calHandler_of_ne (hcount : r.cal.calCount + 1 ≠ p.nCal) :
    calHandler p now smp r = ({ r with cal := r.cal.observe smp }, .none) := if_neg hcount

theorem calHandler_of_eq (hcount : r.cal.calCount + 1 = p.nCal) :
    calHandler p now smp r =
      (restart now { r with cal := (r.cal.observe smp).complete }, (r.cal.observe smp).completion) := if_pos hcount

theorem handle_of_cal (hst : r.rxState = .cal) : handle p ctr now smp r = calHandler p now smp r := by
  rw [handle, hst]

end

/-- Settles O29: the two branches of R121. -/
theorem calStepTracksExtremes : Obligations.CalStepTracksExtremes := fun s =>
  ⟨fun hcount => by rw [exec_calStep, calHandler_of_ne hcount]; rfl,
    fun hcount => by rw [exec_calStep, calHandler_of_eq hcount]; rfl⟩

/-! ## The run of a calibration -/

theorem rxRun_append (p : Params) (ctr : Nat) (xs ys : List (Nat × Nat)) (r : Receiver) :
    rxRun p ctr (xs ++ ys) r = rxRun p ctr ys (rxRun p ctr xs r) := by
  induction xs generalizing r with
  | nil => rfl
  | cons x xs ih => exact ih _

/-- Below the `N_CAL`-th sample only the working registers change. -/
theorem rxRun_calibrating {p : Params} (ctr : Nat) (xs : List (Nat × Nat)) {r : Receiver} (hst : r.rxState = .cal)
    (hev : r.evCode = .none) (hcount : r.cal.calCount + xs.length < p.nCal) :
    rxRun p ctr xs r = { r with cal := (xs.map Prod.fst).foldl Calibration.observe r.cal } := by
  induction xs generalizing r with
  | nil => rfl
  | cons x xs ih =>
    obtain ⟨smp, now⟩ := x
    rw [List.length_cons] at hcount
    have hstep : raiseEvent (handle p ctr now smp r) = { r with cal := r.cal.observe smp } := by
      rw [handle_of_cal hst, calHandler_of_ne (by omega), raiseEvent, ← hev]
    rw [rxRun, hstep]
    exact ih hst hev (show r.cal.calCount + 1 + xs.length < p.nCal by omega)

theorem calCount_foldl_observe (l : List Nat) (c : Calibration) :
    (l.foldl Calibration.observe c).calCount = c.calCount + l.length := by
  induction l generalizing c with
  | nil => rfl
  | cons x l ih => rw [List.foldl_cons, ih, List.length_cons, Nat.add_comm l.length, ← Nat.add_assoc]; rfl

theorem rxRun_last_sample {p : Params} (ctr smp t : Nat) {r : Receiver} (hst : r.rxState = .cal)
    (hcount : r.cal.calCount + 1 = p.nCal) :
    rxRun p ctr [(smp, t)] r =
      { restart t { r with cal := (r.cal.observe smp).complete } with evCode := (r.cal.observe smp).completion } := by
  rw [rxRun, handle_of_cal hst, calHandler_of_eq hcount]
  rfl

/-- The `N_CAL`-th sample ends the calibration in PRE. -/
theorem rxRun_calibration {p : Params} (ctr smp t : Nat) (xs : List (Nat × Nat)) {r : Receiver}
    (hst : r.rxState = .cal) (hev : r.evCode = .none) (hcount : r.cal.calCount + xs.length + 1 = p.nCal) :
    rxRun p ctr (xs ++ [(smp, t)]) r =
      (let c := ((xs ++ [(smp, t)]).map Prod.fst).foldl Calibration.observe r.cal
       { restart t { r with cal := c.complete } with evCode := c.completion }) := by
  have hlast : ((xs.map Prod.fst).foldl Calibration.observe r.cal).calCount + 1 = p.nCal := by
    rw [calCount_foldl_observe, List.length_map, hcount]
  rw [rxRun_append, rxRun_calibrating ctr xs hst hev (by omega), List.map_append, List.foldl_append]
  exact rxRun_last_sample ctr smp t hst hlast

/-! ## The extremes -/

theorem calMin_foldl_observe (l : List Nat) (c : Calibration) :
    (l.foldl Calibration.observe c).calMin = l.foldl min c.calMin :=
  (List.foldl_hom Calibration.calMin fun _ _ => rfl).symm

theorem calMax_foldl_observe (l : List Nat) (c : Calibration) :
    (l.foldl Calibration.observe c).calMax = l.foldl max c.calMax :=
  (List.foldl_hom Calibration.calMax fun _ _ => rfl).symm

/-- The least sample, from a start that no sample exceeds. -/
theorem foldl_min_isLeast {l : List Nat} {hi : Nat} (hne : l ≠ []) (hle : ∀ x ∈ l, x ≤ hi) :
    IsLeast {x | x ∈ l} (l.foldl min hi) := by
  obtain ⟨m, hm⟩ := Option.isSome_iff_exists.mp (List.isSome_min?_of_ne_nil hne)
  obtain ⟨hmem, hleast⟩ := List.min?_eq_some_iff.mp hm
  rw [List.foldl_min, hm, Option.getD_some, Nat.min_eq_right (hle m hmem)]
  exact ⟨hmem, hleast⟩

/-- The greatest sample, from the start 0. -/
theorem foldl_max_isGreatest {l : List Nat} (hne : l ≠ []) : IsGreatest {x | x ∈ l} (l.foldl max 0) := by
  obtain ⟨m, hm⟩ := Option.isSome_iff_exists.mp (List.isSome_max?_of_ne_nil hne)
  obtain ⟨hmem, hgreatest⟩ := List.max?_eq_some_iff.mp hm
  rw [List.foldl_max, hm, Option.getD_some, Nat.zero_max]
  exact ⟨hmem, hgreatest⟩

/-- A calibration that starts as at reset has found the extremes of its samples (R57, R121). -/
theorem observe_initial_extremes {p : Params} {l : List Nat} (hne : l ≠ []) (hlt : ∀ x ∈ l, x < 2 ^ p.wS) :
    IsLeast {x | x ∈ l} (l.foldl Calibration.observe (Calibration.initial p)).calMin
      ∧ IsGreatest {x | x ∈ l} (l.foldl Calibration.observe (Calibration.initial p)).calMax := by
  rw [calMin_foldl_observe, calMax_foldl_observe]
  exact ⟨foldl_min_isLeast hne fun x hx => Nat.le_pred_of_lt (hlt x hx), foldl_max_isGreatest hne⟩

/-- Settles O30: the run ends with the registers that all samples give together. -/
theorem calibrationFindsTheMidpoint : Obligations.CalibrationFindsTheMidpoint := by
  intro p ctr smp t xs buf _ hlen hlt
  have hmem : ∀ y, y ∈ (xs ++ [(smp, t)]).map Prod.fst ↔ ∃ x ∈ (smp, t) :: xs, x.1 = y := by
    simp [or_comm, eq_comm]
  have hbound : ∀ y ∈ (xs ++ [(smp, t)]).map Prod.fst, y < 2 ^ p.wS := by
    intro y hy
    obtain ⟨x, hx, rfl⟩ := (hmem y).mp hy
    exact hlt x hx
  obtain ⟨⟨hdark, hleast⟩, hlight, hgreatest⟩ := observe_initial_extremes (by simp) hbound
  have hcount : (Receiver.initial p buf).cal.calCount + xs.length + 1 = p.nCal := by
    rw [← hlen]
    exact congrArg (· + 1) (Nat.zero_add _)
  rw [rxRun_calibration ctr smp t xs rfl rfl hcount]
  refine ⟨rfl, rfl, rfl, rfl, (hmem _).mp hdark, (hmem _).mp hlight, ?_, rfl, rfl⟩
  intro x hx
  have hsample := (hmem x.1).mpr ⟨x, hx, rfl⟩
  exact ⟨hleast hsample, hgreatest hsample⟩

end Sys2Proof.Machine
end

section
/-! PROOFS. The sender, one operation at a time (42_encoder.md R130 to R140): the positions of R138 and R139 row by row,
what holding a level and moving on from it do, the host commands, and the arms of `TX.TICK`. -/

namespace Sys2Proof.Machine

/-! ## Positions -/

section
variable {p : Params} {ctr i b : Nat} {half : Bool} {t : Sender}

/-! ### The rows of R139 -/

theorem nextPos_preamble (hi : i < 15) : nextPos p ctr t ⟨.preamble, i, b, half⟩ = rawPos .preamble (i + 1) := if_pos hi

theorem nextPos_preamble_last : nextPos p ctr t ⟨.preamble, 15, b, half⟩ = rawPos .sof 0 := rfl

theorem nextPos_sof (hi : i < 7) : nextPos p ctr t ⟨.sof, i, b, half⟩ = rawPos .sof (i + 1) := if_pos hi

theorem nextPos_sof_last : nextPos p ctr t ⟨.sof, 7, b, half⟩ = rawPos .data 0 := rfl

theorem nextPos_data_firstHalf : nextPos p ctr t ⟨.data, i, b, false⟩ = ⟨.data, i, b, true⟩ := rfl

theorem nextPos_data_bit (hb : 0 < b) : nextPos p ctr t ⟨.data, i, b, true⟩ = ⟨.data, i, b - 1, false⟩ := if_pos hb

theorem nextPos_data_byte (hi : i < 8 + t.txLen.toNat) :
    nextPos p ctr t ⟨.data, i, 0, true⟩ = rawPos .data (i + 1) := if_pos hi

theorem nextPos_data_last : nextPos p ctr t ⟨.data, 8 + t.txLen.toNat, 0, true⟩ = rawPos .eof 0 :=
  if_neg (Nat.lt_irrefl _)

theorem nextPos_eof (hi : i < 7) : nextPos p ctr t ⟨.eof, i, b, half⟩ = rawPos .eof (i + 1) := if_pos hi

theorem nextPos_eof_gap (hleft : 0 < t.txEmitLeft) :
    nextPos p ctr t ⟨.eof, 7, b, half⟩ = rawPos .gap (gapIdx p ctr) := if_pos hleft

theorem nextPos_eof_idle (hleft : t.txEmitLeft = 0) : nextPos p ctr t ⟨.eof, 7, b, half⟩ = rawPos .idle 0 :=
  if_neg (Nat.not_lt_of_le hleft.le)

/-! ### The rows of R138 -/

theorem posLevel_preamble (h : i < 15) : posLevel p ctr t (rawPos .preamble (i + 1)) = decide (i % 2 = 1) := by
  change Config.preambleBits.getLsbD (15 - (i + 1)) = _
  revert i
  decide

theorem posLevel_sof (h : i < 7) : posLevel p ctr t (rawPos .sof (i + 1)) = decide (i + 1 < 4) := by
  change Config.patSof.getLsbD (7 - (i + 1)) = _
  revert i
  decide

theorem posLevel_eof (h : i < 7) : posLevel p ctr t (rawPos .eof (i + 1)) = decide (4 ≤ i + 1) := by
  change Config.patEof.getLsbD (7 - (i + 1)) = _
  revert i
  decide

theorem posLevel_data_firstHalf : posLevel p ctr t ⟨.data, i, b, false⟩ = (frameByte p ctr t i).getLsbD b :=
  Bool.xor_false _

theorem posLevel_data_secondHalf : posLevel p ctr t ⟨.data, i, b, true⟩ = !(frameByte p ctr t i).getLsbD b :=
  Bool.xor_true _

/-- The first data level is the most significant bit of `type` (R136). -/
theorem posLevel_data_first : posLevel p ctr t (rawPos .data 0) = t.txType.getLsbD 23 := by
  rw [rawPos, posLevel_data_firstHalf]
  simp [frameByte]

end

/-! ## Holding a level, and moving on -/

section
variable {p : Params} {ctr : Nat} {ph : TxPhase} {pos : TxPos} {cmd : BitVec 26} {t : Sender}

theorem emitTick_hold (h : 0 < t.txTimer) :
    emitTick p ctr ph t = { t with txDone := false, txTimer := t.txTimer - 1 } := if_pos h

theorem emitTick_move (h : t.txTimer = 0) (hph : t.txPhase = ph) :
    emitTick p ctr ph t = moveTo p ctr t (nextPos p ctr t t.pos) := by
  subst hph
  exact if_neg (by omega)

theorem gapTick_hold (h : 0 < t.txTimer) : gapTick p ctr t = { t with txDone := false, txTimer := t.txTimer - 1 } := by
  rw [gapTick, if_pos h, emitTick_hold h]

/-- Leaving the gap uses up one of the emissions left (R139). -/
theorem gapTick_move (h : t.txTimer = 0) :
    gapTick p ctr t = moveTo p ctr { t with txEmitLeft := t.txEmitLeft - 1 } (rawPos .preamble 0) := by
  have hlt : ¬ 0 < t.txTimer := by omega
  rw [gapTick, if_neg hlt]
  exact if_neg hlt

theorem moveTo_of_ne_idle (h : pos.phase ≠ .idle) :
    moveTo p ctr t pos =
      { t with
        txPhase := pos.phase, txIdx := pos.idx, txBit := pos.bit, txHalf := pos.half,
        txOut := posLevel p ctr t pos, txTimer := posDuration p pos - 1, txDone := false } := if_neg h

theorem moveTo_idle :
    moveTo p ctr t (rawPos .idle 0) =
      { t with txPhase := .idle, txIdx := 0, txBit := 7, txHalf := false, txOut := false, txDone := true } := rfl

theorem txTick_hold (hbusy : t.txPhase ≠ .idle) (htimer : 0 < t.txTimer) :
    txTick p ctr cmd t = { t with txDone := false, txTimer := t.txTimer - 1 } := by
  unfold txTick
  split
  next hidle => exact absurd hidle hbusy
  next => exact emitTick_hold htimer
  next => exact emitTick_hold htimer
  next => exact emitTick_hold htimer
  next => exact emitTick_hold htimer
  next => exact gapTick_hold htimer

theorem txTick_move (hbusy : t.txPhase ≠ .idle) (hgap : t.txPhase ≠ .gap) (htimer : t.txTimer = 0) :
    txTick p ctr cmd t = moveTo p ctr t (nextPos p ctr t t.pos) := by
  unfold txTick
  split
  next hidle => exact absurd hidle hbusy
  next hph => exact emitTick_move htimer hph
  next hph => exact emitTick_move htimer hph
  next hph => exact emitTick_move htimer hph
  next hph => exact emitTick_move htimer hph
  next hph => exact absurd hph hgap

theorem txTick_gap_move (hgap : t.txPhase = .gap) (htimer : t.txTimer = 0) :
    txTick p ctr cmd t = moveTo p ctr { t with txEmitLeft := t.txEmitLeft - 1 } (rawPos .preamble 0) := by
  rw [← gapTick_move htimer, txTick, hgap]

/-- A busy sender's tick does not depend on the command word (R134). -/
theorem txTick_cmd_of_busy (h : t.txPhase ≠ .idle) (cmd cmd' : BitVec 26) :
    txTick p ctr cmd t = txTick p ctr cmd' t := by
  unfold txTick
  split
  next hidle => exact absurd hidle h
  all_goals rfl

end

/-! ## Host commands -/

/-- What the command word on the ports does is what the operation it decodes to does (R96). -/
theorem exec_of_decode_txcmd {w : BitVec 26} {i : Instr} (h : decode ⟨.txcmd, w.toNat⟩ = .ok i) (s : State) :
    exec i s = .next (s.setTx (hostCommand s.params w s.tx)) := by
  have hw : cmdOp w ++ cmdType w = w := by
    rw [cmdOp, cmdType, BitVec.extractLsb'_append_extractLsb'_eq_extractLsb' (by rfl), BitVec.extractLsb'_eq_self]
  obtain ⟨hnop, hclear, hpush, hstart⟩ := commandWordFields (cmdOp w) (cmdType w)
  rw [hw, h] at hnop hclear hpush hstart
  have hop : cmdOp w = 0 ∨ cmdOp w = 1 ∨ cmdOp w = 2 ∨ cmdOp w = 3 := by
    generalize cmdOp w = op
    revert op
    decide
  obtain hop | hop | hop | hop := hop
  · cases hnop hop
    rw [exec_txNop, hostCommand, hop, if_pos rfl, ifIdle, ite_self]
    rfl
  · cases hclear hop
    rw [exec_txClear, hostCommand, hop]
    rfl
  · cases hpush hop
    rw [exec_txPush, hostCommand, hop]
    have hbyte : (cmdType w).extractLsb' 0 8 = cmdByte w := by
      ext j hj
      simp [cmdType, cmdByte]
    rw [hbyte]
    rfl
  · cases hstart hop
    rw [exec_txStart, hostCommand, hop]
    rfl

/-- Settles O10: the arm is `hostCommand` on the cleared outputs, and so is the operation the word decodes to. -/
theorem idleArmRunsTheCommand : Obligations.IdleArmRunsTheCommand := fun s _ _ hdec =>
  ⟨_, exec_of_decode_txcmd hdec _, exec_txIdle s⟩

/-- Settles O17: the word's `op` is 0, whatever `arg`. -/
theorem nopDoesNothing : Obligations.NopDoesNothing := fun arg s =>
  ⟨(commandWordFields 0 arg).1 rfl, exec_txNop s arg⟩

/-- Settles O18: the word's `op` is 1, whatever `arg`; a command acts on an idle sender only. -/
theorem clearEmptiesTheFrame : Obligations.ClearEmptiesTheFrame := by
  intro arg s
  obtain ⟨-, hclear, -, -⟩ := commandWordFields 1 arg
  refine ⟨hclear rfl, fun hidle => ?_, fun hbusy => ?_⟩
  · rw [exec_txClear, ifIdle_of_idle hidle]
    rfl
  · rw [exec_txClear, ifIdle_of_busy hbusy]
    rfl

section
variable {p : Params} {b : Byte} {t : Sender}

theorem pushByte_of_room (h : t.txLen.toNat < p.txDepth) :
    pushByte p b t =
      { t with
        buf := memWrite p.txDepth t.buf t.txLen.toNat b, txLen := t.txLen + 1, txCrc := crcUpdate t.txCrc b } :=
  if_pos h

theorem pushByte_of_full (h : p.txDepth ≤ t.txLen.toNat) : pushByte p b t = { t with txOvf := true } :=
  if_neg (Nat.not_lt.mpr h)

/-- `txLen` does not wrap: `TX_DEPTH` is at most `2^32 - 1` (R8). -/
theorem txLen_add_one (hwf : p.wf = true) (h : t.txLen.toNat < p.txDepth) :
    (t.txLen + 1).toNat = t.txLen.toNat + 1 := by
  have hp := Params.wf_facts hwf
  exact toNat_add_one h (by omega)

end

/-- Settles O19: the two branches of R132, and the busy sender. -/
theorem pushAppendsAByte : Obligations.PushAppendsAByte := by
  intro hi b s hwf
  refine ⟨fun hidle hroom => ⟨memWrite s.params.txDepth s.tx.buf s.tx.txLen.toNat b, ?room, txLen_add_one hwf hroom,
      memRead_memWrite_same hroom, ?others⟩,
    fun hidle hfull => ?full, fun hbusy => ?busy⟩
  case room =>
    rw [exec_txPush, ifIdle_of_idle hidle, pushByte_of_room hroom]
    rfl
  case others => exact fun a ha => memRead_memWrite_other (Ne.symm ha)
  case full =>
    rw [exec_txPush, ifIdle_of_idle hidle, pushByte_of_full hfull]
    rfl
  case busy =>
    rw [exec_txPush, ifIdle_of_busy hbusy]
    rfl

/-- Settles O20: a command acts on an idle sender only. -/
theorem startBeginsAnEmission : Obligations.StartBeginsAnEmission := by
  intro ty s
  refine ⟨fun hidle => ?_, fun hbusy => ?_⟩
  · rw [exec_txStart, ifIdle_of_idle hidle]
    rfl
  · rw [exec_txStart, ifIdle_of_busy hbusy]
    rfl

/-- Settles O21: the sender's arm is the one part of a tick that sees the word, and only the idle one uses it. -/
theorem busySenderIgnoresTheHost : Obligations.BusySenderIgnoresTheHost := by
  intro s pins cmd hbusy
  obtain hrst | hrst := Bool.eq_false_or_eq_true pins.rst
  · rw [tickWith_rst hrst, tickWith_rst (pins := { pins with txCmd := cmd }) hrst]
    rfl
  · rw [tickWith_run hrst, tickWith_run (pins := { pins with txCmd := cmd }) hrst,
      txTick_cmd_of_busy hbusy cmd pins.txCmd]
    rfl

/-! ## A payload, push by push -/

/-- An idle sender that holds these bytes, and no more, as its payload (R48, R132). -/
structure Sender.Built (p : Params) (bs : List Byte) (t : Sender) : Prop where
  idle : t.txPhase = .idle
  txLen : t.txLen.toNat = bs.length
  txCrc : t.txCrc = crc16 bs
  txOvf : t.txOvf = false
  bytes : ∀ k < bs.length, memRead p.txDepth t.buf k = bs[k]?

theorem Sender.Built.clear {p : Params} {t : Sender} (h : t.txPhase = .idle) : (clearFrame t).Built p [] where
  idle := h
  txLen := rfl
  txCrc := rfl
  txOvf := rfl
  bytes _ hk := absurd hk (Nat.not_lt_zero _)

/-- A push with room adds its byte at the end. -/
theorem Sender.Built.push {p : Params} {bs : List Byte} {t : Sender} (hwf : p.wf = true) (h : t.Built p bs)
    (hroom : bs.length < p.txDepth) (b : Byte) : (pushByte p b t).Built p (bs ++ [b]) := by
  have hlt : t.txLen.toNat < p.txDepth := h.txLen ▸ hroom
  rw [pushByte_of_room hlt]
  refine ⟨h.idle, ?txLen, ?txCrc, h.txOvf, fun k hk => ?bytes⟩
  case txLen => rw [txLen_add_one hwf hlt, h.txLen, List.length_append, List.length_singleton]
  case txCrc => rw [crc16_concat, h.txCrc]
  case bytes =>
    rw [List.length_append, List.length_singleton] at hk
    obtain rfl | hne := eq_or_ne k bs.length
    · rw [h.txLen, memRead_memWrite_same hroom, List.getElem?_concat_length]
    · have hold : k < bs.length := by omega
      rw [h.txLen, memRead_memWrite_other hne.symm, h.bytes k hold, List.getElem?_append_left hold]

/-- Pushes that fit append their bytes, and change nothing outside the sender nor `txType`. -/
theorem pushAll_built (bs : List Byte) {done : List Byte} {s : State} (hwf : s.params.wf = true)
    (h : s.tx.Built s.params done) (hfits : done.length + bs.length ≤ s.params.txDepth) :
    ∃ u, Spec.pushAll bs s = .next u ∧ u.tx.Built s.params (done ++ bs) ∧ u.rx = s.rx
      ∧ u.tx.txType = s.tx.txType := by
  induction bs generalizing done s with
  | nil => exact ⟨s, rfl, by rwa [List.append_nil], rfl, rfl⟩
  | cons b bs ih =>
    rw [List.length_cons] at hfits
    have hroom : done.length < s.params.txDepth := by omega
    have hpush : exec (.txPush 0 b) s = .next (s.setTx (pushByte s.params b s.tx)) := by
      rw [exec_txPush, ifIdle_of_idle h.idle]
    have htype : (pushByte s.params b s.tx).txType = s.tx.txType := by
      rw [pushByte_of_room (h.txLen ▸ hroom)]
    obtain ⟨u, hrun, hbuilt, hrx, hty⟩ := ih (s := s.setTx (pushByte s.params b s.tx)) hwf (h.push hwf hroom b)
      (by rw [List.length_append, List.length_singleton, State.setTx_params]; omega)
    rw [List.append_assoc] at hbuilt
    exact ⟨u, by rw [Spec.pushAll, hpush]; exact hrun, hbuilt, hrx, hty.trans htype⟩

/-- Settles O22: a clear leaves the empty payload, and each push adds its byte at the end. -/
theorem pushesBuildThePayload : Obligations.PushesBuildThePayload := by
  intro bs arg s hwf hidle hfits
  obtain ⟨u, hrun, hbuilt, hrx, hty⟩ := pushAll_built bs (s := s.setTx (clearFrame s.tx)) hwf (.clear hidle)
    ((Nat.zero_add _).trans_le hfits)
  refine ⟨_, u, ?_, hrun, hbuilt.txLen, hbuilt.txCrc, hbuilt.txOvf, hbuilt.bytes, hrx, hty⟩
  rw [exec_txClear, ifIdle_of_idle hidle]

/-! ## The arms -/

section
variable {s : State} {ph ph' : TxPhase} {pos : TxPos} {i b : Nat} {half : Bool} {lv : Level}

/-- The arm that `txPhase` selects is the whole hardware's `TX.TICK` (R99, R140). -/
theorem exec_arm (hph : s.tx.txPhase = ph) :
    exec ph.arm s = .next (s.setTx (txTick s.params s.freeCtr s.pins.txCmd s.tx)) := by
  rw [txTick, hph]
  cases ph <;> rfl

/-- The five busy arms hold a level alike (R140). -/
theorem exec_arm_hold (hph : s.tx.txPhase = ph) (hbusy : ph ≠ .idle) (htimer : 0 < s.tx.txTimer) :
    exec ph.arm s = .next { s with tx := { s.tx with txDone := false, txTimer := s.tx.txTimer - 1 } } := by
  rw [exec_arm hph, txTick_hold (hph ▸ hbusy) htimer]
  rfl

/-- The arms within a frame move on alike (R140). -/
theorem exec_arm_move (hph : s.tx.txPhase = ph) (hbusy : ph ≠ .idle) (hgap : ph ≠ .gap) (htimer : s.tx.txTimer = 0)
    (hnext : nextPos s.params s.freeCtr s.tx s.tx.pos = pos) :
    exec ph.arm s = .next (s.setTx (moveTo s.params s.freeCtr s.tx pos)) := by
  rw [exec_arm hph, txTick_move (hph ▸ hbusy) (hph ▸ hgap) htimer, hnext]

/-- A move to another phase than IDLE. -/
theorem exec_arm_leave (hph : s.tx.txPhase = ph) (hbusy : ph ≠ .idle) (hgap : ph ≠ .gap) (htimer : s.tx.txTimer = 0)
    (hnext : nextPos s.params s.freeCtr s.tx s.tx.pos = ⟨ph', i, b, half⟩) (hph' : ph' ≠ .idle)
    (hlevel : posLevel s.params s.freeCtr s.tx ⟨ph', i, b, half⟩ = lv) :
    exec ph.arm s =
      .next { s with tx := { s.tx with
        txPhase := ph', txIdx := i, txBit := b, txHalf := half, txOut := lv,
        txTimer := posDuration s.params ⟨ph', i, b, half⟩ - 1, txDone := false } } := by
  rw [exec_arm_move hph hbusy hgap htimer hnext, moveTo_of_ne_idle hph', hlevel]
  rfl

/-- A move within a phase. -/
theorem exec_arm_stay (hph : s.tx.txPhase = ph) (hbusy : ph ≠ .idle) (hgap : ph ≠ .gap) (htimer : s.tx.txTimer = 0)
    (hnext : nextPos s.params s.freeCtr s.tx s.tx.pos = ⟨ph, i, b, half⟩)
    (hlevel : posLevel s.params s.freeCtr s.tx ⟨ph, i, b, half⟩ = lv) :
    exec ph.arm s =
      .next { s with tx := { s.tx with
        txIdx := i, txBit := b, txHalf := half, txOut := lv,
        txTimer := posDuration s.params ⟨ph, i, b, half⟩ - 1, txDone := false } } := by
  rw [exec_arm_leave hph hbusy hgap htimer hnext hbusy hlevel, ← hph]

theorem Sender.pos_of_phase {t : Sender} (hph : t.txPhase = ph) : t.pos = ⟨ph, t.txIdx, t.txBit, t.txHalf⟩ := by
  rw [Sender.pos, hph]

end

/-- Settles O23: hold, the next raw bit, and after the last the start delimiter. -/
theorem preambleArm : Obligations.PreambleArm := by
  intro s hph
  have hpos := Sender.pos_of_phase hph
  refine ⟨exec_arm_hold hph nofun, fun htimer hi => ?next, fun htimer hi => ?last⟩
  case next =>
    exact exec_arm_stay hph nofun nofun htimer (hpos ▸ nextPos_preamble hi) (posLevel_preamble hi)
  case last =>
    rw [hi] at hpos
    exact exec_arm_leave hph nofun nofun htimer (hpos ▸ nextPos_preamble_last) nofun rfl

/-- Settles O24: hold, the next raw bit, and after the last the first bit of `type`. -/
theorem startDelimiterArm : Obligations.StartDelimiterArm := by
  intro s hph
  have hpos := Sender.pos_of_phase hph
  refine ⟨exec_arm_hold hph nofun, fun htimer hi => ?next, fun htimer hi => ?last⟩
  case next => exact exec_arm_stay hph nofun nofun htimer (hpos ▸ nextPos_sof hi) (posLevel_sof hi)
  case last =>
    rw [hi] at hpos
    exact exec_arm_leave hph nofun nofun htimer (hpos ▸ nextPos_sof_last) nofun posLevel_data_first

/-- Settles O25: hold, the second half, the next bit, the next byte, and after the last the end delimiter. -/
theorem dataArm : Obligations.DataArm := by
  intro s hph
  have hpos := Sender.pos_of_phase hph
  refine ⟨exec_arm_hold hph nofun, fun htimer hhalf => ?secondHalf, fun htimer hhalf hbit => ?bit,
    fun htimer hhalf hbit hi => ?byte, fun htimer hhalf hbit hi => ?last⟩
  all_goals rw [hhalf] at hpos
  case secondHalf =>
    exact exec_arm_stay hph nofun nofun htimer (hpos ▸ nextPos_data_firstHalf) posLevel_data_secondHalf
  case bit => exact exec_arm_stay hph nofun nofun htimer (hpos ▸ nextPos_data_bit hbit) posLevel_data_firstHalf
  case byte =>
    rw [hbit] at hpos
    exact exec_arm_stay hph nofun nofun htimer (hpos ▸ nextPos_data_byte hi) posLevel_data_firstHalf
  case last =>
    rw [hbit, hi] at hpos
    exact exec_arm_leave hph nofun nofun htimer (hpos ▸ nextPos_data_last) nofun rfl

/-- Settles O26: hold, the next raw bit, and after the last a gap if emissions are left, and else the end. -/
theorem endDelimiterArm : Obligations.EndDelimiterArm := by
  intro s hph
  have hpos := Sender.pos_of_phase hph
  refine ⟨exec_arm_hold hph nofun, fun htimer hi => ?next, fun htimer hi hleft => ?gap, fun htimer hi hleft => ?done⟩
  case next => exact exec_arm_stay hph nofun nofun htimer (hpos ▸ nextPos_eof hi) (posLevel_eof hi)
  all_goals rw [hi] at hpos
  case gap =>
    exact ⟨gapIdx s.params s.freeCtr, Nat.mod_lt _ (Nat.add_pos_left (by decide) _),
      exec_arm_leave hph nofun nofun htimer (hpos ▸ nextPos_eof_gap hleft) nofun rfl⟩
  case done =>
    exact (exec_arm_move hph nofun nofun htimer (hpos ▸ nextPos_eof_idle hleft)).trans
      (by rw [moveTo_idle]; rfl)

/-- Settles O27: hold, or begin the next emission, with one less left. -/
theorem gapArm : Obligations.GapArm := by
  intro s hph
  refine ⟨exec_arm_hold hph nofun, fun htimer => ?_⟩
  rw [exec_txGap, gapTick_move htimer, moveTo_of_ne_idle TxPhase.noConfusion]
  rfl

end Sys2Proof.Machine
end

section
/-! PROOFS. A whole emission (42_encoder.md R141, R142).  A busy sender's ticks depend on no input, so what it shows is
a property of the sender alone: it arrives at a position, shows the position's level for its duration, and arrives at
the next.  Chained along R139 these make up a frame, and frames with gaps between them an emission. -/

namespace Sys2Proof.Machine

/-! ## What a busy sender shows -/

/-- Whatever the inputs with `rst = 0` and the free values, the sender is busy and shows these levels on `tx_out` at the
coming ticks, and then is as `Q` says. -/
def Sender.Shows (p : Params) : List Level → (Sender → Prop) → Sender → Prop
  | [], Q, t => Q t
  | lv :: wave, Q, t => t.txOut = lv ∧ t.txPhase ≠ .idle ∧ ∀ ctr cmd, (txTick p ctr cmd t).Shows p wave Q

theorem Sender.Shows.append {p : Params} {xs ys : List Level} {P Q : Sender → Prop} {t : Sender}
    (h : t.Shows p xs P) (hP : ∀ u : Sender, P u → u.Shows p ys Q) : t.Shows p (xs ++ ys) Q := by
  induction xs generalizing t with
  | nil => exact hP t h
  | cons lv xs ih =>
    obtain ⟨hout, hbusy, hticks⟩ := h
    exact ⟨hout, hbusy, fun ctr cmd => ih (hticks ctr cmd)⟩

/-- What the sender shows is what the ports show while the whole hardware runs (R200). -/
theorem Sender.Shows.trace {wave : List Level} {Q : Sender → Prop} {inputs : List Pins} {s : State}
    (h : s.tx.Shows s.params wave Q) (hrst : ∀ x ∈ inputs, x.rst = false) (hlen : inputs.length = wave.length) :
    txTrace inputs s = wave ∧ busyTrace inputs s = List.replicate inputs.length true ∧ Q (runTicks inputs s).tx := by
  induction wave generalizing s inputs with
  | nil =>
    obtain rfl := List.eq_nil_of_length_eq_zero hlen
    exact ⟨rfl, rfl, h⟩
  | cons lv wave ih =>
    obtain ⟨hout, hbusy, hticks⟩ := h
    obtain ⟨pins, inputs, rfl⟩ := List.exists_cons_of_length_eq_add_one hlen
    obtain ⟨hpins, hrest⟩ := List.forall_mem_cons.mp hrst
    have hnext : (tickWith pins s).tx.Shows (tickWith pins s).params wave Q := by
      rw [tickWith_params, tickWith_tx, hpins]
      exact hticks s.freeCtr pins.txCmd
    obtain ⟨htrace, hbusyTrace, hend⟩ := ih hnext hrest (Nat.succ_inj.mp hlen)
    refine ⟨by rw [txTrace, hout, htrace], ?_, hend⟩
    rw [busyTrace, hbusyTrace, Sender.busy, decide_eq_true hbusy, List.length_cons, List.replicate_succ]

/-! ## One level -/

section
variable {p : Params} {ctr : Nat} {cmd : BitVec 26} {t : Sender}

/-- The sender in the last tick of its present level; `tx_done` is not read while it is busy. -/
def Sender.due (t : Sender) : Sender := { t with txTimer := 0, txDone := false }

theorem moveTo_due {pos : TxPos} (htimer : t.txTimer = 0) : moveTo p ctr t pos = moveTo p ctr t.due pos := by
  unfold moveTo
  split_ifs
  · rw [Sender.due, ← htimer]
  · rw [posLevel_congr (t' := t.due) (t := t) rfl rfl rfl rfl]
    rfl

theorem txTick_due (hbusy : t.txPhase ≠ .idle) (htimer : t.txTimer = 0) :
    txTick p ctr cmd t = txTick p ctr cmd t.due := by
  by_cases hgap : t.txPhase = .gap
  · rw [txTick_gap_move hgap htimer, txTick_gap_move (t := t.due) hgap rfl]
    exact moveTo_due htimer
  · rw [txTick_move hbusy hgap htimer, txTick_move (t := t.due) hbusy hgap rfl]
    exact moveTo_due htimer

/-- A busy sender shows its level until its timer has run down. -/
theorem Sender.shows_hold {Q : Sender → Prop} (hbusy : t.txPhase ≠ .idle)
    (hQ : ∀ ctr cmd, Q (txTick p ctr cmd t.due)) : t.Shows p (List.replicate (t.txTimer + 1) t.txOut) Q := by
  induction h : t.txTimer generalizing t with
  | zero => exact ⟨rfl, hbusy, fun ctr cmd => txTick_due (p := p) (ctr := ctr) (cmd := cmd) hbusy h ▸ hQ ctr cmd⟩
  | succ n ih =>
    refine ⟨rfl, hbusy, fun ctr cmd => ?_⟩
    rw [txTick_hold hbusy (by omega)]
    exact ih hbusy hQ (by simp [h])

end

/-! ## Positions in turn -/

/-- What the levels of the present frame, and where they end, are read from (R136). -/
def Sender.frame (t : Sender) : BitVec 24 × BitVec 32 × BitVec 16 × Memory := (t.txType, t.txLen, t.txCrc, t.buf)

theorem posLevel_of_frame_eq {p : Params} {c : Nat} {pos : TxPos} {t f : Sender} (h : t.frame = f.frame) :
    posLevel p c t pos = posLevel p c f pos := by
  simp only [Sender.frame, Prod.mk.injEq] at h
  obtain ⟨htype, hlen, hcrc, hbuf⟩ := h
  exact posLevel_congr htype hlen hcrc hbuf c pos

theorem txLen_of_frame_eq {t f : Sender} (h : t.frame = f.frame) : t.txLen = f.txLen :=
  congrArg (fun x => x.2.1) h

/-- The sender has just arrived at a position of the frame that `f` holds, with `left` emissions left after this one. -/
structure Sender.Arrived (p : Params) (t f : Sender) (left : Nat) (pos : TxPos) : Prop where
  ok : t.due.Ok p
  frame : t.frame = f.frame
  emitLeft : t.txEmitLeft = left
  pos_eq : t.pos = pos
  timer : t.txTimer = posDuration p pos - 1

/-- The ticks of a position: its level for its duration (R138). -/
def held (p : Params) (f : Sender) (pos : TxPos) : List Level :=
  List.replicate (posDuration p pos) (posLevel p 0 f pos)

theorem Sender.Ok.due {p : Params} {t : Sender} (h : t.Ok p) : t.due.Ok p :=
  { h with timer_lt := (Nat.zero_le _).trans_lt h.timer_lt, done := nofun }

/-- From any sender as `P` says, these levels are shown and it is as `Q` says. -/
def Emits (p : Params) (P : Sender → Prop) (wave : List Level) (Q : Sender → Prop) : Prop :=
  ∀ t : Sender, P t → t.Shows p wave Q

theorem Emits.trans {p : Params} {P Q R : Sender → Prop} {xs ys : List Level} (hPQ : Emits p P xs Q)
    (hQR : Emits p Q ys R) : Emits p P (xs ++ ys) R := fun t ht => (hPQ t ht).append hQR

theorem Emits.range {p : Params} {P : Nat → Sender → Prop} {wave : Nat → List Level} {n : Nat}
    (h : ∀ i < n, Emits p (P i) (wave i) (P (i + 1))) : Emits p (P 0) ((List.range n).flatMap wave) (P n) := by
  induction n with
  | zero => exact fun _ ht => ht
  | succ n ih =>
    rw [List.range_succ, List.flatMap_append, List.flatMap_singleton]
    exact (ih fun i hi => h i (hi.trans (Nat.lt_succ_self n))).trans (h n (Nat.lt_succ_self n))

theorem Emits.range_succ {p : Params} {P : Nat → Sender → Prop} {Q : Sender → Prop} {wave : Nat → List Level} {n : Nat}
    (h : ∀ i < n, Emits p (P i) (wave i) (P (i + 1))) (hlast : Emits p (P n) (wave n) Q) :
    Emits p (P 0) ((List.range (n + 1)).flatMap wave) Q := by
  rw [List.range_succ, List.flatMap_append, List.flatMap_singleton]
  exact (Emits.range h).trans hlast

section
variable {p : Params} {f : Sender} {left : Nat} {pos q : TxPos}

/-- Arriving by a tick. -/
theorem Sender.Arrived.of_eq_moveTo {ctr : Nat} {t u : Sender} (hok : t.Ok p) (ht : t = moveTo p ctr u q)
    (hq : q.phase ≠ .idle) (hframe : u.frame = f.frame) : t.Arrived p f u.txEmitLeft q := by
  rw [moveTo_of_ne_idle hq] at ht
  subst ht
  exact ⟨hok.due, hframe, rfl, rfl, rfl⟩

/-- A position is shown for its duration. -/
theorem Sender.Arrived.shows_held {Q : Sender → Prop} {t : Sender} (hwf : p.wf = true) (h : t.Arrived p f left pos)
    (hbusy : pos.phase ≠ .idle) (hQ : ∀ ctr cmd, Q (txTick p ctr cmd t.due)) : t.Shows p (held p f pos) Q := by
  have hphase : t.txPhase = pos.phase := congrArg TxPos.phase h.pos_eq
  have htimer : t.txTimer + 1 = posDuration p pos := by
    rw [h.timer]
    exact Nat.sub_add_cancel (posDuration_pos pos hwf)
  have hout : t.txOut = posLevel p 0 f pos := by
    rw [← posLevel_of_frame_eq h.frame, ← h.pos_eq]
    exact h.ok.level 0
  rw [held, ← htimer, ← hout]
  exact Sender.shows_hold (hphase ▸ hbusy) hQ

/-- The tick that leaves a position of a frame arrives at the next. -/
theorem Sender.Arrived.move {ctr : Nat} {cmd : BitVec 26} {t : Sender} (hwf : p.wf = true) (h : t.Arrived p f left pos)
    (hbusy : pos.phase ≠ .idle) (hgap : pos.phase ≠ .gap) (hnext : nextPos p ctr t pos = q) (hq : q.phase ≠ .idle) :
    (txTick p ctr cmd t.due).Arrived p f left q := by
  have hphase : t.due.txPhase = pos.phase := congrArg TxPos.phase h.pos_eq
  have hmove : txTick p ctr cmd t.due = moveTo p ctr t.due q := by
    rw [txTick_move (hphase ▸ hbusy) (hphase ▸ hgap) rfl, ← hnext, ← h.pos_eq]
    rfl
  rw [← h.emitLeft]
  exact .of_eq_moveTo (u := t.due) (txTick_ok hwf h.ok) hmove hq h.frame

theorem emits_held (hwf : p.wf = true) (hbusy : pos.phase ≠ .idle) (hgap : pos.phase ≠ .gap) (hq : q.phase ≠ .idle)
    (hnext : ∀ ctr (t : Sender), t.txLen = f.txLen → nextPos p ctr t pos = q) :
    Emits p (·.Arrived p f left pos) (held p f pos) (·.Arrived p f left q) := fun t ht =>
  ht.shows_held hwf hbusy fun ctr _ => ht.move hwf hbusy hgap (hnext ctr t (txLen_of_frame_eq ht.frame)) hq

/-! ## A frame, phase by phase -/

theorem emits_preamble (hwf : p.wf = true) :
    Emits p (·.Arrived p f left (rawPos .preamble 0)) ((List.range 16).flatMap fun i => held p f (rawPos .preamble i))
      (·.Arrived p f left (rawPos .sof 0)) :=
  Emits.range_succ (P := fun i t => t.Arrived p f left (rawPos .preamble i))
    (fun _ hi => emits_held hwf nofun nofun nofun fun _ _ _ => nextPos_preamble hi)
    (emits_held hwf nofun nofun nofun fun _ _ _ => nextPos_preamble_last)

theorem emits_sof (hwf : p.wf = true) :
    Emits p (·.Arrived p f left (rawPos .sof 0)) ((List.range 8).flatMap fun i => held p f (rawPos .sof i))
      (·.Arrived p f left (rawPos .data 0)) :=
  Emits.range_succ (P := fun i t => t.Arrived p f left (rawPos .sof i))
    (fun _ hi => emits_held hwf nofun nofun nofun fun _ _ _ => nextPos_sof hi)
    (emits_held hwf nofun nofun nofun fun _ _ _ => nextPos_sof_last)

/-- The two halves of a bit. -/
def heldBit (p : Params) (f : Sender) (k b : Nat) : List Level :=
  held p f ⟨.data, k, b, false⟩ ++ held p f ⟨.data, k, b, true⟩

/-- The eight bits of a frame byte, the most significant first. -/
def heldByte (p : Params) (f : Sender) (k : Nat) : List Level := (List.range 8).flatMap fun j => heldBit p f k (7 - j)

theorem emits_bit (hwf : p.wf = true) {k b : Nat} (hq : q.phase ≠ .idle)
    (hnext : ∀ ctr (t : Sender), t.txLen = f.txLen → nextPos p ctr t ⟨.data, k, b, true⟩ = q) :
    Emits p (·.Arrived p f left ⟨.data, k, b, false⟩) (heldBit p f k b) (·.Arrived p f left q) :=
  (emits_held (pos := ⟨.data, k, b, false⟩) (q := ⟨.data, k, b, true⟩) hwf nofun nofun nofun
    fun _ _ _ => nextPos_data_firstHalf).trans
    (emits_held hwf nofun nofun hq hnext)

theorem emits_byte (hwf : p.wf = true) {k : Nat} (hq : q.phase ≠ .idle)
    (hnext : ∀ ctr (t : Sender), t.txLen = f.txLen → nextPos p ctr t ⟨.data, k, 0, true⟩ = q) :
    Emits p (·.Arrived p f left (rawPos .data k)) (heldByte p f k) (·.Arrived p f left q) :=
  Emits.range_succ (P := fun j t => t.Arrived p f left ⟨.data, k, 7 - j, false⟩)
    (fun _ hj => emits_bit hwf nofun fun _ _ _ => nextPos_data_bit (Nat.sub_pos_of_lt hj))
    (emits_bit hwf hq hnext)

theorem emits_data (hwf : p.wf = true) :
    Emits p (·.Arrived p f left (rawPos .data 0)) ((List.range (8 + f.txLen.toNat + 1)).flatMap (heldByte p f))
      (·.Arrived p f left (rawPos .eof 0)) :=
  Emits.range_succ (P := fun k t => t.Arrived p f left (rawPos .data k))
    (fun _ hk => emits_byte hwf nofun fun _ _ hlen => nextPos_data_byte (hlen ▸ hk))
    (emits_byte hwf nofun fun _ _ hlen => hlen ▸ nextPos_data_last)

/-- The ticks of a whole frame. -/
def heldFrame (p : Params) (f : Sender) : List Level :=
  (List.range 16).flatMap (fun i => held p f (rawPos .preamble i))
    ++ (List.range 8).flatMap (fun i => held p f (rawPos .sof i))
    ++ (List.range (8 + f.txLen.toNat + 1)).flatMap (heldByte p f)
    ++ (List.range 8).flatMap (fun i => held p f (rawPos .eof i))

/-- A frame, with what its last raw bit leads to. -/
theorem emits_frame (hwf : p.wf = true) {Q : Sender → Prop}
    (hlast : Emits p (·.Arrived p f left (rawPos .eof 7)) (held p f (rawPos .eof 7)) Q) :
    Emits p (·.Arrived p f left (rawPos .preamble 0)) (heldFrame p f) Q := by
  have heof : Emits p (·.Arrived p f left (rawPos .eof 0))
      ((List.range 8).flatMap fun i => held p f (rawPos .eof i)) Q :=
    Emits.range_succ (P := fun i t => t.Arrived p f left (rawPos .eof i))
      (fun _ hi => emits_held hwf nofun nofun nofun fun _ _ _ => nextPos_eof hi) hlast
  exact (((emits_preamble hwf).trans (emits_sof hwf)).trans (emits_data hwf)).trans heof

/-! ## Emissions in turn -/

/-- The sender right after the last emission (R140). -/
def Sender.Finished (t : Sender) : Prop := t.txPhase = .idle ∧ t.txOut = false ∧ t.txDone = true

theorem emits_last (hwf : p.wf = true) :
    Emits p (·.Arrived p f 0 (rawPos .eof 7)) (held p f (rawPos .eof 7)) Sender.Finished := by
  intro t ht
  refine ht.shows_held hwf nofun fun ctr cmd => ?_
  have hphase : t.due.txPhase = .eof := congrArg TxPos.phase ht.pos_eq
  have hpos : t.due.pos = rawPos .eof 7 := ht.pos_eq
  rw [txTick_move (by rw [hphase]; nofun) (by rw [hphase]; nofun) rfl, hpos, rawPos,
    nextPos_eof_idle (t := t.due) ht.emitLeft, moveTo_idle]
  exact ⟨rfl, rfl, rfl⟩

theorem emits_gap (hwf : p.wf = true) (g : Nat) :
    Emits p (·.Arrived p f (left + 1) (rawPos .gap g)) (List.replicate p.tIdle false)
      (·.Arrived p f left (rawPos .preamble 0)) := by
  intro t ht
  refine ht.shows_held hwf nofun fun ctr cmd => ?_
  have hphase : t.due.txPhase = .gap := congrArg TxPos.phase ht.pos_eq
  have hleft : t.due.txEmitLeft - 1 = left := congrArg (· - 1) ht.emitLeft
  rw [← hleft]
  exact .of_eq_moveTo (txTick_ok hwf ht.ok) (txTick_gap_move hphase rfl) nofun ht.frame

theorem emits_lastBit_of_left (hwf : p.wf = true) :
    Emits p (·.Arrived p f (left + 1) (rawPos .eof 7)) (held p f (rawPos .eof 7))
      fun u => ∃ g, u.Arrived p f (left + 1) (rawPos .gap g) := by
  intro t ht
  have hleft : 0 < t.txEmitLeft := ht.emitLeft ▸ Nat.succ_pos left
  exact ht.shows_held hwf nofun fun ctr _ => ⟨gapIdx p ctr, ht.move hwf nofun nofun (nextPos_eof_gap hleft) nofun⟩

/-- All emissions of a start command (R142). -/
theorem emits_emissions (hwf : p.wf = true) :
    Emits p (·.Arrived p f left (rawPos .preamble 0)) (emissions (heldFrame p f) p.tIdle (left + 1))
      Sender.Finished := by
  induction left with
  | zero => exact emits_frame hwf (emits_last hwf)
  | succ left ih =>
    exact ((emits_frame hwf (emits_lastBit_of_left hwf)).trans fun t ⟨g, ht⟩ => emits_gap hwf g t ht).trans ih

end

/-! ## The levels of a frame -/

theorem spread_withDuration (d : Nat) (ls : List Level) :
    spread (withDuration d ls) = ls.flatMap (List.replicate d) := by
  rw [spread, withDuration, List.flatMap_map]

theorem spread_append (xs ys : List (Level × Nat)) : spread (xs ++ ys) = spread xs ++ spread ys :=
  List.flatMap_append

theorem bitsMsbFirst_eq_map (n v : Nat) :
    bitsMsbFirst n v = (List.range n).map fun j => v.testBit (n - 1 - j) := by
  induction n with
  | zero => rfl
  | succ n ih =>
    rw [bitsMsbFirst, ih, List.range_succ_eq_map, List.map_cons, List.map_map]
    congr 1
    exact List.map_congr_left fun j _ => by rw [Function.comp_apply, Nat.add_sub_cancel, Nat.sub_sub, Nat.add_comm]

section
variable {p : Params} {f : Sender}

/-- Raw bits, each for one bit period (R137). -/
theorem flatMap_held_eq_spread {d n v : Nat} {pos : Nat → TxPos} (hduration : ∀ i, posDuration p (pos i) = d)
    (hlevel : ∀ i, posLevel p 0 f (pos i) = v.testBit (n - 1 - i)) :
    ((List.range n).flatMap fun i => held p f (pos i)) = spread (withDuration d (bitsMsbFirst n v)) := by
  rw [spread_withDuration, bitsMsbFirst_eq_map, List.flatMap_map]
  simp only [held, hduration, hlevel]

theorem heldBit_eq (k b : Nat) :
    heldBit p f k b = (symbolLevels ((frameByte p 0 f k).getLsbD b)).flatMap (List.replicate p.tHalf) := by
  rw [heldBit, held, held, posLevel_data_firstHalf, posLevel_data_secondHalf]
  simp [symbolLevels, posDuration]

theorem heldByte_eq (k : Nat) :
    heldByte p f k = (byteLevels (frameByte p 0 f k)).flatMap (List.replicate p.tHalf) := by
  rw [byteLevels, bitsMsbFirst_eq_map, List.flatMap_map, List.flatMap_assoc, heldByte]
  simp only [heldBit_eq]
  rfl

theorem length_payload (p : Params) (t : Sender) : (t.payload p).length = t.txLen.toNat := by
  rw [Sender.payload, List.length_map, List.length_range]

/-- The sender reads its registers and its buffer as the frame of its payload (R136). -/
theorem map_frameByte (h : f.Ok p) :
    (List.range (8 + f.txLen.toNat + 1)).map (frameByte p 0 f) = frameBytes f.txType (f.payload p) := by
  rw [show 8 + f.txLen.toNat + 1 = 9 + f.txLen.toNat by omega, List.range_add, List.map_append, List.map_map,
    frameBytes, length_payload, ← h.crc, BitVec.ofNat_toNat, BitVec.setWidth_eq]
  congr 1
  refine List.map_congr_left fun a ha => ?_
  obtain ⟨x, hx⟩ := memFilled_iff.mp h.buf_filled a (List.mem_range.mp ha)
  rw [Function.comp_apply, Nat.add_comm, frameByte, txByte, hx]
  rfl

theorem flatMap_heldByte_eq (h : f.Ok p) :
    (List.range (8 + f.txLen.toNat + 1)).flatMap (heldByte p f)
      = spread (withDuration p.tHalf (bytesLevels (frameBytes f.txType (f.payload p)))) := by
  rw [spread_withDuration, bytesLevels, ← map_frameByte h, List.flatMap_map, List.flatMap_assoc, funext heldByte_eq]

/-- The ticks of a frame are the levels of R89, each for its duration. -/
theorem heldFrame_eq (h : f.Ok p) : heldFrame p f = spread (frameLevels p f.txType (f.payload p)) := by
  rw [heldFrame, frameLevels, spread_append, spread_append, spread_append, flatMap_heldByte_eq h,
    flatMap_held_eq_spread (pos := rawPos .preamble) (v := Config.preambleBits.toNat) (fun _ => rfl) fun _ => rfl,
    flatMap_held_eq_spread (pos := rawPos .sof) (v := Config.patSof.toNat) (fun _ => rfl) fun _ => rfl,
    flatMap_held_eq_spread (pos := rawPos .eof) (v := Config.patEof.toNat) (fun _ => rfl) fun _ => rfl]
  rfl

end

/-! ## How long it takes -/

theorem length_spread_withDuration (d : Nat) (ls : List Level) :
    (spread (withDuration d ls)).length = ls.length * d := by
  simp [spread_withDuration, List.length_flatMap]

/-- A frame of `n` payload bytes takes `104 + 8 n` bit periods (R141). -/
theorem length_spread_frameLevels {p : Params} (hwf : p.wf = true) (ty : BitVec 24) (payload : List Byte) :
    (spread (frameLevels p ty payload)).length = (104 + 8 * payload.length) * p.tBit := by
  rw [frameLevels, spread_append, spread_append, spread_append]
  simp only [List.length_append, length_spread_withDuration, length_bitsMsbFirst, length_bytesLevels, length_frameBytes,
    ← Params.two_mul_tHalf hwf, Config.preLevels, Config.patLen]
  ring

theorem length_emissions (wave : List Level) (g n : Nat) :
    (emissions wave g (n + 1)).length = (n + 1) * wave.length + n * g := by
  induction n with
  | zero => simp [emissions]
  | succ n ih =>
    rw [emissions, List.length_append, List.length_append, List.length_replicate, ih]
    ring

/-! ## The start -/

theorem hostCommand_txStart {p : Params} {t : Sender} (ty : BitVec 24) (h : t.txPhase = .idle) :
    hostCommand p (3#2 ++ ty) t = startEmission p ty t := by
  have hop : cmdOp (3#2 ++ ty) = 3 := BitVec.extractLsb'_append_eq_left
  have hty : cmdType (3#2 ++ ty) = ty := BitVec.extractLsb'_append_eq_right
  rw [hostCommand, ifIdle_of_idle h, hop, hty]
  rfl

/-- A start command puts the sender at the first raw bit of the preamble (R133). -/
theorem arrived_startEmission {p : Params} {t : Sender} (hwf : p.wf = true) (h : t.Ok p) (hidle : t.txPhase = .idle)
    (ty : BitVec 24) :
    (startEmission p ty t).Arrived p (startEmission p ty t).due (p.nEmit - 1) (rawPos .preamble 0) where
  ok := by
    have hclear : Sender.Ok p { t with txDone := false } := { h with done := nofun }
    have hstart := hostCommand_ok (cmd := 3#2 ++ ty) hwf hclear rfl
    rw [hostCommand_txStart (t := { t with txDone := false }) ty hidle] at hstart
    exact hstart.due
  frame := rfl
  emitLeft := rfl
  pos_eq := rfl
  timer := rfl

/-- Settles O28: the emission started shows frame after frame, and the inputs last exactly as long. -/
theorem emissionWaveform : Obligations.EmissionWaveform := by
  intro s t ty inputs hok hidle hexec hrst hlen
  rw [exec_txStart, ifIdle_of_idle hidle] at hexec
  cases hexec
  have hstart := arrived_startEmission hok.params hok.tx hidle ty
  have hshows := emits_emissions hok.params _ hstart
  have hnEmit : s.params.nEmit - 1 + 1 = s.params.nEmit := by
    have := Params.wf_facts hok.params
    omega
  rw [heldFrame_eq hstart.ok, hnEmit] at hshows
  refine Sender.Shows.trace (s := s.setTx (startEmission s.params ty s.tx)) hshows hrst (hlen.trans ?_)
  rw [← hnEmit, length_emissions, length_spread_frameLevels hok.params, hnEmit, length_payload]
  rfl

end Sys2Proof.Machine
end

section
/-! PROOFS. The preamble phase (43_sync_detector.md R150, R151): the branches of `PRE.STEP`, and the count of flips over
invocations none of which times out. -/

namespace Sys2Proof.Machine

/-! ## One invocation -/

section
variable {p : Params} {now smp : Nat} {r : Receiver}

theorem preHandler_timeout (htime : p.toPre < elapsed p now r.ses.phaseStart) :
    preHandler p now smp r = ({ r with ses := { r.ses with transCount := 0, phaseStart := now } }, .preTimeout) :=
  if_pos (expired_iff.mpr htime)

theorem preHandler_first (htime : elapsed p now r.ses.phaseStart ≤ p.toPre) (hvalid : r.ses.lastLevelValid = false) :
    preHandler p now smp r =
      ({ r with ses := { r.ses with lastLevel := r.level smp, lastLevelValid := true } }, .none) := by
  simp [preHandler, not_expired_iff.mpr htime, hvalid]

end

/-- Settles O31: each branch of R150 is the handler's on its condition. -/
theorem preStepCountsFlips : Obligations.PreStepCountsFlips := fun s =>
  ⟨fun htime => by rw [exec_preStep, preHandler_timeout htime]; rfl,
    fun htime hvalid => by rw [exec_preStep, preHandler_first htime hvalid]; rfl,
    fun htime hvalid hlv => by rw [exec_preStep, preHandler_same htime hvalid hlv]; rfl,
    fun htime hvalid hlv hcount => by rw [exec_preStep, preHandler_flip htime hvalid hlv hcount]; rfl,
    fun htime hvalid hlv hcount => by rw [exec_preStep, preHandler_lock htime hvalid hlv hcount]; rfl⟩

/-! ## The count of flips -/

/-- The level from which a sample of level `lv` flips or not: the recorded one, or that of the sample itself where the
session has observed none yet (R31). -/
def Session.levelBefore (ses : Session) (lv : Level) : Level := if ses.lastLevelValid then ses.lastLevel else lv

theorem Session.levelBefore_of_valid {ses : Session} (h : ses.lastLevelValid = true) (lv : Level) :
    ses.levelBefore lv = ses.lastLevel := if_pos h

theorem flips_cons (l x : Level) (xs : List Level) : flips l (x :: xs) = flips l [x] + flips x xs := rfl

/-- The flips counted once a sample of level `lv` has been heard (R150). -/
def Session.countWith (ses : Session) (lv : Level) : Nat := ses.transCount + flips (ses.levelBefore lv) [lv]

theorem Session.countWith_of_not_valid {ses : Session} (h : ses.lastLevelValid = false) (lv : Level) :
    ses.countWith lv = ses.transCount := by
  simp [Session.countWith, Session.levelBefore, flips, h]

theorem Session.countWith_of_eq {ses : Session} {lv : Level} (h : ses.lastLevelValid = true)
    (hlv : lv = ses.lastLevel) : ses.countWith lv = ses.transCount := by
  simp [Session.countWith, Session.levelBefore_of_valid h, flips, hlv]

theorem Session.countWith_of_ne {ses : Session} {lv : Level} (h : ses.lastLevelValid = true)
    (hlv : lv ≠ ses.lastLevel) : ses.countWith lv = ses.transCount + 1 := by
  simp [Session.countWith, Session.levelBefore_of_valid h, flips, hlv]

theorem Receiver.level_of_cal_eq {r r' : Receiver} (h : r'.cal = r.cal) : r'.level = r.level :=
  congrArg (fun c : Calibration => slice c.threshold) h

/-- What a sample of level `lv` that neither locks nor finds the timer expired makes of a receiver in PRE. -/
structure Receiver.Counted (r : Receiver) (lv : Level) (r' : Receiver) : Prop where
  state : r'.rxState = .pre
  cal : r'.cal = r.cal
  start : r'.ses.phaseStart = r.ses.phaseStart
  valid : r'.ses.lastLevelValid = true
  level : r'.ses.lastLevel = lv
  count : r'.ses.transCount = r.ses.countWith lv

section
variable {p : Params} {ctr now smp : Nat} {r : Receiver}

theorem handle_of_pre (hst : r.rxState = .pre) : handle p ctr now smp r = preHandler p now smp r := by
  rw [handle, hst]

/-- A sample in time either counts its flip, if it is one, and stays below eight, or is the eighth flip and locks
(R150). -/
theorem invocation_of_pre (hst : r.rxState = .pre) (htime : elapsed p now r.ses.phaseStart ≤ p.toPre)
    (hn : r.ses.transCount < 8) :
    r.Counted (r.level smp) (raiseEvent (handle p ctr now smp r)) ∧ r.ses.countWith (r.level smp) < 8
      ∨ (raiseEvent (handle p ctr now smp r)).rxState = .sof ∧ r.ses.countWith (r.level smp) = 8 := by
  rw [handle_of_pre hst]
  cases hvalid : r.ses.lastLevelValid
  case false =>
    have hcount := Session.countWith_of_not_valid hvalid (r.level smp)
    rw [preHandler_first htime hvalid]
    exact .inl ⟨⟨hst, rfl, rfl, rfl, rfl, hcount.symm⟩, hcount.trans_lt hn⟩
  case true =>
    by_cases hlv : r.level smp = r.ses.lastLevel
    · have hcount := Session.countWith_of_eq hvalid hlv
      rw [preHandler_same htime hvalid hlv]
      exact .inl ⟨⟨hst, rfl, rfl, hvalid, hlv.symm, hcount.symm⟩, hcount.trans_lt hn⟩
    · have hcount := Session.countWith_of_ne hvalid hlv
      obtain hlt | hge := Nat.lt_or_ge (r.ses.transCount + 1) 8
      · rw [preHandler_flip htime hvalid hlv hlt]
        exact .inl ⟨⟨hst, rfl, rfl, hvalid, rfl, hcount.symm⟩, hcount.trans_lt hlt⟩
      · rw [preHandler_lock htime hvalid hlv hge]
        exact .inr ⟨rfl, hcount.trans (Nat.le_antisymm hn hge)⟩

/-- A sample in time locks exactly if it brings the eighth flip (R151 item 1). -/
theorem invocation_locks_iff (hst : r.rxState = .pre) (htime : elapsed p now r.ses.phaseStart ≤ p.toPre)
    (hn : r.ses.transCount < 8) :
    (raiseEvent (handle p ctr now smp r)).rxState = .sof ↔ r.ses.countWith (r.level smp) = 8 := by
  obtain ⟨hcounted, hlt⟩ | ⟨hsof, height⟩ := invocation_of_pre (ctr := ctr) (smp := smp) hst htime hn
  · rw [hcounted.state]
    exact iff_of_false nofun hlt.ne
  · exact iff_of_true hsof height

/-- The flips of a sample and of those after it, counted in one go or one after the other. -/
theorem Receiver.Counted.transCount_add_flips {lv : Level} {r' : Receiver} (h : r.Counted lv r') (ls : List Level)
    (next : Level) :
    r'.ses.transCount + flips (r'.ses.levelBefore next) ls
      = r.ses.transCount + flips (r.ses.levelBefore lv) (lv :: ls) := by
  rw [h.count, Session.countWith, Session.levelBefore_of_valid h.valid, h.level, flips_cons _ lv ls, Nat.add_assoc]

end

/-- The invocations before the eighth flip, and one more, by induction on the samples: each of them is counted, and
leaves a receiver that goes on from its level. -/
theorem rxRun_of_pre {p : Params} {ctr smp now : Nat} {level : Nat → Level} (xs : List (Nat × Nat)) {r : Receiver}
    (hlevel : r.level = level) (hst : r.rxState = .pre)
    (htime : ∀ x ∈ xs ++ [(smp, now)], elapsed p x.2 r.ses.phaseStart ≤ p.toPre) :
    let levels := xs.map fun x => level x.1
    let first := r.ses.levelBefore (levels.headD (level smp))
    r.ses.transCount + flips first levels < 8 →
    (rxRun p ctr xs r).rxState = .pre
      ∧ (rxRun p ctr xs r).ses.transCount = r.ses.transCount + flips first levels
      ∧ ((rxRun p ctr (xs ++ [(smp, now)]) r).rxState = .sof ↔
        r.ses.transCount + flips first (levels ++ [level smp]) = 8) := by
  induction xs generalizing r with
  | nil =>
    subst hlevel
    exact fun hn => ⟨hst, rfl, invocation_locks_iff hst (htime _ (List.mem_singleton_self _)) hn⟩
  | cons x xs ih =>
    intro levels first hlt
    obtain ⟨hhead, htail⟩ := List.forall_mem_cons.mp htime
    have hsplit : flips first levels = flips first [level x.1] + flips (level x.1) (xs.map fun x => level x.1) := rfl
    obtain ⟨hcounted, -⟩ | ⟨-, height⟩ := invocation_of_pre (ctr := ctr) (smp := x.1) hst hhead (by omega)
    · have hcount := hcounted.transCount_add_flips
      rw [hlevel] at hcount
      have hrest := ih ((Receiver.level_of_cal_eq hcounted.cal).trans hlevel) hcounted.state
        (by rw [hcounted.start]; exact htail)
      dsimp only at hrest
      rw [hcount, hcount] at hrest
      exact hrest hlt
    · rw [hlevel] at height
      exact absurd (show r.ses.transCount + flips first [level x.1] = 8 from height) (by omega)

/-- Settles O32: `levelBefore` is the level from which the statement counts. -/
theorem preambleNeedsEightFlips : Obligations.PreambleNeedsEightFlips := fun _ _ _ xs _ _ hst htime =>
  rxRun_of_pre xs rfl hst htime

end Sys2Proof.Machine
end

section
/-! PROOFS. The start-frame search (43_sync_detector.md R154 to R156): the branches of `SOF.STEP`, and a window as a
16-bit register (10_state.md R33), in which keeping the last `n` levels is a remainder modulo `2^n`. -/

namespace Sys2Proof.Machine

/-! ## One invocation -/

theorem sofHandler_timeout {p : Params} {now smp : Nat} {r : Receiver}
    (htime : p.toSof < elapsed p now r.ses.phaseStart) :
    sofHandler p now smp r = ({ r with ses := { r.ses with win := [], phaseStart := now } }, .sofTimeout) :=
  if_pos (expired_iff.mpr htime)

/-- `PAT_SOF` is found when the last eight levels are 11110000 (R154, R155). -/
theorem search_patSof_isMatch_iff {win : List Level} {lv : Level} :
    search win lv Config.patSof = .isMatch ↔
      8 ≤ (win ++ [lv]).length ∧ lastN (win ++ [lv]) 8 = [true, true, true, true, false, false, false, false] := by
  rw [search_isMatch_iff, List.length_append]
  rfl

/-- Settles O33: each branch of R154 is the handler's on its condition. -/
theorem sofStepSearchesTheDelimiter : Obligations.SofStepSearchesTheDelimiter := by
  intro s ses w e found
  refine ⟨fun htime => ?timeout, fun htime hfound => ?isMatch, fun htime hfound => ?window⟩
  case timeout => rw [exec_sofStep, sofHandler_timeout htime]; rfl
  case isMatch => rw [exec_sofStep, sofHandler_isMatch htime (search_patSof_isMatch_iff.mpr hfound)]; rfl
  case window =>
    have hmiss : search ses.win (s.rx.level s.sample) Config.patSof ≠ .isMatch :=
      fun h => hfound (search_patSof_isMatch_iff.mp h)
    rw [exec_sofStep, sofHandler_window htime (search_eq_window hmiss)]
    rfl

/-! ## The whole history -/

/-- Settles O34: the answer of a search is its match, which needs the last eight levels, or the last 16. -/
theorem searchSeesOnlyTheSuffix : Obligations.SearchSeesOnlyTheSuffix := by
  intro history lv pat
  have hmatch : search (lastN history 16) lv pat = .isMatch ↔
      8 ≤ (history ++ [lv]).length ∧ lastN (history ++ [lv]) 8 = bitsMsbFirst 8 pat.toNat := by
    rw [List.length_append, ← List.append_nil (lastN history 16), search_lastN_append_isMatch_iff, List.append_nil]
    exact search_isMatch_iff
  split_ifs with hfound
  · exact hmatch.mpr hfound
  · rw [search_eq_window (mt hmatch.mp hfound), lastN_append_singleton _ _ (le_refl 16)]

/-! ## The window as a register -/

/-- A level is shifted in below the others (R155). -/
theorem winBits_concat (w : List Level) (lv : Level) : winBits (w ++ [lv]) = 2 * winBits w + lv.toNat := by
  rw [winBits, List.foldl_append]
  rfl

theorem winBits_append (xs ys : List Level) : winBits (xs ++ ys) = winBits xs * 2 ^ ys.length + winBits ys := by
  induction ys using List.reverseRecOn with
  | nil => simp [winBits]
  | append_singleton ys lv ih =>
    rw [← List.append_assoc, winBits_concat, winBits_concat, ih, List.length_append, List.length_singleton, pow_succ]
    ring

theorem winBits_lt (w : List Level) : winBits w < 2 ^ w.length := by
  induction w using List.reverseRecOn with
  | nil => decide
  | append_singleton w lv ih =>
    have hlv := Bool.toNat_lt lv
    rw [winBits_concat, List.length_append, List.length_singleton, pow_succ]
    omega

/-- The last `n` levels are the low `n` bits. -/
theorem winBits_lastN (w : List Level) (n : Nat) : winBits (lastN w n) = winBits w % 2 ^ n := by
  obtain hlen | hlen := Nat.le_total w.length n
  · rw [lastN_of_length_le hlen, Nat.mod_eq_of_lt ((winBits_lt w).trans_le (Nat.pow_le_pow_right (by decide) hlen))]
  · have hlast : (lastN w n).length = n := by rw [length_lastN, Nat.min_eq_right hlen]
    have hlt := winBits_lt (lastN w n)
    calc winBits (lastN w n) = (winBits (w.take (w.length - n)) * 2 ^ n + winBits (lastN w n)) % 2 ^ n := by
          rw [Nat.mul_add_mod_self_right, Nat.mod_eq_of_lt (by rwa [hlast] at hlt)]
      _ = winBits (w.take (w.length - n) ++ lastN w n) % 2 ^ n := by rw [winBits_append, hlast]
      _ = winBits w % 2 ^ n := by rw [lastN, List.take_append_drop]

theorem winBits_bitsMsbFirst (n v : Nat) : winBits (bitsMsbFirst n v) = v % 2 ^ n := by
  induction n generalizing v with
  | zero => exact (Nat.mod_one v).symm
  | succ n ih =>
    rw [bitsMsbFirst_succ, winBits_concat, ih, Nat.toNat_testBit, pow_zero, Nat.div_one, pow_succ', Nat.mod_mul,
      Nat.add_comm]

/-- A window is read back from its register and its length. -/
theorem bitsMsbFirst_winBits (w : List Level) : bitsMsbFirst w.length (winBits w) = w := by
  induction w using List.reverseRecOn with
  | nil => rfl
  | append_singleton w lv ih =>
    have hhigh : (2 * winBits w + lv.toNat) / 2 = winBits w := by
      have := Bool.toNat_lt lv
      omega
    have hlow : (2 * winBits w + lv.toNat).testBit 0 = lv := by cases lv <;> simp
    rw [winBits_concat, List.length_append, List.length_singleton, bitsMsbFirst_succ, hhigh, hlow, ih]

/-- Levels spell a byte exactly if they are eight and its number is their register. -/
theorem eq_bitsMsbFirst_iff {w : List Level} (hlen : w.length = 8) (pat : Byte) :
    w = bitsMsbFirst 8 pat.toNat ↔ winBits w = pat.toNat := by
  constructor
  · rintro rfl
    exact (winBits_bitsMsbFirst 8 pat.toNat).trans (Nat.mod_eq_of_lt pat.isLt)
  · intro h
    rw [← h, ← hlen, bitsMsbFirst_winBits]

/-- Settles O35: the register form of the match and of the window that is kept. -/
theorem shiftRegisterRefinesTheWindow : Obligations.ShiftRegisterRefinesTheWindow := by
  intro win lv pat _
  refine ⟨?isMatch, fun w hw => ?window⟩
  case isMatch =>
    rw [search_isMatch_iff, Nat.mod_mod_of_dvd _ (by decide : 256 ∣ 2 ^ 16), ← winBits_concat]
    have hlen : 8 ≤ win.length + 1 ↔ 8 ≤ min (win.length + 1) 16 := by omega
    rw [← hlen]
    refine and_congr_right fun h8 => ?_
    have hlast : (lastN (win ++ [lv]) 8).length = 8 := by
      rw [length_lastN, List.length_append, List.length_singleton, Nat.min_eq_right h8]
    rw [eq_bitsMsbFirst_iff hlast, winBits_lastN]
    rfl
  case window =>
    rw [search_window hw, winBits_lastN, winBits_concat, length_lastN, List.length_append, List.length_singleton]
    exact ⟨rfl, rfl⟩

end Sys2Proof.Machine
end

section
/-! PROOFS. Data reception (44_manchester_decoder.md R160 to R169): the branches of `DEC.STEP`, and a run of the handler
from a start-frame match to the end of the frame's bytes, at the decoder's cadence. -/

namespace Sys2Proof.Machine

/-! ## One invocation -/

section
variable {p : Params} {ctr now smp : Nat} {r : Receiver}

theorem handle_of_data (hst : r.rxState = .data) : handle p ctr now smp r = decHandler p now smp r := by
  rw [handle, hst]

theorem decHandler_global (hglobal : p.toGlobal < elapsed p now r.ses.lastByteTime) :
    decHandler p now smp r = (restart now r, .dataGlobal) :=
  if_pos (expired_iff.mpr hglobal)

theorem decHandler_inactivity (hglobal : elapsed p now r.ses.lastByteTime ≤ p.toGlobal)
    (hinact : p.toInact < elapsed p now r.ses.lastValidTime) :
    decHandler p now smp r = (enterEofs p now r.ses.invRun r, .dataInactivity) := by
  simp [decHandler, not_expired_iff.mpr hglobal, expired_iff.mpr hinact]

/-- The second half of a valid symbol (R164). -/
theorem decHandler_valid (hglobal : elapsed p now r.ses.lastByteTime ≤ p.toGlobal)
    (hinact : elapsed p now r.ses.lastValidTime ≤ p.toInact) (hhalf : r.ses.pairHalf = true)
    (hlv : r.ses.firstLv ≠ r.level smp) : decHandler p now smp r = validSymbol p now r.ses.firstLv r :=
  (decHandler_secondHalf hglobal hinact hhalf).trans (if_pos hlv)

/-- The second half of an invalid symbol (R165). -/
theorem decHandler_invalid (hglobal : elapsed p now r.ses.lastByteTime ≤ p.toGlobal)
    (hinact : elapsed p now r.ses.lastValidTime ≤ p.toInact) (hhalf : r.ses.pairHalf = true)
    (hlv : r.ses.firstLv = r.level smp) : decHandler p now smp r = invalidSymbol p now r.ses.firstLv r := by
  rw [decHandler_secondHalf hglobal hinact hhalf, if_neg (not_not_intro hlv), ← hlv]

end

/-- A bit that does not complete a byte (R164), whatever the range of `bitCnt`. -/
theorem validSymbol_of_ne {p : Params} {now : Nat} {r : Receiver} {b : Level} (h : r.ses.bitCnt + 1 ≠ 8) :
    validSymbol p now b r =
      ({ r with ses := { r.ses with
          pairHalf := false, invCount := 0, invRun := [], lastValidTime := now,
          bitAcc := shiftIn r.ses.bitAcc b, bitCnt := r.ses.bitCnt + 1 } }, .none) :=
  if_neg h

/-- Settles O36: the two timeouts are asked for in this order, before the sample is looked at. -/
theorem decStepTimesOut : Obligations.DecStepTimesOut := fun s =>
  ⟨fun hglobal => by rw [exec_decStep, decHandler_global hglobal]; rfl,
    fun hglobal hinact => by rw [exec_decStep, decHandler_inactivity hglobal hinact]; rfl⟩

/-- Settles O37: the level of the sample is `slice` of it. -/
theorem decStepTakesTheFirstHalf : Obligations.DecStepTakesTheFirstHalf := fun s hglobal hinact hhalf => by
  rw [exec_decStep, decHandler_firstHalf hglobal hinact hhalf]
  rfl

/-- Settles O38: a bit that is not the eighth, a byte that is stored, and a byte that is dropped. -/
theorem decStepTakesAValidSymbol : Obligations.DecStepTakesAValidSymbol := by
  intro s hglobal hinact hhalf hlv ses acc
  have hacc : shiftIn s.rx.ses.bitAcc s.rx.ses.firstLv = acc := shiftIn_eq_ofNat _ _
  rw [exec_decStep, decHandler_valid hglobal hinact hhalf hlv]
  refine ⟨fun hbit => ?bit, fun hbit hroom => ?stored, fun hbit hfull => ?dropped⟩
  case bit =>
    rw [validSymbol_of_ne hbit, hacc]
    rfl
  case stored =>
    rw [validSymbol_of_room hbit hroom, hacc]
    exact ⟨_, rfl, memRead_memWrite_same hroom, fun a ha => memRead_memWrite_other ha.symm⟩
  case dropped =>
    rw [validSymbol_of_full hbit hfull]
    rfl

/-- Settles O39: the run of invalid levels grows, and at the limit it is the window with which the search begins. -/
theorem decStepTakesAnInvalidSymbol : Obligations.DecStepTakesAnInvalidSymbol := by
  intro s hglobal hinact hhalf hlv run
  rw [exec_decStep, decHandler_invalid hglobal hinact hhalf hlv]
  refine ⟨fun hlimit => ?counted, fun hlimit => ?limit⟩
  case counted =>
    rw [invalidSymbol_of_lt hlimit]
    rfl
  case limit =>
    rw [invalidSymbol_of_le hlimit]
    rfl

/-! ## Runs at the decoder's cadence -/

theorem timed_append (p : Params) (d t : Nat) (xs ys : List Nat) :
    timed p d t (xs ++ ys) = timed p d t xs ++ timed p d (t + xs.length * d) ys := by
  induction xs generalizing t with
  | nil => simp [timed]
  | cons x xs ih =>
    rw [List.cons_append, timed, timed, ih, List.cons_append, List.length_cons, Nat.succ_mul, Nat.add_right_comm,
      Nat.add_assoc t]

/-- No run leads back into the calibration, or changes what the calibration found (R126). -/
theorem rxRun_calibrated (p : Params) (ctr : Nat) (xs : List (Nat × Nat)) {r : Receiver} (hst : r.rxState ≠ .cal) :
    (rxRun p ctr xs r).cal = r.cal ∧ (rxRun p ctr xs r).rxState ≠ .cal := by
  induction xs generalizing r with
  | nil => exact ⟨rfl, hst⟩
  | cons x xs ih =>
    obtain ⟨hcal, hstate⟩ := ih (r := raiseEvent (handle p ctr x.2 x.1 r)) (handle_rxState_ne_cal hst)
    exact ⟨hcal.trans (handle_cal hst), hstate⟩

/-- Samples that `r` reads as the levels `ls`, the first at time `t` and then one every `T_HALF` ticks, lead to a time
and a receiver of which `Q` holds (R203, R207). -/
def Receiver.Leads (p : Params) (ctr t : Nat) (ls : List Level) (r : Receiver) (Q : Nat → Receiver → Prop) : Prop :=
  ∀ samples : List Nat, samples.map r.level = ls →
    Q (t + ls.length * p.tHalf) (rxRun p ctr (timed p p.tHalf t samples) r)

theorem Receiver.Leads.append {p : Params} {ctr t : Nat} {xs ys : List Level} {r : Receiver}
    {Q R : Nat → Receiver → Prop} (h : r.Leads p ctr t xs Q) (hst : r.rxState ≠ .cal)
    (hrest : ∀ t' u, Q t' u → u.Leads p ctr t' ys R) : r.Leads p ctr t (xs ++ ys) R := by
  intro samples hsamples
  obtain ⟨xs', ys', rfl, hxs, hys⟩ := List.map_eq_append_iff.mp hsamples
  have hlen : xs'.length = xs.length := by rw [← hxs, List.length_map]
  have hcal := (rxRun_calibrated p ctr (timed p p.tHalf t xs') hst).1
  rw [timed_append, rxRun_append, hlen, List.length_append, Nat.add_mul, ← Nat.add_assoc]
  exact hrest _ _ (h xs' hxs) ys' (by rw [Receiver.level_of_cal_eq hcal, hys])

/-! ## One symbol of a run -/

/-- A decoder between two symbols at time `t`, after the bytes `bytes`, then the valid bits `bits`, then invalid symbols
of the levels `run` (R35 to R39); its two timers have run for `kB` and `kV` ticks. -/
structure Receiver.Received (p : Params) (bytes : List Byte) (bits run : List Level) (kB kV t : Nat) (r : Receiver) :
    Prop where
  state : r.rxState = .data
  pairHalf : r.ses.pairHalf = false
  sinceByte : elapsed p (t % 2 ^ p.wT) r.ses.lastByteTime = kB
  sinceValid : elapsed p (t % 2 ^ p.wT) r.ses.lastValidTime = kV
  bitCnt : r.ses.bitCnt = bits.length
  bitAcc : r.ses.bitAcc = bits.foldl shiftIn 0
  rxCount : r.ses.rxCount = bytes.length
  rxOvf : r.ses.rxOvf = false
  invRun : r.ses.invRun = run
  invCount : r.ses.invCount = run.length
  stored : ∀ k < bytes.length, memRead p.rxDepth r.buf k = bytes[k]?

/-- The end-frame search just begun after the bytes `bytes` and then the bits `bits`, by the symbol that made the
invalid ones `run` (R167). -/
structure Receiver.Searching (p : Params) (bytes : List Byte) (bits run : List Level) (r : Receiver) : Prop where
  state : r.rxState = .eofs
  win : r.ses.win = if p.efdSeed then lastN run 16 else []
  rxCount : r.ses.rxCount = bytes.length
  bitCnt : r.ses.bitCnt = bits.length
  rxOvf : r.ses.rxOvf = false
  evCode : r.evCode = .invalidLimit
  stored : ∀ k < bytes.length, memRead p.rxDepth r.buf k = bytes[k]?

/-- A timer goes on counting through a run. -/
theorem elapsed_add_of_lt {p : Params} {t t0 k d : Nat} (h : elapsed p (t % 2 ^ p.wT) t0 = k) (hlt : k + d < 2 ^ p.wT) :
    elapsed p ((t + d) % 2 ^ p.wT) t0 = k + d := by
  rw [← h] at hlt ⊢
  rw [← elapsed_advance hlt, Nat.mod_add_mod]

/-- A timer that one symbol does not stop. -/
theorem elapsed_add_symbol {p : Params} {t t0 k timeout : Nat} (hwf : p.wf = true)
    (hfits : timeout + p.longestPeriod < 2 ^ p.wT) (h : elapsed p (t % 2 ^ p.wT) t0 = k)
    (hk : k + p.tHalf ≤ timeout) : elapsed p ((t + p.tHalf + p.tHalf) % 2 ^ p.wT) t0 = k + p.tBit := by
  have htwo := Params.two_mul_tHalf hwf
  have hbit : p.tBit ≤ p.longestPeriod := period_le .sof hwf
  rw [Nat.add_assoc, ← Nat.two_mul, htwo]
  exact elapsed_add_of_lt h (by omega)

/-- A timer started at the second half of a symbol. -/
theorem elapsed_secondHalf {p : Params} (hwf : p.wf = true) (t : Nat) :
    elapsed p ((t + p.tHalf + p.tHalf) % 2 ^ p.wT) ((t + p.tHalf) % 2 ^ p.wT) = p.tHalf := by
  have hp := Params.wf_facts hwf
  have hhalf : p.tHalf ≤ p.longestPeriod := period_le .data hwf
  exact elapsed_add (by omega)

/-- A start-frame match is followed by no byte yet (R154). -/
theorem received_startFrame {p : Params} {now t k : Nat} (r : Receiver) (h : elapsed p (t % 2 ^ p.wT) now = k) :
    (startFrame now r).Received p [] [] [] k k t :=
  ⟨rfl, rfl, h, h, rfl, rfl, rfl, rfl, rfl, rfl, nofun⟩

/-- One more byte at the end of those stored. -/
theorem memRead_memWrite_append {depth k : Nat} {m : Memory} {bytes : List Byte} (b : Byte)
    (hroom : bytes.length < depth) (hm : ∀ k < bytes.length, memRead depth m k = bytes[k]?)
    (hk : k < (bytes ++ [b]).length) :
    memRead depth (memWrite depth m bytes.length b) k = (bytes ++ [b])[k]? := by
  rw [List.length_append, List.length_singleton] at hk
  obtain hlt | rfl := Nat.lt_succ_iff_lt_or_eq.mp hk
  · rw [memRead_memWrite_other hlt.ne', hm k hlt, List.getElem?_append_left hlt]
  · rw [memRead_memWrite_same hroom, List.getElem?_concat_length]

namespace Receiver.Received

variable {p : Params} {ctr kB kV t : Nat} {bytes : List Byte} {bits run : List Level} {r : Receiver}

section
variable (h : r.Received p bytes bits run kB kV t) (hwf : p.wf = true) (hglobal : kB + p.tHalf ≤ p.toGlobal)
  (hinact : kV + p.tHalf ≤ p.toInact)
include h hwf hglobal hinact

/-- The two halves of a symbol (R163 to R165). -/
theorem leads_pair (a b : Level) {Q : Nat → Receiver → Prop}
    (hQ : Q (t + p.tHalf + p.tHalf)
      (raiseEvent
        (if a ≠ b then validSymbol p ((t + p.tHalf) % 2 ^ p.wT) a (r.halfHeard a)
         else invalidSymbol p ((t + p.tHalf) % 2 ^ p.wT) b (r.halfHeard a)))) :
    r.Leads p ctr t [a, b] Q := by
  intro samples hsamples
  obtain ⟨x, ys, rfl, rfl, hys⟩ := List.map_eq_cons_iff.mp hsamples
  obtain ⟨y, zs, rfl, rfl, hzs⟩ := List.map_eq_cons_iff.mp hys
  obtain rfl := List.map_eq_nil_iff.mp hzs
  have hp := Params.wf_facts hwf
  have hfirst : raiseEvent (handle p ctr (t % 2 ^ p.wT) x r) = r.halfHeard (r.level x) := by
    rw [handle_of_data h.state,
      decHandler_firstHalf (by rw [h.sinceByte]; omega) (by rw [h.sinceValid]; omega) h.pairHalf]
    rfl
  have hbyte := (elapsed_add_of_lt (d := p.tHalf) h.sinceByte (by omega)).trans_le hglobal
  have hvalid := (elapsed_add_of_lt (d := p.tHalf) h.sinceValid (by omega)).trans_le hinact
  rw [timed, timed, timed, rxRun, rxRun, rxRun, hfirst, handle_of_data (r := r.halfHeard _) h.state,
    decHandler_secondHalf (r := r.halfHeard _) hbyte hvalid rfl, List.length_cons, List.length_singleton, Nat.succ_mul,
    Nat.one_mul, ← Nat.add_assoc]
  exact hQ

/-- A bit that is not the eighth of its byte (R164). -/
theorem leads_bit (b : Level) (hbit : bits.length + 1 < 8) :
    r.Leads p ctr t (symbolLevels b) (Received p bytes (bits ++ [b]) [] (kB + p.tBit) p.tHalf) := by
  have hp := Params.wf_facts hwf
  refine h.leads_pair hwf hglobal hinact b (!b) ?_
  rw [if_pos (by simp), validSymbol_of_lt (r := r.halfHeard b) (h.bitCnt ▸ hbit)]
  exact {
    state := h.state
    pairHalf := rfl
    sinceByte := elapsed_add_symbol hwf (by omega) h.sinceByte hglobal
    sinceValid := elapsed_secondHalf hwf t
    bitCnt := by simp [raiseEvent, Receiver.halfHeard, h.bitCnt]
    bitAcc := by simp [raiseEvent, Receiver.halfHeard, h.bitAcc]
    rxCount := h.rxCount
    rxOvf := h.rxOvf
    invRun := rfl
    invCount := rfl
    stored := h.stored }

/-- The eighth bit completes its byte, which is stored after the others (R166). -/
theorem leads_eighthBit (b : Level) (hbit : bits.length + 1 = 8) (hroom : bytes.length < p.rxDepth) :
    r.Leads p ctr t (symbolLevels b)
      (Received p (bytes ++ [shiftIn (bits.foldl shiftIn 0) b]) [] [] p.tHalf p.tHalf) := by
  refine h.leads_pair hwf hglobal hinact b (!b) ?_
  rw [if_pos (by simp), validSymbol_of_room (r := r.halfHeard b) (h.bitCnt ▸ hbit) (h.rxCount ▸ hroom)]
  exact {
    state := h.state
    pairHalf := rfl
    sinceByte := elapsed_secondHalf hwf t
    sinceValid := elapsed_secondHalf hwf t
    bitCnt := rfl
    bitAcc := rfl
    rxCount := by simp [raiseEvent, Receiver.halfHeard, h.rxCount]
    rxOvf := h.rxOvf
    invRun := rfl
    invCount := rfl
    stored := fun k hk => by
      rw [← h.bitAcc, ← memRead_memWrite_append _ hroom h.stored (by simpa using hk), ← h.rxCount]
      rfl }

/-- An invalid symbol below the limit (R165). -/
theorem leads_invalid (b : Level) (hlimit : run.length + 1 < p.invalidLimit) :
    r.Leads p ctr t [b, b] (Received p bytes bits (run ++ [b]) (kB + p.tBit) (kV + p.tBit)) := by
  have hp := Params.wf_facts hwf
  refine h.leads_pair hwf hglobal hinact b b ?_
  rw [if_neg (by simp), invalidSymbol_of_lt (r := r.halfHeard b) (h.invCount ▸ hlimit)]
  exact {
    state := h.state
    pairHalf := rfl
    sinceByte := elapsed_add_symbol hwf (by omega) h.sinceByte hglobal
    sinceValid := elapsed_add_symbol hwf (by omega) h.sinceValid hinact
    bitCnt := h.bitCnt
    bitAcc := h.bitAcc
    rxCount := h.rxCount
    rxOvf := h.rxOvf
    invRun := by simp [raiseEvent, Receiver.halfHeard, h.invRun]
    invCount := by simp [raiseEvent, Receiver.halfHeard, h.invCount]
    stored := h.stored }

/-- The invalid symbol that reaches the limit (R165, R167). -/
theorem leads_lastInvalid (b : Level) (hlimit : p.invalidLimit ≤ run.length + 1) :
    r.Leads p ctr t [b, b] (fun _ => Searching p bytes bits (run ++ [b])) := by
  refine h.leads_pair hwf hglobal hinact b b ?_
  rw [if_neg (by simp), invalidSymbol_of_le (r := r.halfHeard b) (h.invCount ▸ hlimit)]
  exact {
    state := rfl
    win := by simp [raiseEvent, enterEofs, Receiver.halfHeard, Config.winMax, h.invRun]
    rxCount := h.rxCount
    bitCnt := h.bitCnt
    rxOvf := h.rxOvf
    evCode := rfl
    stored := h.stored }

end

theorem ne_cal (h : r.Received p bytes bits run kB kV t) : r.rxState ≠ .cal := by simp [h.state]

/-! ## Bytes of a run -/

/-- The bits that complete a byte. -/
theorem leads_bits (bs : List Level) (b : Level) (h : r.Received p bytes bits run kB kV t) (hwf : p.wf = true)
    (hbits : bits.length + bs.length = 7) (hroom : bytes.length < p.rxDepth) (hbit : p.tBit ≤ p.toInact)
    (hglobal : kB + bs.length * p.tBit + p.tHalf ≤ p.toGlobal) (hinact : kV + p.tHalf ≤ p.toInact) :
    r.Leads p ctr t ((bs ++ [b]).flatMap symbolLevels)
      (Received p (bytes ++ [(bits ++ (bs ++ [b])).foldl shiftIn 0]) [] [] p.tHalf p.tHalf) := by
  induction bs generalizing bits run kB kV t r with
  | nil =>
    have hlast := h.leads_eighthBit (ctr := ctr) hwf (by simpa using hglobal) hinact b (by simpa using hbits) hroom
    simpa using hlast
  | cons b' bs ih =>
    have htwo := Params.two_mul_tHalf hwf
    rw [List.length_cons, Nat.succ_mul] at hglobal
    rw [List.length_cons] at hbits
    have hfirst := h.leads_bit (ctr := ctr) hwf (by omega) hinact b' (by omega)
    rw [List.cons_append, List.flatMap_cons, List.append_cons bits]
    exact hfirst.append h.ne_cal fun t' u hu => ih hu (by simp; omega) (by omega) (by omega)

/-- Eight symbols are a byte, most significant bit first (R87, R166). -/
theorem leads_byte (byte : Byte) (h : r.Received p bytes [] run kB kV t) (hwf : p.wf = true)
    (hroom : bytes.length < p.rxDepth) (hbit : p.tBit ≤ p.toInact)
    (hglobal : kB + 7 * p.tBit + p.tHalf ≤ p.toGlobal) (hinact : kV + p.tHalf ≤ p.toInact) :
    r.Leads p ctr t (byteLevels byte) (Received p (bytes ++ [byte]) [] [] p.tHalf p.tHalf) := by
  have hsplit := bitsMsbFirst_succ 7 byte.toNat
  have hbits := h.leads_bits (ctr := ctr) (bitsMsbFirst 7 (byte.toNat / 2)) (byte.toNat.testBit 0) hwf (by simp) hroom
    hbit (by simpa using hglobal) hinact
  rwa [← hsplit, List.nil_append, foldl_shiftIn_byte] at hbits

/-- A sequence of bytes that fits, from at most a bit period after a match or a byte on (R166, R169). -/
theorem leads_bytes {k : Nat} (b : Byte) (bs : List Byte) (h : r.Received p bytes [] run k k t) (hwf : p.wf = true)
    (hk : k ≤ p.tBit) (hroom : bytes.length + bs.length < p.rxDepth) (hinact : 2 * p.tBit ≤ p.toInact)
    (hglobal : 8 * p.tBit + p.tHalf ≤ p.toGlobal) :
    r.Leads p ctr t (bytesLevels (b :: bs)) (Received p (bytes ++ b :: bs) [] [] p.tHalf p.tHalf) := by
  have htwo := Params.two_mul_tHalf hwf
  induction bs generalizing bytes run k t r b with
  | nil =>
    have hbyte := h.leads_byte (ctr := ctr) b hwf hroom (by omega) (by omega) (by omega)
    simpa [bytesLevels] using hbyte
  | cons b' bs ih =>
    rw [List.length_cons] at hroom
    have hfirst := h.leads_byte (ctr := ctr) b hwf (by omega) (by omega) (by omega) (by omega)
    rw [bytesLevels, List.flatMap_cons, List.append_cons bytes]
    exact hfirst.append h.ne_cal fun t' u hu => ih b' hu (by omega) (by simp; omega)

/-- Three symbols `00` after a byte, or after valid bits, end the data phase (R165, R167). -/
theorem leads_threeLow {k : Nat} (h : r.Received p bytes bits [] k k t) (hwf : p.wf = true)
    (hlimit : p.invalidLimit = 3) (hinact : k + 2 * p.tBit + p.tHalf ≤ p.toInact) :
    r.Leads p ctr t (List.replicate 6 false) (fun _ => Searching p bytes bits [false, false, false]) := by
  have hp := Params.wf_facts hwf
  have hfirst := h.leads_invalid (ctr := ctr) hwf (by omega) (by omega) false (by simp [hlimit])
  rw [show List.replicate 6 false = [false, false] ++ ([false, false] ++ [false, false]) from rfl]
  refine hfirst.append h.ne_cal fun t' u hu => ?_
  have hsecond := hu.leads_invalid (ctr := ctr) hwf (by omega) (by omega) false (by simp [hlimit])
  exact hsecond.append hu.ne_cal fun t'' v hv =>
    hv.leads_lastInvalid hwf (by omega) (by omega) false (by simp [hlimit])

end Receiver.Received

/-- Settles O40: from the match on, the bytes one after the other, and then the three invalid symbols. -/
theorem dataSymbolsDecode : Obligations.DataSymbolsDecode := by
  intro p ctr tm r0 bs samples hwf hlimit hseed hne hroom htm hinact hglobal hsamples r
  obtain ⟨b, bs, rfl⟩ := List.exists_cons_of_ne_nil hne
  have hp := Params.wf_facts hwf
  have htwo := Params.two_mul_tHalf hwf
  have helapsed : elapsed p ((tm + p.tBit) % 2 ^ p.wT) tm = p.tBit := by
    simpa [Nat.mod_eq_of_lt htm] using elapsed_add (p := p) (t0 := tm) (k := p.tBit) (by omega)
  have hmatch := received_startFrame r0 helapsed
  have hbytes := hmatch.leads_bytes (ctr := ctr) b bs hwf le_rfl (by simpa using hroom) (by omega) hglobal
  have hend := hbytes.append hmatch.ne_cal fun t' u hu => hu.leads_threeLow hwf hlimit (by omega)
  obtain ⟨hstate, hwin, hcount, hbit, hovf, hevent, hstored⟩ := hend samples hsamples
  exact ⟨hstate, by rw [hwin, hseed]; rfl, hcount, hbit, hovf, hevent, hstored⟩

end Sys2Proof.Machine
end

section
/-! PROOFS. A frame on the channel from its start delimiter on (30_encoding.md R89): its parts are the wire codes that
are heard one after the other, and the validation of what they leave in `RXBUF` passes (46_validator.md R190 to R196). -/

namespace Sys2Proof.Machine

/-! ## The validation of a frame -/

section
variable {p : Params} {ctr : Nat} {buf : Memory} {ty : BitVec 24} {payload : List Byte}

theorem rxByte_of_stored {bytes : List Byte} (hstored : ∀ k < bytes.length, memRead p.rxDepth buf k = bytes[k]?)
    {k : Nat} (hk : k < bytes.length) : rxByte p ctr buf k = bytes[k] := by
  rw [rxByte, hstored k hk, List.getElem?_eq_getElem hk, Option.getD_some]

variable (hstored : ∀ k < (frameBytes ty payload).length, memRead p.rxDepth buf k = (frameBytes ty payload)[k]?)
include hstored

theorem rxByte_of_header {k : Nat} (hk : k < 9) :
    rxByte p ctr buf k = (headerBytes ty (BitVec.ofNat 32 payload.length) (crc16 payload))[k]'hk := by
  rw [rxByte_of_stored hstored (by rw [length_frameBytes]; omega)]
  exact List.getElem_append_left hk

theorem rxType_of_frame : rxType p ctr buf = ty := by
  rw [rxType, rxByte_of_header hstored (by decide), rxByte_of_header hstored (by decide),
    rxByte_of_header hstored (by decide)]
  calc ty.extractLsb' 16 8 ++ ty.extractLsb' 8 8 ++ ty.extractLsb' 0 8
      = ty.extractLsb' 8 16 ++ ty.extractLsb' 0 8 := by
        rw [BitVec.extractLsb'_append_extractLsb'_eq_extractLsb' (by rfl)]
    _ = ty.extractLsb' 0 24 := by rw [BitVec.extractLsb'_append_extractLsb'_eq_extractLsb' (by rfl)]
    _ = ty := BitVec.extractLsb'_eq_self

theorem rxCrc_of_frame : rxCrc p ctr buf = crc16 payload := by
  rw [rxCrc, rxByte_of_header hstored (by decide), rxByte_of_header hstored (by decide)]
  calc (crc16 payload).extractLsb' 8 8 ++ (crc16 payload).extractLsb' 0 8
      = (crc16 payload).extractLsb' 0 16 := by rw [BitVec.extractLsb'_append_extractLsb'_eq_extractLsb' (by rfl)]
    _ = crc16 payload := BitVec.extractLsb'_eq_self

theorem rxLength_of_frame : rxLength p ctr buf = BitVec.ofNat 32 payload.length := by
  rw [rxLength, rxByte_of_header hstored (by decide), rxByte_of_header hstored (by decide),
    rxByte_of_header hstored (by decide), rxByte_of_header hstored (by decide)]
  generalize BitVec.ofNat 32 payload.length = n
  calc n.extractLsb' 24 8 ++ n.extractLsb' 16 8 ++ n.extractLsb' 8 8 ++ n.extractLsb' 0 8
      = n.extractLsb' 16 16 ++ n.extractLsb' 8 8 ++ n.extractLsb' 0 8 := by
        rw [BitVec.extractLsb'_append_extractLsb'_eq_extractLsb' (by rfl)]
    _ = n.extractLsb' 8 24 ++ n.extractLsb' 0 8 := by rw [BitVec.extractLsb'_append_extractLsb'_eq_extractLsb' (by rfl)]
    _ = n.extractLsb' 0 32 := by rw [BitVec.extractLsb'_append_extractLsb'_eq_extractLsb' (by rfl)]
    _ = n := BitVec.extractLsb'_eq_self

theorem rxPayload_of_frame : rxPayload p ctr buf (9 + payload.length) = payload := by
  apply List.ext_getElem
  · simp [rxPayload, Config.headerLen]
  · intro i _ hi
    have hbyte := rxByte_of_stored (ctr := ctr) hstored (k := i + 9) (by rw [length_frameBytes]; omega)
    have htail : (frameBytes ty payload)[i + 9]'(by rw [length_frameBytes]; omega) = payload[i] :=
      List.getElem_append_right (Nat.le_add_left 9 i)
    simp [rxPayload, Config.headerLen, hbyte, htail]

/-- A frame passes its validation (R190 to R194, R196). -/
theorem validation_of_frame {ses : Session} (hcount : ses.rxCount = 9 + payload.length) (hovf : ses.rxOvf = false)
    (hlen : payload.length < 2 ^ 32) :
    validation p ctr ses buf =
      { resPass := true, resTooShort := false, resCrcOk := true, resLenOk := true, resOvf := false, resType := ty,
        resLen := BitVec.ofNat 32 payload.length, resCrcRx := crc16 payload, resCrcCalc := crc16 payload,
        resCount := 9 + payload.length } := by
  have hnat : (BitVec.ofNat 32 payload.length).toNat = payload.length := by
    rw [BitVec.toNat_ofNat, Nat.mod_eq_of_lt hlen]
  rw [validation, hcount, if_neg (by simp [Config.headerLen]), rxPayload_of_frame hstored, rxCrc_of_frame hstored,
    rxLength_of_frame hstored, rxType_of_frame hstored, hovf, hnat]
  simp [Config.headerLen]

end

theorem handle_of_proc {p : Params} {ctr now smp : Nat} {r : Receiver} (hst : r.rxState = .proc) :
    handle p ctr now smp r = valHandler p ctr now r := by
  rw [handle, hst]

/-! ## The levels of a frame, part by part -/

theorem driveWave_append (xs ys : List (Level × Nat)) (s : State) :
    Spec.driveWave (xs ++ ys) s = Spec.driveWave ys (Spec.driveWave xs s) := by
  induction xs generalizing s with
  | nil => rfl
  | cons x xs ih => exact ih _

theorem driveWave_withDuration (d : Nat) (ls : List Level) (s : State) :
    Spec.driveWave (withDuration d ls) s = driveLevels d ls s := by
  induction ls generalizing s with
  | nil => rfl
  | cons lv ls ih => exact ih _

/-- What follows the preamble: the start delimiter, the bytes and the end delimiter (R89). -/
theorem frameLevels_drop_preamble (p : Params) (ty : BitVec 24) (payload : List Byte) :
    (frameLevels p ty payload).drop 16 =
      withDuration p.tBit (bitsMsbFirst Config.patLen Config.patSof.toNat)
        ++ (withDuration p.tHalf (bytesLevels (frameBytes ty payload))
          ++ withDuration p.tBit (bitsMsbFirst Config.patLen Config.patEof.toNat)) := by
  rw [frameLevels, List.append_assoc, List.append_assoc]
  exact List.drop_left' rfl

/-- The time that levels take, at a receiver that then waits as before. -/
theorem State.Hears.after_driveLevels {s : State} (h : s.Hears) {d n : Nat} {ls : List Level} {r : Receiver}
    (hn : n = ls.length * d) (hwait : (Machine.driveLevels d ls s).wait = s.wait)
    (hrx : (Machine.driveLevels d ls s).rx = r) : s.After n r (Machine.driveLevels d ls s) :=
  ⟨h.driveLevels d ls, driveLevels_params d ls s, hn ▸ driveLevels_now d ls s h.now_lt, hwait, hrx⟩

/-- The start delimiter leaves a decoder with an empty session (R154). -/
theorem State.Hears.after_startDelimiter {s : State} (h : s.Hears) (hst : s.rx.rxState = .sof) (hwait : s.wait = 0)
    (htime : elapsed s.params s.now s.rx.ses.phaseStart + 7 * s.params.tBit ≤ s.params.toSof) :
    s.After (8 * s.params.tBit) { startFrame (s.dueIn (7 * s.params.tBit)) s.rx with evCode := .none }
      (Machine.driveLevels s.params.tBit (bitsMsbFirst Config.patLen Config.patSof.toNat) s) := by
  obtain ⟨t, hexec, hwait', hrx⟩ := startDelimiterIsMatched s h.wf h.now_lt hst hwait h.noiseless htime
  cases hexec
  refine h.after_driveLevels rfl (hwait'.trans hwait.symm) (hrx.trans ?_)
  rw [State.dueIn_eq_of_wait hwait]
  rfl

/-! ## A frame in step -/

/-- A timer started on the way, at a state whose next invocation is due. -/
theorem State.After.elapsed_dueIn {s t : State} {n j i : Nat} {r : Receiver} (h : s.After n r t) (hwait : t.wait = 0)
    (hn : n = j + i) (hi : i < 2 ^ s.params.wT) :
    elapsed t.params (t.now % 2 ^ t.params.wT) (s.dueIn j) = i := by
  rw [Nat.mod_eq_of_lt h.hears.now_lt, ← State.dueIn_zero_of_wait h.hears.now_lt hwait, h.dueIn, h.params,
    Nat.add_zero, hn]
  exact elapsed_dueIn_dueIn s j hi

/-- A decoder in step with the channel, after the bytes `bytes`; its timers have run for `k` ticks. -/
structure State.HasReceived (s : State) (bytes : List Byte) (k : Nat) : Prop where
  hears : s.Hears
  wait : s.wait = 0
  rx : s.rx.Received s.params bytes [] [] k k s.now

/-- What the end delimiter leaves to the validator (R184). -/
structure State.HasFrame (s : State) (bytes : List Byte) : Prop where
  wait : s.wait = 0
  state : s.rx.rxState = .proc
  rxCount : s.rx.ses.rxCount = bytes.length
  rxOvf : s.rx.ses.rxOvf = false
  stored : ∀ k < bytes.length, memRead s.params.rxDepth s.rx.buf k = bytes[k]?

/-- The start delimiter is followed by no byte yet (R154). -/
theorem State.Hears.hasReceived_startDelimiter {s : State} (h : s.Hears) (hst : s.rx.rxState = .sof)
    (hwait : s.wait = 0) (htime : elapsed s.params s.now s.rx.ses.phaseStart + 7 * s.params.tBit ≤ s.params.toSof)
    (hbit : s.params.tBit < 2 ^ s.params.wT) :
    (Machine.driveLevels s.params.tBit (bitsMsbFirst Config.patLen Config.patSof.toNat) s).HasReceived []
      s.params.tBit := by
  have hafter := h.after_startDelimiter hst hwait htime
  have hwait' := hafter.wait.trans hwait
  have helapsed := hafter.elapsed_dueIn hwait' (Nat.succ_mul 7 s.params.tBit) hbit
  refine ⟨hafter.hears, hwait', ?_⟩
  rw [hafter.rx]
  exact received_startFrame { s.rx with evCode := .none } helapsed

namespace State.HasReceived

variable {s : State} {bytes : List Byte} {k : Nat}

theorem decodes (h : s.HasReceived bytes k) : s.Decodes :=
  .of_due h.hears.wf h.hears.now_lt h.rx.state h.wait h.rx.pairHalf h.hears.noiseless

theorem elapsed_lastByteTime (h : s.HasReceived bytes k) : elapsed s.params s.now s.rx.ses.lastByteTime = k := by
  have helapsed := h.rx.sinceByte
  rwa [Nat.mod_eq_of_lt h.hears.now_lt] at helapsed

theorem elapsed_lastValidTime (h : s.HasReceived bytes k) : elapsed s.params s.now s.rx.ses.lastValidTime = k := by
  have helapsed := h.rx.sinceValid
  rwa [Nat.mod_eq_of_lt h.hears.now_lt] at helapsed

/-- The bytes after a match, as many as fit (R166). -/
theorem driveLevels_bytes (h : s.HasReceived [] k) (hne : bytes ≠ []) (hroom : bytes.length ≤ s.params.rxDepth)
    (hk : k ≤ s.params.tBit) (hinact : 2 * s.params.tBit ≤ s.params.toInact)
    (hglobal : 8 * s.params.tBit + s.params.tHalf ≤ s.params.toGlobal) :
    (driveLevels s.params.tHalf (bytesLevels bytes) s).HasReceived bytes s.params.tHalf := by
  have hp := Params.wf_facts h.hears.wf
  have htwo := Params.two_mul_tHalf h.hears.wf
  obtain rfl | ⟨bs, b, rfl⟩ := List.eq_nil_or_concat' bytes
  · exact absurd rfl hne
  rw [List.length_append, List.length_singleton] at hroom
  have hbyte := h.elapsed_lastByteTime
  have hvalid := h.elapsed_lastValidTime
  have hcount : s.rx.ses.rxCount = 0 := h.rx.rxCount
  have hafter := h.decodes.after_bytes bs b h.rx.bitCnt (by omega) (by omega) (by omega)
    (.of_due h.hears.now_lt h.wait (by omega) (by omega)) (.of_due h.hears.now_lt h.wait (by omega) (by omega))
  have hwait' := hafter.wait.trans h.wait
  have helapsed := hafter.elapsed_dueIn hwait' (i := s.params.tHalf)
    (j := bs.length * (8 * s.params.tBit) + (7 * s.params.tBit + s.params.tHalf)) (by omega) (by omega)
  refine ⟨hafter.hears, hwait', ?_⟩
  rw [hafter.rx]
  exact {
    state := h.rx.state
    pairHalf := h.rx.pairHalf
    sinceByte := helapsed
    sinceValid := helapsed
    bitCnt := rfl
    bitAcc := rfl
    rxCount := by simp [hcount]
    rxOvf := h.rx.rxOvf
    invRun := rfl
    invCount := rfl
    stored := fun j hj => by
      rw [hafter.params, hcount, memRead_storeBytes (by simpa using hroom), if_pos (by simpa using hj), Nat.sub_zero] }

/-- The end delimiter after them (R169, R184). -/
theorem driveLevels_endDelimiter (h : s.HasReceived bytes k) (hk : k ≤ s.params.tHalf)
    (hlimit : s.params.invalidLimit = 3) (hseed : s.params.efdSeed = true)
    (hinact : 3 * s.params.tBit ≤ s.params.toInact) (hglobal : 3 * s.params.tBit ≤ s.params.toGlobal)
    (heof : 4 * s.params.tBit + s.params.tHalf ≤ s.params.toEof) :
    (driveLevels s.params.tBit (bitsMsbFirst Config.patLen Config.patEof.toNat) s).HasFrame bytes := by
  have htwo := Params.two_mul_tHalf h.hears.wf
  have hbyte := h.elapsed_lastByteTime
  have hvalid := h.elapsed_lastValidTime
  obtain ⟨t, hexec, hwait, hrx⟩ := endDelimiterEndsTheFrame s h.hears.wf h.hears.now_lt h.rx.state h.wait
    h.rx.pairHalf h.rx.invCount h.rx.invRun h.hears.noiseless hlimit hseed (by omega) (by omega) heof
  cases hexec
  exact ⟨hwait, by rw [hrx], by rw [hrx]; exact h.rx.rxCount, by rw [hrx]; exact h.rx.rxOvf,
    by rw [hrx, driveLevels_params]; exact h.rx.stored⟩

end State.HasReceived

/-- One more tick, whatever its level, validates the frame (R190, R204). -/
theorem State.HasFrame.holdLevel_one {s : State} {ty : BitVec 24} {payload : List Byte}
    (h : s.HasFrame (frameBytes ty payload)) (hlen : payload.length < 2 ^ 32) (lv : Level) :
    (holdLevel lv 1 s).rx.evCode = .frameOk ∧ (holdLevel lv 1 s).rx.rxState = .pre
      ∧ (holdLevel lv 1 s).rx.res.resPass = true ∧ (holdLevel lv 1 s).rx.res.resType = ty
      ∧ (holdLevel lv 1 s).rx.res.resCount = 9 + payload.length ∧ (holdLevel lv 1 s).rx.buf = s.rx.buf := by
  have hvalidation := validation_of_frame (ctr := s.freeCtr) h.stored (h.rxCount.trans (length_frameBytes ty payload))
    h.rxOvf hlen
  obtain ⟨-, -, hrx⟩ := hold_one lv s
  rw [if_pos h.wait, handle_of_proc h.state, valHandler, hvalidation] at hrx
  rw [holdLevel, holdLevel, hrx]
  exact ⟨rfl, rfl, rfl, rfl, rfl, rfl⟩

/-- Settles O51: the start delimiter, the bytes, the end delimiter and the validation, one after the other. -/
theorem frameOnTheChannelIsReceived : Obligations.FrameOnTheChannelIsReceived := by
  intro s ty payload lv hwf hnow hst hwait hnoise hlimit hseed hroom hlen hsof hinact hglobal heof wave t
  have hp := Params.wf_facts hwf
  have htwo := Params.two_mul_tHalf hwf
  have hears : s.Hears := ⟨hwf, hnow, by simp [hst], hnoise⟩
  have ht : t = holdLevel lv 1 (driveLevels s.params.tBit (bitsMsbFirst Config.patLen Config.patEof.toNat)
      (driveLevels s.params.tHalf (bytesLevels (frameBytes ty payload))
        (driveLevels s.params.tBit (bitsMsbFirst Config.patLen Config.patSof.toNat) s))) := by
    simp only [t, wave, frameLevels_drop_preamble, driveWave_append, driveWave_withDuration]
    rfl
  have hstart := hears.hasReceived_startDelimiter hst hwait hsof (by omega)
  have hbytes := hstart.driveLevels_bytes (bytes := frameBytes ty payload) (by simp [frameBytes, headerBytes])
    (by simpa using hroom) (by simp) (by simp; omega) (by simpa using hglobal)
  have hframe := hbytes.driveLevels_endDelimiter (by simp) (by simpa using hlimit) (by simpa using hseed)
    (by simpa using hinact) (by simp; omega) (by simpa using heof)
  simp only [driveLevels_params] at hframe
  obtain ⟨hevent, hstate, hpass, htype, hcount, hbuf⟩ := hframe.holdLevel_one hlen lv
  rw [ht]
  refine ⟨hevent, hstate, hpass, htype, hcount, fun k hk => ?_⟩
  rw [hbuf]
  simpa using hframe.stored k (by simpa using hk)

end Sys2Proof.Machine
end

section
/-! PROOFS. The end-frame search (45_end_frame_detector.md R180 to R183): the branches of `EOF.STEP`. -/

namespace Sys2Proof.Machine

theorem eofHandler_timeout {p : Params} {now smp : Nat} {r : Receiver}
    (htime : p.toEof < elapsed p now r.ses.phaseStart) :
    eofHandler p now smp r = (fallBack now r, .eofTimeout) :=
  if_pos (expired_iff.mpr htime)

/-- `PAT_EOF` is found when the last eight levels are 00001111 (R182, R155). -/
theorem search_patEof_isMatch_iff {win : List Level} {lv : Level} :
    search win lv Config.patEof = .isMatch ↔
      8 ≤ (win ++ [lv]).length ∧ lastN (win ++ [lv]) 8 = [false, false, false, false, true, true, true, true] := by
  rw [search_isMatch_iff, List.length_append]
  rfl

/-- Settles O41: the timeout is asked for before the sample is looked at; a search in time matches or moves the window. -/
theorem eofStepSearchesTheDelimiter : Obligations.EofStepSearchesTheDelimiter := by
  intro s ses w e found
  refine ⟨fun htime => ?timeout, fun htime hfound => ?isMatch, fun htime hfound => ?window⟩
  case timeout => rw [exec_eofStep, eofHandler_timeout htime]; rfl
  case isMatch => rw [exec_eofStep, eofHandler_isMatch htime (search_patEof_isMatch_iff.mpr hfound)]; rfl
  case window =>
    have hmiss : search ses.win (s.rx.level s.sample) Config.patEof ≠ .isMatch :=
      mt search_patEof_isMatch_iff.mp hfound
    rw [exec_eofStep, eofHandler_window htime (search_eq_window hmiss)]
    rfl

end Sys2Proof.Machine
end

section
/-! PROOFS. The validator (46_validator.md R190 to R196): what `VAL.STEP` changes, the result registers for a short
session and for a parsed one, and the frame that passes. -/

namespace Sys2Proof.Machine

theorem validationEvent_of_tooShort {r : Results} (h : r.resTooShort = true) : validationEvent r = .underrun :=
  if_pos h

theorem validationEvent_of_not_tooShort {r : Results} (h : r.resTooShort = false) :
    validationEvent r = if r.resPass then .frameOk else .integrity :=
  if_neg (by rw [h]; exact Bool.false_ne_true)

/-- All that `VAL.STEP` changes (R190, R195): the results, their event, and a fresh session in PRE. -/
theorem exec_valStep_of_validation {s : State} {res : Results}
    (h : validation s.params s.freeCtr s.rx.ses s.rx.buf = res) :
    exec .valStep s = .next { s with rx := { s.rx with
      rxState := .pre, ses := Sys2Proof.Spec.sessionAt s.now, evCode := validationEvent res, res := res } } := by
  rw [exec_valStep, valHandler, h]
  rfl

section
variable {p : Params} {ctr : Nat} {ses : Session} {buf : Memory} {B : Nat → Byte}

/-- R191: no byte of the buffer is read. -/
theorem validation_of_short (hshort : ses.rxCount < 9) :
    validation p ctr ses buf =
      { resPass := false, resTooShort := true, resCrcOk := false, resLenOk := false, resOvf := ses.rxOvf,
        resType := 0, resLen := 0, resCrcRx := 0, resCrcCalc := 0, resCount := ses.rxCount } :=
  if_pos hshort

theorem rxByte_of_memRead {k : Nat} {b : Byte} (h : memRead p.rxDepth buf k = some b) : rxByte p ctr buf k = b := by
  rw [rxByte, h, Option.getD_some]

theorem rxPayload_of_memRead {n : Nat} (hread : ∀ k < n, memRead p.rxDepth buf k = some (B k)) :
    rxPayload p ctr buf n = (List.range (n - 9)).map fun i => B (i + 9) := by
  refine List.map_congr_left fun i hi => rxByte_of_memRead (hread (i + 9) ?_)
  have hi := List.mem_range.mp hi
  simp only [Config.headerLen] at hi
  omega

/-- R192 to R194: the fields from the first nine bytes, the payload from the rest, and the three conditions to pass. -/
theorem validation_of_memRead (hparsed : 9 ≤ ses.rxCount)
    (hread : ∀ k < ses.rxCount, memRead p.rxDepth buf k = some (B k)) :
    let len := B 3 ++ B 4 ++ B 5 ++ B 6
    let crcRx := B 7 ++ B 8
    let crcCalc := crc16 ((List.range (ses.rxCount - 9)).map fun i => B (i + 9))
    validation p ctr ses buf =
      { resPass := decide (crcCalc = crcRx ∧ ses.rxCount - 9 = len.toNat ∧ ses.rxOvf = false), resTooShort := false,
        resCrcOk := decide (crcCalc = crcRx), resLenOk := decide (ses.rxCount - 9 = len.toNat), resOvf := ses.rxOvf,
        resType := B 0 ++ B 1 ++ B 2, resLen := len, resCrcRx := crcRx, resCrcCalc := crcCalc,
        resCount := ses.rxCount } := by
  have hbyte : ∀ k < 9, rxByte p ctr buf k = B k := fun k hk => rxByte_of_memRead (hread k (by omega))
  have htype : rxType p ctr buf = B 0 ++ B 1 ++ B 2 := by simp [rxType, hbyte]
  have hlength : rxLength p ctr buf = B 3 ++ B 4 ++ B 5 ++ B 6 := by simp [rxLength, hbyte]
  have hcrc : rxCrc p ctr buf = B 7 ++ B 8 := by simp [rxCrc, hbyte]
  rw [validation, if_neg (by simpa [Config.headerLen] using hparsed), rxPayload_of_memRead hread, htype, hlength, hcrc]
  simp only [Bool.decide_and, Bool.decide_eq_false, Bool.and_assoc]
  rfl

end

/-- Settles O43: a stored frame passes its validation, and a declared length below 2^32 is read back as it is. -/
theorem validatorAcceptsAFrame : Obligations.ValidatorAcceptsAFrame := by
  intro s ty payload hlen hcount hovf hstored
  have hvalidation := validation_of_frame (ctr := s.freeCtr) (by simpa using hstored) hcount hovf hlen
  exact ⟨_, exec_valStep_of_validation hvalidation, rfl, rfl, Nat.mod_eq_of_lt hlen, rfl, rfl, rfl, rfl, rfl⟩

/-- Settles O42: the results are those of a short session or of a parsed one, and the event follows from them. -/
theorem valStepReportsTheFrame : Obligations.ValStepReportsTheFrame := by
  intro s B n hread
  refine ⟨fun hshort => ?short, fun hparsed => ?parsed⟩
  case short => rw [exec_valStep_of_validation (validation_of_short hshort), validationEvent_of_tooShort rfl]
  case parsed =>
    rw [exec_valStep_of_validation (validation_of_memRead hparsed hread), validationEvent_of_not_tooShort rfl]

end Sys2Proof.Machine
end

section
/-! PROOFS. Steps and ticks (47_scheduler.md R200 to R211, 60_exceptions.md R225, 70_reset_and_hazards.md R250): what a
step on a tick line runs, that every step of a stimulus of code words goes on, and what one tick makes of `now`, of
`rxState` and of the sample on `adc_in`. -/

namespace Sys2Proof.Machine

/-! ## A step on a tick -/

/-- A step on a tick line is that tick (R102). -/
theorem step_of_tick {s : State} {pins : Pins} {rest : List Line} (hwf : s.params.wf = true)
    (hscript : s.script = .tick pins :: rest) : step s = .next (tickWith pins (s.setScript rest)) := by
  rw [step_of_wf hwf, runScript, hscript]
  rfl

/-- `RX.TICK` leaves alone what the arm of `TX.TICK` reads (R15). -/
theorem rxTick_frame (s : State) :
    (rxTick s).params = s.params ∧ (rxTick s).tx = s.tx ∧ (rxTick s).pins = s.pins
      ∧ (rxTick s).freeCtr = s.freeCtr := by
  unfold rxTick
  split_ifs <;> exact ⟨rfl, rfl, rfl, rfl⟩

/-- Settles O6: the arm that `txPhase` selects is the whole `TX.TICK`, and reads nothing `RX.TICK` writes. -/
theorem stepRunsTheTick : Obligations.StepRunsTheTick := by
  intro s pins rest hwf hscript hrst
  obtain ⟨hparams, htx, hpins, hctr⟩ := rxTick_frame ((s.setScript rest).setPins pins)
  refine ⟨_, _, exec_rxTick _, exec_arm (by rw [htx]; rfl), ?_⟩
  rw [step_of_tick hwf hscript, hparams, htx, hpins, hctr, tickWith, tick, State.setPins_pins, hrst,
    if_neg Bool.false_ne_true]
  rfl

/-- Settles O7: a tick with `rst = 1` is `RESET`. -/
theorem stepRunsReset : Obligations.StepRunsReset := by
  intro s pins rest hwf hscript hrst
  refine ⟨_, exec_reset _, ?_⟩
  rw [step_of_tick hwf hscript, tickWith_rst hrst]

/-! ## Every step goes on -/

/-- A line whose code word, if it is one, decodes takes a next state (R211). -/
theorem runLine_next {line : Line} (h : line.decodes = true) (s : State) : ∃ t, runLine line s = .next t := by
  cases line with
  | tick pins => exact ⟨_, rfl⟩
  | loopback cmd => exact ⟨_, rfl⟩
  | levels bits d => exact ⟨_, rfl⟩
  | chan light dark => exact ⟨_, rfl⟩
  | invoke smp now => exact ⟨_, rfl⟩
  | code w =>
    unfold Line.decodes CodeWord.decodes at h
    simp only [runLine, runCode]
    cases hdec : decode w with
    | error e => simp [hdec] at h
    | ok i =>
      obtain ⟨t, hexec, -⟩ := exec_keepsBuffers i s
      exact ⟨t, hexec⟩

/-- Settles O11: a step is a tick with free inputs when the stimulus is used up, and its next line otherwise. -/
theorem stepAlwaysContinues : Obligations.StepAlwaysContinues := by
  intro s hwf hdecodes
  rw [step_of_wf hwf, runScript]
  split
  next => exact ⟨_, rfl⟩
  next line rest hscript => exact runLine_next (hdecodes line (by simp [hscript])) _

/-! ## `RX.TICK` -/

/-- The operation that `rxState` selects is the invocation (R24, R201). -/
theorem exec_handler (s : State) : exec s.rx.rxState.handler s = .next s.invoke := by
  rw [State.invoke, handle]
  cases s.rx.rxState <;> rfl

/-- Settles O9: `period` is the table of R203. -/
theorem rxTickInvokesOrWaits : Obligations.RxTickInvokesOrWaits := by
  intro s
  refine ⟨fun hwait => ⟨_, exec_handler s, ?invokes⟩, fun hwait => ?waits⟩
  case invokes =>
    rw [exec_rxTick, rxTick, if_pos hwait]
    rfl
  case waits =>
    rw [exec_rxTick, rxTick, if_neg hwait]
    rfl

/-! ## The clock -/

/-- Ticks without a reset advance `now` by their number, modulo `2^W_T` (R200). -/
theorem runTicks_now (inputs : List Pins) {s : State} (hnow : s.now < 2 ^ s.params.wT)
    (hrst : ∀ x ∈ inputs, x.rst = false) :
    (runTicks inputs s).now = (s.now + inputs.length) % 2 ^ s.params.wT := by
  induction inputs generalizing s with
  | nil => exact (Nat.mod_eq_of_lt hnow).symm
  | cons pins rest ih =>
    obtain ⟨hpins, hrest⟩ := List.forall_mem_cons.mp hrst
    have htick : (tickWith pins s).now = nextNow s.params s.now := by
      rw [tickWith_now, hpins, if_neg Bool.false_ne_true]
    rw [runTicks, ih (by rw [htick, tickWith_params]; exact nextNow_lt) hrest, htick, tickWith_params, nextNow,
      Nat.mod_add_mod, List.length_cons, Nat.add_assoc, Nat.add_comm 1]

/-- Settles O44: `elapsed` undoes the wrap of `now`. -/
theorem elapsedCountsTicks : Obligations.ElapsedCountsTicks := by
  intro s inputs hnow hrst hlen
  have helapsed := elapsed_add (p := s.params) (t0 := s.now) hlen
  rwa [Nat.mod_eq_of_lt hnow, ← runTicks_now inputs hnow hrst] at helapsed

/-! ## The transitions of `rxState` -/

/-- The transitions of R210, from the state of an invocation to the state it leaves. -/
def rxSuccessors : RxState → List RxState
  | .cal => [.cal, .pre]
  | .pre => [.pre, .sof]
  | .sof => [.sof, .data]
  | .data => [.pre, .eofs, .data]
  | .eofs => [.data, .eofs, .proc]
  | .proc => [.pre]

section
variable {p : Params} {ctr now smp : Nat} {r : Receiver}

theorem calHandler_rxState (hst : r.rxState = .cal) : (calHandler p now smp r).1.rxState ∈ [RxState.cal, .pre] := by
  unfold calHandler
  dsimp only
  split_ifs <;> simp [hst]

theorem preHandler_rxState (hst : r.rxState = .pre) : (preHandler p now smp r).1.rxState ∈ [RxState.pre, .sof] := by
  unfold preHandler
  dsimp only
  split_ifs <;> simp [hst]

theorem sofHandler_rxState (hst : r.rxState = .sof) : (sofHandler p now smp r).1.rxState ∈ [RxState.sof, .data] := by
  unfold sofHandler
  split_ifs
  · simp [hst]
  · split <;> simp [hst, startFrame]

theorem validSymbol_rxState {b : Level} : (validSymbol p now b r).1.rxState = r.rxState := by
  unfold validSymbol completeByte
  dsimp only
  split_ifs <;> rfl

theorem invalidSymbol_rxState {lv : Level} :
    (invalidSymbol p now lv r).1.rxState = .eofs ∨ (invalidSymbol p now lv r).1.rxState = r.rxState := by
  unfold invalidSymbol
  dsimp only
  split_ifs
  · exact .inl rfl
  · exact .inr rfl

theorem decHandler_rxState (hst : r.rxState = .data) :
    (decHandler p now smp r).1.rxState ∈ [RxState.pre, .eofs, .data] := by
  unfold decHandler
  dsimp only
  split_ifs
  · simp
  · simp [enterEofs]
  · simp [hst]
  · simp [validSymbol_rxState, hst]
  · obtain h | h := invalidSymbol_rxState (p := p) (now := now) (r := r) (lv := r.level smp) <;> simp [h, hst]

theorem eofHandler_rxState (hst : r.rxState = .eofs) :
    (eofHandler p now smp r).1.rxState ∈ [RxState.data, .eofs, .proc] := by
  unfold eofHandler
  split_ifs
  · simp [fallBack]
  · split <;> simp [hst]

/-- An invocation makes a transition of the table (R210). -/
theorem handle_rxState_mem_rxSuccessors :
    (raiseEvent (handle p ctr now smp r)).rxState ∈ rxSuccessors r.rxState := by
  rw [raiseEvent_rxState, handle]
  cases hst : r.rxState
  case cal => exact calHandler_rxState hst
  case pre => exact preHandler_rxState hst
  case sof => exact sofHandler_rxState hst
  case data => exact decHandler_rxState hst
  case eofs => exact eofHandler_rxState hst
  case proc => exact List.mem_singleton_self _

end

/-- Between invocations the receiver stands still; at one it makes a transition of the table (R201, R210). -/
theorem tickWith_rxState {pins : Pins} (hrst : pins.rst = false) (s : State) :
    s.wait = 0 ∧ (tickWith pins s).rx.rxState ∈ rxSuccessors s.rx.rxState
      ∨ s.wait ≠ 0 ∧ (tickWith pins s).rx.rxState = s.rx.rxState := by
  rw [tickWith_rx, hrst, if_neg Bool.false_ne_true]
  by_cases hwait : s.wait = 0
  · rw [if_pos hwait]
    exact .inl ⟨hwait, handle_rxState_mem_rxSuccessors⟩
  · rw [if_neg hwait]
    exact .inr ⟨hwait, rfl⟩

/-- Outside CAL a tick leaves the calibration registers alone (R126). -/
theorem tickWith_cal {pins : Pins} (hrst : pins.rst = false) {s : State} (hst : s.rx.rxState ≠ .cal) :
    (tickWith pins s).rx.cal = s.rx.cal := by
  rw [tickWith_rx, hrst, if_neg Bool.false_ne_true]
  split_ifs
  · exact handle_cal hst
  · rfl

/-- Settles O57: each row of the table is a transition of an invocation, or the state unchanged. -/
theorem transitionsFollowTheTable : Obligations.TransitionsFollowTheTable := by
  intro s pins hrst old new
  have htable : s.wait = 0 ∧ new ∈ rxSuccessors old ∨ s.wait ≠ 0 ∧ new = old := tickWith_rxState hrst s
  refine ⟨?rows, fun hold hwait => ?proc, fun hold => tickWith_cal hrst hold⟩
  case rows =>
    have hpair : new ∈ rxSuccessors old ∨ new = old := htable.imp And.right And.right
    clear_value old new
    clear htable
    cases old <;> simp [rxSuccessors] at hpair ⊢ <;> tauto
  case proc =>
    obtain ⟨-, hmem⟩ | ⟨hne, -⟩ := htable
    · rw [hold] at hmem
      exact List.mem_singleton.mp hmem
    · exact absurd hwait hne

/-! ## The sample -/

/-- `VAL.STEP` reads no sample (R202). -/
theorem handle_of_proc_sample {p : Params} {ctr now smp smp' : Nat} {r : Receiver} (hst : r.rxState = .proc) :
    handle p ctr now smp r = handle p ctr now smp' r := by
  rw [handle_of_proc hst, handle_of_proc hst]

/-- Settles O59: the sample is an argument of the handler alone. -/
theorem sampleMattersOnlyAtInvocations : Obligations.SampleMattersOnlyAtInvocations := by
  intro s pins a hcase
  have hreset : ({ pins with adcIn := a } : Pins).rst = pins.rst := rfl
  obtain hrst | hrst := Bool.eq_false_or_eq_true pins.rst
  · rw [tickWith_rst hrst, tickWith_rst (hreset.trans hrst)]
    rfl
  · rw [tickWith_run hrst, tickWith_run (hreset.trans hrst)]
    obtain hone | hwait | hproc := hcase
    · exact absurd (hrst.symm.trans hone) Bool.false_ne_true
    · rw [if_neg hwait, if_neg hwait, if_neg hwait]
      rfl
    · rw [handle_of_proc_sample (smp' := portSample s.params pins.adcIn) hproc]
      rfl

end Sys2Proof.Machine
end

section
/-! PROOFS. A whole emission on a noiseless channel, at every sampling phase (70_reset_and_hazards.md R262): the
lock fixes the phase in which the receiver samples, in the first half of every raw bit, and the search, the decoder and
the end-frame search keep it.  The validation and what follows it come in the LOW bit period after the frame. -/

namespace Sys2Proof.Machine

/-! ## The lock fixes the phase -/

/-- A search that has heard the levels `win` and nothing else since the lock; at its next invocation its timer has run
for `k` ticks (R150, R154). -/
structure State.Locked (s : State) (win : List Level) (k : Nat) : Prop where
  hears : s.Hears
  state : s.rx.rxState = .sof
  win : s.rx.ses.win = win
  started : elapsed s.params (s.dueIn 0) s.rx.ses.phaseStart = k

theorem State.Locked.searches {s : State} {win : List Level} {k : Nat} (h : s.Locked win k) :
    s.Searches Config.patSof s.params.toSof :=
  ⟨h.hears, .inl ⟨h.state, rfl, rfl⟩⟩

/-- Ticks that leave the next invocation `i` ticks later than it was. -/
theorem holdLevel_dueIn {s : State} (hnow : s.now < 2 ^ s.params.wT) {lv : Level} {d i : Nat}
    (h : d + (holdLevel lv d s).wait = s.wait + i) : (holdLevel lv d s).dueIn 0 = s.dueIn i := by
  rw [State.dueIn, State.dueIn, holdLevel_params, holdLevel_now lv d s hnow, Nat.add_zero, Nat.mod_add_mod]
  congr 1
  omega

/-- The eighth flip; the search samples first `T_PRE` ticks later (R203). -/
theorem State.Counts.holdLevel_until_lock {s : State} {r : Receiver} {lv : Level} {k : Nat} (h : s.Counts r lv 7 k)
    (hk : s.wait ≤ k) (hfits : s.params.tPre < 2 ^ s.params.wT) :
    (holdLevel (!lv) (s.wait + 1) s).Locked [] s.params.tPre
      ∧ (holdLevel (!lv) (s.wait + 1) s).wait = s.params.tPre - 1 := by
  have hpre := h.wait_lt
  obtain ⟨hwait, hrx⟩ := holdLevel_invocation (!lv) (d := s.wait + 1) h.hears.now_lt (by omega)
    (by rw [h.state, period]; omega)
  rw [h.heard_lock hk] at hrx
  rw [h.state, period] at hwait
  have hdue := holdLevel_dueIn h.hears.now_lt (lv := !lv) (d := s.wait + 1) (i := 0 + s.params.tPre) (by omega)
  refine ⟨⟨h.hears.holdLevel _ _, by rw [hrx], by rw [hrx], ?_⟩, by omega⟩
  rw [holdLevel_params, hrx, hdue, elapsed_dueIn_dueIn s 0 hfits]

/-- The first level the search hears (R155). -/
theorem State.Locked.holdLevel_heard {s : State} {k d : Nat} (h : s.Locked [] k) (lv : Level) (hwait : s.wait < d)
    (hd : d ≤ s.wait + s.params.tBit) (htime : k + s.params.tBit ≤ s.params.toSof) :
    (holdLevel lv d s).Locked [lv] (k + s.params.tBit)
      ∧ (holdLevel lv d s).wait = s.wait + s.params.tBit - d := by
  have hfits := Params.toSof_lt h.hears.wf
  have hstarted := h.started
  have hperiod := h.searches.period_eq
  obtain ⟨hwait', hrx⟩ := holdLevel_invocation lv h.hears.now_lt hwait (by omega)
  rw [h.searches.heard_window ⟨hfits, by omega⟩ (search_patSof_ne_isMatch (by rw [h.win]; simp)), h.win] at hrx
  have hdue := holdLevel_dueIn h.hears.now_lt (lv := lv) (d := d) (i := s.params.tBit) (by omega)
  have hlater : s.dueIn s.params.tBit = (s.dueIn 0 + s.params.tBit) % 2 ^ s.params.wT := by
    rw [State.dueIn, State.dueIn, Nat.add_zero, Nat.mod_add_mod]
  refine ⟨⟨h.hears.holdLevel _ _, by rw [hrx]; exact h.state, by rw [hrx]; rfl, ?_⟩, by omega⟩
  have hrun := elapsed_advance (p := s.params) (now := s.dueIn 0) (t0 := s.rx.ses.phaseStart) (k := s.params.tBit)
    (by omega)
  rw [hstarted] at hrun
  rw [holdLevel_params, hrx, hdue, hlater]
  exact hrun

/-- The raw bit of the eighth flip is heard twice, the second time in its first half; from then on every raw bit is
sampled once, in that phase. -/
theorem State.Counts.holdLevel_locked {s : State} {r : Receiver} {lv : Level} (h : s.Counts r lv 7 s.params.tBit)
    (hphase : 2 * s.params.tPre ≤ s.params.tHalf) (htoSof : s.params.tPre + s.params.tBit ≤ s.params.toSof) :
    (holdLevel (!lv) s.params.tBit s).Locked [!lv] (s.params.tPre + s.params.tBit)
      ∧ (holdLevel (!lv) s.params.tBit s).wait < s.params.tHalf := by
  have hwait := h.wait_lt
  have htwo := Params.two_mul_tHalf h.hears.wf
  have hfits := Params.toSof_lt h.hears.wf
  obtain ⟨m, hm⟩ : ∃ m, s.params.tBit = s.wait + 1 + m := ⟨s.params.tBit - (s.wait + 1), by omega⟩
  obtain ⟨hlock, hwait'⟩ := h.holdLevel_until_lock (by omega) (by omega)
  obtain ⟨hheard, hwait''⟩ := hlock.holdLevel_heard (!lv) (d := m) (by omega) (by rw [holdLevel_params]; omega)
    (by simpa using htoSof)
  rw [← holdLevel_append, ← hm, holdLevel_params] at hheard hwait''
  exact ⟨hheard, by omega⟩

/-! ## The start delimiter -/

theorem misses_append {pat : Byte} {history xs ys : List Level} (hxs : Misses pat history xs)
    (hys : Misses pat (history ++ xs) ys) : Misses pat history (xs ++ ys) := by
  induction xs generalizing history with
  | nil => simpa using hys
  | cons lv xs ih => exact ⟨hxs.1, ih hxs.2 (by simpa using hys)⟩

/-- Alternating levels end no start delimiter, however many there are (R156). -/
theorem misses_alternating {history : List Level} {lv : Level} (n : Nat) (h : history.getLast? ≠ some lv) :
    Misses Config.patSof history (alternating lv n) := by
  induction n generalizing history lv with
  | zero => trivial
  | succ n ih => exact ⟨search_patSof_ne_isMatch h, ih (by simp)⟩

/-- A timer started on the way, at the next invocation. -/
theorem State.After.elapsed_next {s t : State} {n j i : Nat} {r : Receiver} (h : s.After n r t) (hn : n = j + i)
    (hi : i < 2 ^ s.params.wT) :
    elapsed t.params ((t.now + t.wait) % 2 ^ t.params.wT) (s.dueIn j) = i := by
  have hdue := h.dueIn 0
  rw [State.dueIn, Nat.add_zero, Nat.add_zero, hn] at hdue
  rw [hdue, h.params, elapsed_dueIn_dueIn s j hi]

/-- A decoder between two symbols, in any phase, after the bytes `bytes`; at its next invocation its timers have run for
`k` ticks. -/
structure State.Receives (s : State) (bytes : List Byte) (k : Nat) : Prop where
  decodes : s.Decodes
  rx : s.rx.Received s.params bytes [] [] k k (s.now + s.wait)

/-- The rest of the preamble ends no match, and the start delimiter is matched at its last raw bit (R154, R156). -/
theorem State.Locked.receives {s : State} {k : Nat} (h : s.Locked [false] k) (hwait : s.wait < s.params.tHalf)
    (htoSof : k + 15 * s.params.tBit ≤ s.params.toSof) :
    (driveLevels s.params.tBit (alternating true 8 ++ bitsMsbFirst Config.patLen Config.patSof.toNat) s).Receives []
      s.params.tBit := by
  have htwo := Params.two_mul_tHalf h.hears.wf
  have hfits := Params.toSof_lt h.hears.wf
  have hin : s.InTime s.rx.ses.phaseStart (15 * s.params.tBit) s.params.toSof :=
    ⟨hfits, by rw [h.started]; omega⟩
  have hsplit : alternating true 8 ++ bitsMsbFirst Config.patLen Config.patSof.toNat
      = alternating true 8 ++ [true, true, true, true, false, false, false] ++ [false] := rfl
  have hmiss : Misses Config.patSof s.rx.ses.win
      (alternating true 8 ++ [true, true, true, true, false, false, false]) := by
    rw [h.win]
    refine misses_append (misses_alternating 8 (by simp)) ?_
    simpa using misses_of_suffix_ne (pat := Config.patSof) (history := [false] ++ alternating true 8) (ys := [])
      (ls := [true, true, true, true, false, false, false]) (by decide) (by decide)
  have hafter := h.searches.after_driveLevels_isMatch
    (ls := alternating true 8 ++ [true, true, true, true, false, false, false]) (lv := false) (by omega) hin hmiss
    (by rw [← List.append_assoc]; exact search_append_isMatch rfl)
  rw [← hsplit, Receiver.found, if_pos h.state] at hafter
  have helapsed := hafter.elapsed_next rfl (show s.params.tBit < _ by omega)
  refine ⟨⟨hafter.hears, by rw [hafter.rx]; rfl, by rw [hafter.rx]; rfl, ?phase⟩, ?session⟩
  case phase => rwa [hafter.wait, hafter.params]
  case session =>
    rw [hafter.rx]
    exact received_startFrame { s.rx with evCode := s.shown s.params.tBit .sofMatch } helapsed

/-! ## The bytes and the end delimiter -/

/-- What the end delimiter leaves to the validator, which comes in the first half of the bit period after it (R184). -/
structure State.Awaits (s : State) (bytes : List Byte) : Prop where
  hears : s.Hears
  wait_lt : s.wait < s.params.tHalf
  state : s.rx.rxState = .proc
  rxCount : s.rx.ses.rxCount = bytes.length
  rxOvf : s.rx.ses.rxOvf = false
  stored : ∀ k < bytes.length, memRead s.params.rxDepth s.rx.buf k = bytes[k]?

namespace State.Receives

variable {s : State} {bytes : List Byte} {j k : Nat}

theorem inTime_lastByteTime (h : s.Receives bytes k) {timeout : Nat}
    (hfits : timeout + s.params.longestPeriod < 2 ^ s.params.wT) (hle : k + j ≤ timeout) :
    s.InTime s.rx.ses.lastByteTime j timeout :=
  ⟨by omega, by rw [State.dueIn, Nat.add_zero, h.rx.sinceByte]; exact hle⟩

theorem inTime_lastValidTime (h : s.Receives bytes k) {timeout : Nat}
    (hfits : timeout + s.params.longestPeriod < 2 ^ s.params.wT) (hle : k + j ≤ timeout) :
    s.InTime s.rx.ses.lastValidTime j timeout :=
  ⟨by omega, by rw [State.dueIn, Nat.add_zero, h.rx.sinceValid]; exact hle⟩

/-- The bytes after a match, as many as fit (R166). -/
theorem driveLevels_bytes (h : s.Receives [] k) (hk : k ≤ s.params.tBit) (hne : bytes ≠ [])
    (hroom : bytes.length ≤ s.params.rxDepth) (hinact : 2 * s.params.tBit ≤ s.params.toInact)
    (hglobal : 8 * s.params.tBit + s.params.tHalf ≤ s.params.toGlobal) :
    (driveLevels s.params.tHalf (bytesLevels bytes) s).Receives bytes s.params.tHalf := by
  have hp := Params.wf_facts h.decodes.hears.wf
  have htwo := Params.two_mul_tHalf h.decodes.hears.wf
  obtain rfl | ⟨bs, b, rfl⟩ := List.eq_nil_or_concat' bytes
  · exact absurd rfl hne
  rw [List.length_append, List.length_singleton] at hroom
  have hcount : s.rx.ses.rxCount = 0 := h.rx.rxCount
  have hafter := h.decodes.after_bytes bs b h.rx.bitCnt (by omega) (by omega) (by omega)
    (h.inTime_lastByteTime (by omega) (by omega)) (h.inTime_lastValidTime (by omega) (by omega))
  have helapsed := hafter.elapsed_next (i := s.params.tHalf)
    (j := bs.length * (8 * s.params.tBit) + (7 * s.params.tBit + s.params.tHalf)) (by omega) (by omega)
  refine ⟨h.decodes.of_after hafter h.decodes.state h.decodes.pairHalf, ?_⟩
  rw [hafter.rx]
  exact {
    state := h.rx.state
    pairHalf := h.rx.pairHalf
    sinceByte := helapsed
    sinceValid := helapsed
    bitCnt := rfl
    bitAcc := rfl
    rxCount := by simp [hcount]
    rxOvf := h.rx.rxOvf
    invRun := rfl
    invCount := rfl
    stored := fun i hi => by
      rw [hafter.params, hcount, memRead_storeBytes (by simpa using hroom), if_pos (by simpa using hi), Nat.sub_zero] }

/-- The end delimiter after them: three invalid symbols, and five raw bits that the search hears (R169, R184). -/
theorem driveLevels_endDelimiter (h : s.Receives bytes k) (hk : k ≤ s.params.tHalf)
    (hlimit : s.params.invalidLimit = 3) (hseed : s.params.efdSeed = true)
    (hinact : 3 * s.params.tBit ≤ s.params.toInact) (hglobal : 3 * s.params.tBit ≤ s.params.toGlobal)
    (heof : 4 * s.params.tBit + s.params.tHalf ≤ s.params.toEof) :
    (driveLevels s.params.tBit (bitsMsbFirst Config.patLen Config.patEof.toNat) s).Awaits bytes := by
  have hp := Params.wf_facts h.decodes.hears.wf
  have htwo := Params.two_mul_tHalf h.decodes.hears.wf
  have hwait := h.decodes.wait_lt
  have hsymbols := h.decodes.after_threeLow h.rx.invCount h.rx.invRun hlimit hseed
    (h.inTime_lastByteTime (by omega) (by omega)) (h.inTime_lastValidTime (by omega) (by omega))
  rw [show bitsMsbFirst Config.patLen Config.patEof.toNat
    = [false, false, false] ++ ([false, true, true, true] ++ [true]) from rfl, driveLevels_append]
  generalize driveLevels s.params.tBit [false, false, false] s = t at hsymbols ⊢
  have hsearch : t.Searches Config.patEof s.params.toEof :=
    ⟨hsymbols.hears, .inr ⟨by rw [hsymbols.rx], rfl, by rw [hsymbols.params]⟩⟩
  have hfound := hsearch.after_driveLevels_isMatch (ls := [false, true, true, true]) (lv := true)
    (by rw [hsymbols.wait, hsymbols.params]; omega)
    (by
      rw [hsymbols.rx, hsymbols.params]
      exact hsymbols.inTime_dueIn (i := s.params.tHalf) (by omega) (by omega) (by simp; omega))
    (by rw [hsymbols.rx]; exact misses_patEof) (by rw [hsymbols.rx]; exact search_patEof)
  rw [hsymbols.rx, hsymbols.params, Receiver.found, if_neg (by simp)] at hfound
  have hend := hsymbols.trans hfound
  refine ⟨hend.hears, by rw [hend.wait, hend.params]; exact hwait, by rw [hend.rx]; rfl, ?_, ?_, fun i hi => ?_⟩
  · rw [hend.rx]
    exact h.rx.rxCount
  · rw [hend.rx]
    exact h.rx.rxOvf
  · rw [hend.rx, hend.params]
    exact h.rx.stored i hi

end State.Receives

/-! ## The channel at rest -/

theorem Receiver.SameData.trans {r r' r'' : Receiver} (h : r.SameData r') (h' : r'.SameData r'') : r.SameData r'' :=
  ⟨h'.cal.trans h.cal, h'.res.trans h.res, h'.buf.trans h.buf⟩

/-- A receiver in PRE that has recorded no HIGH level (R31). -/
structure Receiver.Rests (r : Receiver) : Prop where
  state : r.rxState = .pre
  low : r.ses.lastLevelValid = true → r.ses.lastLevel = false

/-- A LOW sample makes no flip, whether it is the first, or the preamble phase times out, or neither (R150). -/
theorem Receiver.Rests.preHandler {p : Params} {now smp : Nat} {r : Receiver} (h : r.Rests)
    (hlow : r.level smp = false) :
    (preHandler p now smp r).1.Rests ∧ r.SameData (preHandler p now smp r).1 := by
  obtain htime | htime := Nat.lt_or_ge p.toPre (elapsed p now r.ses.phaseStart)
  · rw [preHandler_timeout htime]
    exact ⟨⟨h.state, h.low⟩, ⟨rfl, rfl, rfl⟩⟩
  cases hvalid : r.ses.lastLevelValid
  · rw [preHandler_first htime hvalid]
    exact ⟨⟨h.state, fun _ => hlow⟩, ⟨rfl, rfl, rfl⟩⟩
  · rw [preHandler_same htime hvalid (hlow.trans (h.low hvalid).symm)]
    exact ⟨h, ⟨rfl, rfl, rfl⟩⟩

/-- A LOW channel keeps a receiver at rest. -/
theorem State.Hears.holdLevel_rests {s : State} (h : s.Hears) (hrests : s.rx.Rests) (d : Nat) :
    (Machine.holdLevel false d s).rx.Rests ∧ s.rx.SameData (Machine.holdLevel false d s).rx := by
  induction d generalizing s with
  | zero => exact ⟨hrests, ⟨rfl, rfl, rfl⟩⟩
  | succ d ih =>
    have htick : (tickWith (channelPins false s) s).rx.Rests
        ∧ s.rx.SameData (tickWith (channelPins false s) s).rx := by
      rw [(hold_one false s).2.2]
      split_ifs
      · obtain ⟨hrests', hdata⟩ := hrests.preHandler (p := s.params) (now := s.now)
          (h.noiseless.level_intensity false)
        rw [handle_of_pre hrests.state]
        exact ⟨⟨hrests'.state, hrests'.low⟩, ⟨hdata.cal, hdata.res, hdata.buf⟩⟩
      · exact ⟨⟨hrests.state, hrests.low⟩, ⟨rfl, rfl, rfl⟩⟩
    obtain ⟨hrests', hdata⟩ := ih (h.tick false) htick.1
    exact ⟨hrests', htick.2.trans hdata⟩

/-- The bit period after the frame: the validation (R190), and a LOW channel from then on. -/
theorem State.Awaits.holdLevel_low {s : State} {ty : BitVec 24} {payload : List Byte}
    (h : s.Awaits (frameBytes ty payload)) (hlen : payload.length < 2 ^ 32) :
    let t := holdLevel false s.params.tBit s
    t.rx.rxState = .pre
      ∧ t.rx.res =
        { resPass := true, resTooShort := false, resCrcOk := true, resLenOk := true, resOvf := false, resType := ty,
          resLen := BitVec.ofNat 32 payload.length, resCrcRx := crc16 payload, resCrcCalc := crc16 payload,
          resCount := 9 + payload.length }
      ∧ t.rx.buf = s.rx.buf := by
  have hwait := h.wait_lt
  have htwo := Params.two_mul_tHalf h.hears.wf
  obtain ⟨m, hm⟩ : ∃ m, s.params.tBit = s.wait + 1 + m := ⟨s.params.tBit - (s.wait + 1), by omega⟩
  obtain ⟨-, hrx⟩ := holdLevel_invocation false (d := s.wait + 1) h.hears.now_lt (by omega)
    (by rw [h.state, period])
  rw [State.heard, handle_of_proc h.state, valHandler,
    validation_of_frame h.stored (h.rxCount.trans (length_frameBytes ty payload)) h.rxOvf hlen] at hrx
  have hears := h.hears.holdLevel false (s.wait + 1)
  rw [hm, holdLevel_append]
  generalize holdLevel false (s.wait + 1) s = t at hrx hears ⊢
  obtain ⟨hrests, hdata⟩ := hears.holdLevel_rests (by rw [hrx]; exact ⟨rfl, nofun⟩) m
  exact ⟨hrests.state, hdata.res.trans (by rw [hrx]; rfl), hdata.buf.trans (by rw [hrx]; rfl)⟩

/-! ## A whole emission -/

/-- A channel that a calibrated receiver hears does not change its calibration (R126). -/
theorem State.Hears.holdLevel_cal {s : State} (h : s.Hears) (lv : Level) (d : Nat) :
    (Machine.holdLevel lv d s).rx.cal = s.rx.cal := by
  induction d generalizing s with
  | zero => rfl
  | succ d ih => exact (ih (h.tick lv)).trans (tickWith_cal (channelPins_rst lv s) h.calibrated)

theorem State.Hears.driveWave_cal {s : State} (h : s.Hears) (wave : List (Level × Nat)) :
    (Spec.driveWave wave s).rx.cal = s.rx.cal := by
  induction wave generalizing s with
  | nil => rfl
  | cons x wave ih => exact (ih (h.holdLevel x.1 x.2)).trans (h.holdLevel_cal x.1 x.2)

@[simp] theorem driveWave_params (wave : List (Level × Nat)) (s : State) :
    (Spec.driveWave wave s).params = s.params := by
  induction wave generalizing s with
  | nil => rfl
  | cons x wave ih => exact (ih _).trans (holdLevel_params x.1 x.2 s)

/-- The parts of an emission in which the receiver behaves alike: seven flips, the lock, the search, the bytes, the end
delimiter (R89). -/
theorem driveWave_frameLevels (ty : BitVec 24) (payload : List Byte) (s : State) :
    Spec.driveWave (frameLevels s.params ty payload) s =
      driveLevels s.params.tBit (bitsMsbFirst Config.patLen Config.patEof.toNat)
        (driveLevels s.params.tHalf (bytesLevels (frameBytes ty payload))
          (driveLevels s.params.tBit (alternating true 8 ++ bitsMsbFirst Config.patLen Config.patSof.toNat)
            (holdLevel false s.params.tBit (driveLevels s.params.tBit (alternating true 7) s)))) := by
  have hpreamble : bitsMsbFirst Config.preLevels Config.preambleBits.toNat
      = alternating true 7 ++ [false] ++ alternating true 8 := rfl
  simp only [frameLevels, driveWave_append, driveWave_withDuration, hpreamble, driveLevels_append]
  rfl

/-- Seven flips, the lock, the search, the bytes and the end delimiter, one after the other (R151, R156, R166, R184). -/
theorem State.Counts.awaits_of_frame {s : State} {r : Receiver} {ty : BitVec 24} {payload : List Byte}
    (h : s.Counts r false 0 (8 * s.params.tBit)) (hphase : 2 * s.params.tPre ≤ s.params.tHalf)
    (hlimit : s.params.invalidLimit = 3) (hseed : s.params.efdSeed = true)
    (hroom : 9 + payload.length ≤ s.params.rxDepth)
    (htoSof : s.params.tPre + 24 * s.params.tBit ≤ s.params.toSof) (hinact : 3 * s.params.tBit ≤ s.params.toInact)
    (hglobal : 8 * s.params.tBit + s.params.tHalf ≤ s.params.toGlobal)
    (heof : 4 * s.params.tBit + s.params.tHalf ≤ s.params.toEof) :
    (Spec.driveWave (frameLevels s.params ty payload) s).Awaits (frameBytes ty payload) := by
  have htwo := Params.two_mul_tHalf h.hears.wf
  have hseven : (driveLevels s.params.tBit (alternating true 7) s).Counts r true 7 s.params.tBit :=
    State.Counts.driveLevels_alternating (lv := false) (by rwa [Nat.add_comm, ← Nat.succ_mul]) (by omega) (by decide)
  rw [driveWave_frameLevels]
  have hparams := driveLevels_params s.params.tBit (alternating true 7) s
  generalize driveLevels s.params.tBit (alternating true 7) s = t at hseven hparams ⊢
  rw [← hparams] at hseven hphase hlimit hseed hroom htoSof hinact hglobal heof htwo ⊢
  obtain ⟨hlocked, hwait⟩ := hseven.holdLevel_locked hphase (by omega)
  rw [Bool.not_true] at hlocked hwait
  have hparams' := holdLevel_params false t.params.tBit t
  generalize holdLevel false t.params.tBit t = u at hlocked hwait hparams' ⊢
  rw [← hparams'] at hlocked hwait hlimit hseed hroom htoSof hinact hglobal heof htwo ⊢
  have hstart := hlocked.receives hwait (by omega)
  have hbytes := hstart.driveLevels_bytes (bytes := frameBytes ty payload) (by simp) (by simp [frameBytes, headerBytes])
    (by simpa using hroom) (by simp; omega) (by simpa using hglobal)
  have hframe := hbytes.driveLevels_endDelimiter (by simp) (by simpa using hlimit) (by simpa using hseed)
    (by simpa using hinact) (by simp; omega) (by simpa using heof)
  simpa only [driveLevels_params] using hframe

/-- Settles O52: the frame is heard in the phase the lock has fixed, and validated in the LOW bit period after it. -/
theorem wholeFrameIsReceivedAtAnyPhase : Obligations.WholeFrameIsReceivedAtAnyPhase := by
  intro s ty payload hwf hnow hst hwait hvalid hlevel hcount hnoise hphase hlimit hseed hroom hlen htoPre htoSof hinact
    hglobal heof t
  have hears : s.Hears := ⟨hwf, hnow, by simp [hst], hnoise⟩
  have hstart : s.Counts s.rx false 0 (8 * s.params.tBit) :=
    ⟨hears, hst, hwait, hvalid, hlevel, hcount, htoPre, ⟨rfl, rfl, rfl⟩⟩
  have hframe := hstart.awaits_of_frame (ty := ty) hphase hlimit hseed hroom htoSof hinact hglobal heof
  have hparams := driveWave_params (frameLevels s.params ty payload) s
  have hcal := hears.driveWave_cal (frameLevels s.params ty payload)
  simp only [t]
  generalize Spec.driveWave (frameLevels s.params ty payload) s = u at hframe hparams hcal ⊢
  obtain ⟨hstate, hres, hbuf⟩ := hframe.holdLevel_low hlen
  rw [← hparams, hres, hbuf]
  exact ⟨hstate, rfl, rfl, Nat.mod_eq_of_lt hlen, rfl, (hframe.hears.holdLevel_cal false _).trans hcal,
    fun k hk => hframe.stored k (by simpa using hk)⟩

end Sys2Proof.Machine
end
